-- ==== Sys2Proof/Word.lean ====
section
/-! DEFINITION. The widths the spec gives values: 32-bit registers (R11), 8-bit bytes and channels (R25, R68), palette
entries and pixels as their channels (R24, R26). -/

namespace Sys2Proof

/-- A register, a command word or a host word: 32 bits (R11, R60). -/
abbrev Word := BitVec 32

/-- A byte of `OUT`, or one 8-bit channel (R25, R68). -/
abbrev Byte := BitVec 8

/-- A palette entry: three unsigned 8-bit channels, no alpha (R24). -/
structure Rgb where
  r : Byte
  g : Byte
  b : Byte
  deriving DecidableEq, Repr, Inhabited

/-- A pixel: red, green, blue and alpha, 8 bits each (R26, R68). -/
structure Pixel where
  r : Byte
  g : Byte
  b : Byte
  a : Byte
  deriving DecidableEq, Repr, Inhabited

end Sys2Proof
end

