-- ==== Sys2Proof/Config.lean ====
section
/-! DEFINITION. The constants of R7 and the values the spec leaves open (93_implementation_defined.md U1 to U6).
`OUT_SIZE` is the field `outTop` of State (log 2). `REG_BASE` and `OUT_WINDOW_BASE` are left out (log 19). -/

namespace Sys2Proof.Config

/-- `MAX_TILE_COUNT` (R7, R123). -/
def maxTileCount : Nat := 65535

/-- `BLOCK_BYTES`: bytes in a memory block at both depths (R7, R120). -/
def blockBytes : Nat := 16384

/-- `PAL_SIZE` = `PAL_MAX_8` (R7, R24): entries of palette memory. -/
def palSize : Nat := 256

/-- `PAL_MAX_4`: an index at 4 bits per pixel lies below it (R7, R126). -/
def palMax4 : Nat := 16

/-- `GLYPH_MAX_W` (R7, R154). -/
def glyphMaxW : Nat := 12

/-- `GLYPH_MAX_H` (R7, R154). -/
def glyphMaxH : Nat := 12

/-- `GLYPH_MAX_VOFF` (R7, R154). -/
def glyphMaxVoff : Nat := 15

/-- `FONT_HDR_BYTES` (R7, R76). -/
def fontHdrBytes : Nat := 4

/-- The greatest offset a glyph header holds (R157). -/
def maxGlyphOffset : Nat := 65535

/-- U1: what entry `i` of `PAL` holds at power-on. Nothing constrains it (log 7). -/
opaque powerOnPal : Nat → Rgb

/-- U2: what byte `a` of `OUT` holds at power-on. Nothing constrains it (log 8). -/
opaque powerOnOut : Nat → Byte

/-- U3: the `k`-th free word: what a host read that is unspecified returns (log 9). -/
opaque freeWord : Nat → Word

/-- U3, U5, U6: the `k`-th free byte (logs 9, 10, 11). -/
opaque freeByte : Nat → Byte

/-- U6: the `k`-th free palette entry (log 11). -/
opaque freeRgb : Nat → Rgb

end Sys2Proof.Config
end

