-- ==== Sys2Proof/Machine/State.lean ====
section
/-! DEFINITION. What the machine is made of: the seventeen registers, `PAL` and `OUT` (R10), the inputs the block reads
(image port R26, `OUT_SIZE` R7, `RST` R190), and the model's own fields (the agenda, the host's read data, the counter of free
values). INVENTORY.md lists every field with its rule and reset value. -/

namespace Sys2Proof.Machine

/-- A memory: (key, value) pairs with strictly rising keys (`Memory.wf`, Machine/Ops.lean). A key that is not listed has no
value here: what the machine's reads answer there is a free value (logs 7, 8). -/
abbrev Memory (α : Type) := List (Nat × α)

/-- `STATUS` by its fields (R13). Its reserved bits are no storage: they read 0 (`statusWord`, Machine/Flags.lean). -/
structure Status where
  busy    : Bool
  done    : Bool
  err     : Bool
  fatal   : Bool
  errcode : BitVec 4
  deriving DecidableEq, Repr

/-- `QSTATE.QMODE` (R23). -/
inductive QMode where
  /-- 0, `NearestFixed`. -/
  | nearestFixed
  /-- 1, `IncrementalNaive`. -/
  | incrementalNaive
  deriving DecidableEq, Repr

/-- `QSTATE` by its fields (R23). Its reserved bits are no storage: they read 0. -/
structure QState where
  mode  : QMode
  count : BitVec 9
  cap   : BitVec 9
  deriving DecidableEq, Repr

/-- `TILEARG` by its fields (R19). Bits 31:24 are no storage: they read 0 and ignore writes. -/
structure TileArg where
  padIdx : Byte
  fill   : Byte
  fitBlk : Byte
  deriving DecidableEq, Repr

/-- What the image port presents (R26). Pixel (x, y) is the entry of `cells` at key y·2^32 + x, or `bg` where none is listed:
every image of 32-bit dimensions has such a form, and every value of this type is an image (log 3). -/
structure Image where
  valid  : Bool
  width  : Word
  height : Word
  bg     : Pixel
  cells  : Memory Pixel
  deriving DecidableEq, Repr

/-- The named errors (R170). -/
inductive ErrName where
  | invalidImage
  | emptyImage
  | invalidRect
  | unexpectedImageSize
  | imageTooLarge
  | tooManyTiles
  | unexpectedPaletteIndex
  | fontInvariant
  | fontOffsetOverflow
  | illegalCommand
  | badOperand
  | outputOverflow
  deriving DecidableEq, Repr

/-- One turn of the agenda (log 1): a host access, an action of the platform, or the block's turn. -/
inductive Event where
  /-- The host writes `n` bytes, value `v`, at byte offset `off` of the register window (R11, R24, R43). -/
  | hostWrite (off n : Nat) (v : Word)
  /-- The host reads `n` bytes at byte offset `off` of the register window. -/
  | hostRead (off n : Nat)
  /-- The host reads `n` bytes from byte `addr` of the `OUT` window (R25, R43). -/
  | outRead (addr n : Nat)
  /-- The host writes bytes at byte `addr` of the `OUT` window (R25). -/
  | outWrite (addr : Nat) (data : List Byte)
  /-- The platform presents this image (R26, R195). -/
  | present (img : Image)
  /-- The platform asserts (true) or releases (false) `RST` (R190). -/
  | reset (level : Bool)
  /-- The block has its turn: it completes the command in progress, if there is one (R12, R199). -/
  | blockTurn
  deriving DecidableEq, Repr

/-- What the host's last read returned (log 5). -/
inductive ReadData where
  | none
  | word (w : Word)
  | bytes (bs : List Byte)
  deriving DecidableEq, Repr

/-- The machine's state. -/
structure State where
  /-- `CMD`, the last accepted word (R12). -/
  cmd     : Word
  /-- `STATUS` (R13). -/
  status  : Status
  /-- `ERRINFO` (R14). -/
  errinfo : Word
  /-- `PIXEL` (R15). -/
  pixel   : Word
  /-- `RESULT` (R16). -/
  result  : Word
  /-- `RECTX` (R17). -/
  rectX   : Word
  /-- `RECTY` (R17). -/
  rectY   : Word
  /-- `RECTW` (R17). -/
  rectW   : Word
  /-- `RECTH` (R17). -/
  rectH   : Word
  /-- `CELLW` (R18). -/
  cellW   : Word
  /-- `CELLH` (R18). -/
  cellH   : Word
  /-- `TILEARG` (R19). -/
  tilearg : TileArg
  /-- `OUTBASE` (R20). -/
  outbase : Word
  /-- `OUTLEN` (R21). -/
  outlen  : Word
  /-- `RES0` (R22). -/
  res0    : Word
  /-- `RES1` (R22). -/
  res1    : Word
  /-- `QSTATE` (R23). -/
  qstate  : QState
  /-- `PAL` (R24): the entries written since power-on, by entry number. -/
  pal     : Memory Rgb
  /-- `OUT` (R25): the bytes written since power-on, by address. -/
  out     : List Host.Cell
  /-- The address of the last byte of `OUT`: `OUT_SIZE` is one more, 1 to 2^32 (R7; log 2). -/
  outTop  : Fin 4294967296
  /-- The image port (R26; log 3). -/
  img     : Image
  /-- `RST` is asserted (R190; log 4). -/
  rst     : Bool
  /-- The turns to come, the next one first (log 1). The model's own. -/
  agenda  : List Event
  /-- What the host's last read returned (log 5). The model's own. -/
  rdata   : ReadData
  /-- How many free values have been drawn (log 6). The model's own. -/
  freeCtr : Nat
  deriving DecidableEq, Repr

/-- Why the model stops with a fault. -/
inductive Fault where
  /-- A host access to a byte of the `OUT` window at or above `OUT_SIZE` (R25 gives `OUT` no such byte). Raised by `outRead` and
  `outWrite` events. Safe: no command raises it, and the hardware may go on (log 14). -/
  | outAddressAbsent (addr : Nat)
  deriving DecidableEq, Repr

/-- Why the model refuses a step. -/
inductive Refusal where
  /-- A command without a meaning in the model. No arm of `exec` answers it. Safe. -/
  | notModelled (mnemonic : String)
  /-- A host access to the register window that is not an aligned 32-bit access (R43, U4 says refuse). Raised by `hostWrite` and
  `hostRead` events. Safe (log 12). -/
  | hostAccessUnsupported (off n : Nat)
  /-- The platform changes the image while `BUSY` = 1 (R195, U7 says refuse). Raised by `present` events. Safe (log 13). -/
  | imageChangedWhileBusy
  deriving DecidableEq, Repr

/-- `STATUS` after reset (R29). -/
def Status.reset : Status := { busy := false, done := false, err := false, fatal := false, errcode := 0#4 }

/-- `QSTATE` after reset, 0x00010001 (R29). -/
def QState.reset : QState := { mode := .nearestFixed, count := 1#9, cap := 1#9 }

/-- `TILEARG` after reset (R29). -/
def TileArg.reset : TileArg := { padIdx := 0#8, fill := 0#8, fitBlk := 0#8 }

/-- No image presented (R26: the adapter drives `valid` to 0). -/
def Image.absent : Image :=
  { valid := false, width := 0#32, height := 0#32, bg := { r := 0#8, g := 0#8, b := 0#8, a := 0#8 }, cells := [] }

/-- The machine right after power-on and reset (R29, R190, R191). The registers hold the spec's values; `PAL` and `OUT` hold
nothing written (U1, U2). DESIGN CHOICE, unsafe where a claim leans on them: `outTop` (log 2), `img` (log 3), `rst` (log 4),
`agenda` (log 1), `rdata` (log 5), `freeCtr` (log 6). -/
def State.reset : State where
  cmd     := 0#32
  status  := Status.reset
  errinfo := 0#32
  pixel   := 0#32
  result  := 0#32
  rectX   := 0#32
  rectY   := 0#32
  rectW   := 0#32
  rectH   := 0#32
  cellW   := 0#32
  cellH   := 0#32
  tilearg := TileArg.reset
  outbase := 0#32
  outlen  := 0#32
  res0    := 0#32
  res1    := 0#32
  qstate  := QState.reset
  pal     := []
  out     := []
  outTop  := 65535
  img     := Image.absent
  rst     := false
  agenda  := []
  rdata   := .none
  freeCtr := 0

end Sys2Proof.Machine
end

