-- ==== Sys2Proof/Machine/Flags.lean ====
section
/-! DEFINITION. `STATUS` (R13): the block's only flags, what acceptance and the three ways a command ends write to them, the
error codes (R170), and the words in which the host reads the fielded registers. -/

namespace Sys2Proof.Machine

/-- The code of an error (R170). -/
def errCode : ErrName → BitVec 4
  | .invalidImage => 1#4
  | .emptyImage => 2#4
  | .invalidRect => 3#4
  | .unexpectedImageSize => 4#4
  | .imageTooLarge => 5#4
  | .tooManyTiles => 6#4
  | .unexpectedPaletteIndex => 7#4
  | .fontInvariant => 8#4
  | .fontOffsetOverflow => 9#4
  | .illegalCommand => 10#4
  | .badOperand => 11#4
  | .outputOverflow => 12#4

/-- Class (c) of R170: the errors that end a command by `fatal` (R173); the others end it by `raise` (R172). -/
def isFatalError : ErrName → Bool
  | .fontInvariant => true
  | .fontOffsetOverflow => true
  | .invalidImage => false
  | .emptyImage => false
  | .invalidRect => false
  | .unexpectedImageSize => false
  | .imageTooLarge => false
  | .tooManyTiles => false
  | .unexpectedPaletteIndex => false
  | .illegalCommand => false
  | .badOperand => false
  | .outputOverflow => false

/-- `STATUS` at acceptance (R12). Acceptance needs `FATAL` = 0, so `BUSY` is the only bit set. -/
def acceptedStatus : Status := { busy := true, done := false, err := false, fatal := false, errcode := 0#4 }

/-- Completion without error (R171): `BUSY` ← 0, `DONE` ← 1; no other flag is written. -/
def completedStatus (st : Status) : Status := { st with busy := false, done := true }

/-- Completion by `raise` (R172); `FATAL` is not written. -/
def raisedStatus (e : ErrName) (st : Status) : Status :=
  { st with busy := false, done := true, err := true, errcode := errCode e }

/-- Completion by `fatal` (R173). -/
def fatalStatus (e : ErrName) : Status :=
  { busy := false, done := true, err := true, fatal := true, errcode := errCode e }

/-- `STATUS` as a word: reserved bits read 0 (R13, R31). -/
def statusWord (st : Status) : Word :=
  0#20 ++ st.errcode ++ 0#4 ++ BitVec.ofBool st.fatal ++ BitVec.ofBool st.err ++ BitVec.ofBool st.done
    ++ BitVec.ofBool st.busy

/-- The bit `QMODE` (R23). -/
def modeBit : QMode → BitVec 1
  | .nearestFixed => 0#1
  | .incrementalNaive => 1#1

/-- `QSTATE` as a word: reserved bits read 0 (R23, R31). -/
def qstateWord (q : QState) : Word := modeBit q.mode ++ 0#6 ++ q.cap ++ 0#7 ++ q.count

end Sys2Proof.Machine
end

