-- ==== Sys2Proof/Machine/Operands.lean ====
section
/-! DEFINITION. The forms in which operands are held: pixel word, palette entry word, `TILEARG` word (R19, R68, R69), the
rectangle and its containment test (R141, R150), the 15-bit colour (R70, R110) and the little-endian byte pair (R41). -/

namespace Sys2Proof.Machine

/-- The pixel a word holds (R68). -/
def pixelOfWord (w : Word) : Pixel :=
  { r := w.extractLsb' 0 8, g := w.extractLsb' 8 8, b := w.extractLsb' 16 8, a := w.extractLsb' 24 8 }

/-- The palette entry a word holds: bits 31:24 are ignored (R69). -/
def rgbOfWord (w : Word) : Rgb :=
  { r := w.extractLsb' 0 8, g := w.extractLsb' 8 8, b := w.extractLsb' 16 8 }

/-- A palette entry as a word: bits 31:24 read 0 (R69). -/
def rgbWord (c : Rgb) : Word := 0#8 ++ c.b ++ c.g ++ c.r

/-- The colour of a pixel, alpha dropped. -/
def pixelRgb (p : Pixel) : Rgb := { r := p.r, g := p.g, b := p.b }

/-- What a host write puts into `TILEARG`: bits 31:24 are ignored (R19). -/
def tileArgOfWord (w : Word) : TileArg :=
  { padIdx := w.extractLsb' 0 8, fill := w.extractLsb' 8 8, fitBlk := w.extractLsb' 16 8 }

/-- `TILEARG` as a word: bits 31:24 read 0 (R19). -/
def tileArgWord (t : TileArg) : Word := 0#8 ++ t.fitBlk ++ t.fill ++ t.padIdx

/-- The low byte, then the high byte (R41, R42). -/
def le16 (v : BitVec 16) : List Byte := [v.extractLsb' 0 8, v.extractLsb' 8 8]

/-- `To15(r, g, b)` (R110): the channel placement is the spec's D14, from general knowledge (G2; log 17). -/
def to15 (c : Rgb) : BitVec 16 :=
  (c.r >>> 3).setWidth 16 ||| ((c.g >>> 3).setWidth 16 <<< 5) ||| ((c.b >>> 3).setWidth 16 <<< 10)

/-- A rectangle in image coordinates (R17, R141). -/
structure Region where
  rx : Nat
  ry : Nat
  rw : Nat
  rh : Nat
  deriving DecidableEq, Repr

/-- The rectangle the registers `RECTX` to `RECTH` hold (R17). -/
def rectRegion (s : State) : Region :=
  { rx := s.rectX.toNat, ry := s.rectY.toNat, rw := s.rectW.toNat, rh := s.rectH.toNat }

/-- The whole image (R141). -/
def wholeRegion (s : State) : Region :=
  { rx := 0, ry := 0, rw := s.img.width.toNat, rh := s.img.height.toNat }

/-- The rectangle lies fully inside the image: exact sums, no 32-bit wrap (R141, R150). -/
def rectInside (s : State) (r : Region) : Bool :=
  r.rx + r.rw ≤ s.img.width.toNat && r.ry + r.rh ≤ s.img.height.toNat

/-- A width or a height of 0 (R121, D17). -/
def imageEmpty (s : State) : Bool := s.img.width = 0#32 || s.img.height = 0#32

end Sys2Proof.Machine
end

