-- ==== Sys2Proof/Machine/Ops.lean ====
section
/-! DEFINITION. The named operations over memory, palette, output memory and image port; acceptance of a command, the three
ways a command ends (the block's exceptions, R171 to R173), and the draws of free values. -/

namespace Sys2Proof.Machine

/-- The canonical form: keys strictly rising, so no key twice. No entry can equal what an unlisted key holds, since that is no
value at all; so equal memories are equal lists. -/
abbrev Memory.wf {α : Type} (m : Memory α) : Prop := m.Pairwise (fun x y => x.1 < y.1)

/-- The value listed at a key. -/
def Memory.get? {α : Type} : Memory α → Nat → Option α
  | [], _ => none
  | (k, v) :: m, a => if k = a then some v else Memory.get? m a

/-- Values at consecutive keys from `base`. -/
def Memory.block {α : Type} (base : Nat) : List α → Memory α
  | [] => []
  | v :: vs => (base, v) :: Memory.block (base + 1) vs

/-- Write `vs` at the keys from `base` on and leave every other key alone. -/
def Memory.setBlock {α : Type} (m : Memory α) (base : Nat) (vs : List α) : Memory α :=
  m.filter (fun x => x.1 < base) ++ (Memory.block base vs ++ m.filter (fun x => base + vs.length ≤ x.1))

/-- Write one key. -/
def Memory.set {α : Type} (m : Memory α) (k : Nat) (v : α) : Memory α := Memory.setBlock m k [v]

/-- `OUT_SIZE` (R7): 1 to 2^32. -/
def State.outSize (s : State) : Nat := s.outTop.val + 1

/-- `PAL[i]` (R24). An entry that nothing has written holds the free value of U1 (log 7). -/
def palGet (pal : Memory Rgb) (i : Nat) : Rgb := (Memory.get? pal i).getD (Config.powerOnPal i)

/-- Byte `a` of `OUT` (R25). A byte that nothing has written holds the free value of U2 (log 8). -/
def outGet (out : Memory Byte) (a : Nat) : Byte := (Memory.get? out a).getD (Config.powerOnOut a)

/-- The key of pixel (x, y): no two pixels of 32-bit coordinates share one. -/
def pixelKey (x y : Nat) : Nat := y * 4294967296 + x

/-- `ImgPixel(x, y)` (R26, R47). -/
def imgPixel (img : Image) (x y : Nat) : Pixel := (Memory.get? img.cells (pixelKey x y)).getD img.bg

/-- Acceptance of the command word `w` (R12): the block becomes busy and the previous outcome is cleared. -/
def acceptCommand (w : Word) (s : State) : State :=
  { s with cmd := w, status := acceptedStatus, errinfo := 0#32, outlen := 0#32, res0 := 0#32, res1 := 0#32 }

/-- Completion without error (R171). -/
def complete (s : State) : State := { s with status := completedStatus s.status }

/-- Taking an exception: a command ends with error `e` and detail `info`, by `raise` (R172) or, for class (c), by `fatal`
(R173). Nothing else is written: `OUTLEN`, `RES0`, `RES1` are 0 from acceptance. The way back from a raised error is the acceptance
of the next command (R176), `acceptCommand`; from a fatal one, reset. -/
def endWithError (e : ErrName) (info : Word) (s : State) : State :=
  { s with status := if isFatalError e then fatalStatus e else raisedStatus e s.status, errinfo := info }

/-- A command whose artifact is `bytes` ends without error (R42, R171): the artifact goes to `OUT` from `OUTBASE`, its length to
`OUTLEN`, the counts to `RES0` and `RES1`. A store into a 32-bit register truncates (D44); only a length of exactly 2^32 does not
fit (log 16). -/
def finishArtifact (bytes : List Byte) (r0 r1 : Nat) (s : State) : State :=
  complete { s with
    out := Memory.setBlock s.out s.outbase.toNat bytes
    outlen := BitVec.ofNat 32 bytes.length
    res0 := BitVec.ofNat 32 r0
    res1 := BitVec.ofNat 32 r1 }

/-- The artifact of `len` bytes does not fit in `OUT` from `OUTBASE` (R51). -/
def overflowsOut (s : State) (len : Nat) : Bool := s.outSize < s.outbase.toNat + len

/-- `n` free bytes, the first being the `k`-th. -/
def freeBytes (k n : Nat) : List Byte := (List.range n).map (fun j => Config.freeByte (k + j))

/-- The bytes `OUT[base .. base + len − 1]` take free values (U5, U6; logs 10, 11). -/
def havocOut (base len : Nat) (s : State) : State :=
  { s with out := Memory.setBlock s.out base (freeBytes s.freeCtr len), freeCtr := s.freeCtr + len }

/-- The entries `PAL[base .. base + n − 1]` take free values (U6; log 11). -/
def havocPal (base n : Nat) (s : State) : State :=
  { s with
    pal := Memory.setBlock s.pal base ((List.range n).map (fun j => Config.freeRgb (s.freeCtr + j)))
    freeCtr := s.freeCtr + n }

end Sys2Proof.Machine
end

