-- ==== Sys2Proof/Machine/Quantizer.lean ====
section
/-! DEFINITION. The colour quantizer (R90 to R98): `Classify` and the commands `QFIX`, `QINC`, `QCLS`. -/

namespace Sys2Proof.Machine

/-- The difference of two channels, squared, on integers (R90). -/
def channelDist2 (x y : Byte) : Nat :=
  let d := ((x.toNat : Int) - (y.toNat : Int)).natAbs
  d * d

/-- `Dist2(p, e)` (R90): alpha takes no part. -/
def dist2 (p : Pixel) (e : Rgb) : Nat := channelDist2 p.r e.r + channelDist2 p.g e.g + channelDist2 p.b e.b

/-- One turn of the search of R91: entry `i` replaces the candidate only when it is strictly nearer. `none` is INFINITY. -/
def nearestStep (pal : Memory Rgb) (p : Pixel) (acc : Nat × Option Nat) (i : Nat) : Nat × Option Nat :=
  let d := dist2 p (palGet pal i)
  match acc.2 with
  | none => (i, some d)
  | some b => if d < b then (i, some d) else acc

/-- `Nearest(p, n)` (R91): entries 1 to n − 1 in increasing order. -/
def nearest (pal : Memory Rgb) (p : Pixel) (n : Nat) : Nat × Option Nat :=
  (List.range' 1 (n - 1)).foldl (nearestStep pal p) (0, none)

/-- What `Classify` reads and writes: `QSTATE` and `PAL` (R93, R94). -/
structure Quant where
  qstate : QState
  pal    : Memory Rgb
  deriving DecidableEq, Repr

/-- The quantizer of a state (R33: there is one). -/
def State.quant (s : State) : Quant := { qstate := s.qstate, pal := s.pal }

/-- The state with its quantizer replaced. -/
def State.withQuant (s : State) (q : Quant) : State := { s with qstate := q.qstate, pal := q.pal }

/-- `ClassifyFixed(p)` (R93). -/
def classifyFixed (q : Quant) (p : Pixel) : Nat :=
  if p.a ≠ 255#8 then 0 else (nearest q.pal p q.qstate.count.toNat).1

/-- Record the colour of `p` as the next entry (R94): the index is `QCOUNT`, and `QCOUNT` goes up by one. -/
def recordColour (q : Quant) (p : Pixel) : Nat × Quant :=
  (q.qstate.count.toNat,
    { qstate := { q.qstate with count := q.qstate.count + 1#9 }
      pal := Memory.set q.pal q.qstate.count.toNat (pixelRgb p) })

/-- `ClassifyInc(p)` (R94). -/
def classifyInc (q : Quant) (p : Pixel) : Nat × Quant :=
  if p.a ≠ 255#8 then (0, q)
  else if q.qstate.count.toNat < 2 then recordColour q p
  else
    let near := nearest q.pal p q.qstate.count.toNat
    if near.2 = some 0 ∨ q.qstate.count = q.qstate.cap then (near.1, q) else recordColour q p

/-- `Classify(p)` (R95). -/
def classify (q : Quant) (p : Pixel) : Nat × Quant :=
  match q.qstate.mode with
  | .nearestFixed => (classifyFixed q p, q)
  | .incrementalNaive => classifyInc q p

/-- What a scan of positions gives: the indices obtained before it stopped, the quantizer as the calls left it, and the index at
which it stopped, if one was out of range. -/
structure Scan where
  indices : List Nat
  quant   : Quant
  bad     : Option Nat
  deriving DecidableEq, Repr

/-- The index is not below the limit; without a limit no index is out of range (R126, R127). -/
def overLimit (limit : Option Nat) (i : Nat) : Bool :=
  match limit with
  | none => false
  | some m => m ≤ i

/-- Index the positions in order by `f`; with a limit, stop at the first index not below it, before the next position is indexed
(R125, R126). -/
def scanPositions {α : Type} (f : Quant → α → Nat × Quant) (limit : Option Nat) : List α → Quant → Scan
  | [], q => { indices := [], quant := q, bad := none }
  | a :: as, q =>
    let r := f q a
    if overLimit limit r.1 then
      { indices := [], quant := r.2, bad := some r.1 }
    else
      let rest := scanPositions f limit as r.2
      { rest with indices := r.1 :: rest.indices }

/-- `QFIX n` (R96). -/
def execQfix (n : BitVec 9) (s : State) : Host.Outcome State Fault Refusal :=
  if n.toNat < 1 ∨ Config.palSize < n.toNat then .next (endWithError .badOperand (n.setWidth 32) s)
  else .next (complete { s with qstate := { mode := .nearestFixed, count := n, cap := n } })

/-- `QINC n` (R97). -/
def execQinc (n : BitVec 9) (s : State) : Host.Outcome State Fault Refusal :=
  if n.toNat < 2 ∨ Config.palSize < n.toNat then .next (endWithError .badOperand (n.setWidth 32) s)
  else
    .next (complete { s with
      pal := Memory.set s.pal 0 { r := 0#8, g := 0#8, b := 0#8 }
      qstate := { mode := .incrementalNaive, count := 1#9, cap := n } })

/-- `QCLS` (R98). -/
def execQcls (s : State) : Host.Outcome State Fault Refusal :=
  let r := classify s.quant (pixelOfWord s.pixel)
  .next (complete { s.withQuant r.2 with result := BitVec.ofNat 32 r.1 })

end Sys2Proof.Machine
end

