-- ==== Sys2Proof/Syntax.lean ====
section
/-! DEFINITION. The ten commands (R2, R63), one constructor per row of the opcode table. -/

namespace Sys2Proof

/-- The flags of `TILE4` and `TILE8` other than `BPP8`, which the mnemonic fixes (R64, R67). -/
structure TileFlags where
  allowEmpty : Bool
  padDim     : Bool
  fitEn      : Bool
  padFit     : Bool
  deriving DecidableEq, Repr

/-- The flags of `BMPI` and `BMPC` other than `COLOR`, which the mnemonic fixes (R65, R67). -/
structure BmpFlags where
  allowEmpty : Bool
  useRect    : Bool
  deriving DecidableEq, Repr

/-- A command (R63). Every other operand is a register (R62). -/
inductive Instr where
  /-- `QFIX n` (R96). -/
  | qfix (n : BitVec 9)
  /-- `QINC n` (R97). -/
  | qinc (n : BitVec 9)
  /-- `QCLS` (R98). -/
  | qcls
  /-- `CVT15` (R111). -/
  | cvt15
  /-- `PALX` (R112). -/
  | palx
  /-- `TILE4` (R130). -/
  | tile4 (f : TileFlags)
  /-- `TILE8` (R131). -/
  | tile8 (f : TileFlags)
  /-- `BMPI` (R143). -/
  | bmpi (f : BmpFlags)
  /-- `BMPC` (R144). -/
  | bmpc (f : BmpFlags)
  /-- `FONT` (R159). -/
  | font
  deriving DecidableEq, Repr

end Sys2Proof
end

