-- ==== Sys2Proof/Machine/Bitmap.lean ====
section
/-! DEFINITION. The bitmap encoder (R140 to R146): `BMPI`, `BMPC`. -/

namespace Sys2Proof.Machine

/-- The encoded region (R141), without its check. -/
def bmpRegion (f : BmpFlags) (s : State) : Region := if f.useRect then rectRegion s else wholeRegion s

/-- The checks of R140 to R142, in the order of R175; `e` is the element size. -/
def bmpPlan (e : Nat) (f : BmpFlags) (s : State) : Except ErrName Region :=
  let r := bmpRegion f s
  if s.img.valid = false then .error .invalidImage
  else if imageEmpty s ∧ f.allowEmpty = false then .error .emptyImage
  else if f.useRect ∧ rectInside s r = false then .error .invalidRect
  else if overflowsOut s (r.rw * r.rh * e) then .error .outputOverflow
  else .ok r

/-- The positions of a region, row-major (R142). -/
def regionPositions (r : Region) : List (Nat × Nat) :=
  (List.range r.rh).flatMap fun j => (List.range r.rw).map fun i => (r.rx + i, r.ry + j)

/-- The `Classify` calls of `BMPI`, in output order, with no range check (R142, R143). -/
def bmpScan (r : Region) (s : State) : Scan :=
  scanPositions (fun q pos => classify q (imgPixel s.img pos.1 pos.2)) none (regionPositions r) s.quant

/-- The bytes of `BMPC` (R144): alpha is ignored. -/
def bmpColours (img : Image) (r : Region) : List Byte :=
  (regionPositions r).flatMap fun pos => le16 (to15 (pixelRgb (imgPixel img pos.1 pos.2)))

/-- `BMPI` (R143). -/
def execBmpi (f : BmpFlags) (s : State) : Host.Outcome State Fault Refusal :=
  match bmpPlan 1 f s with
  | .error e => .next (endWithError e 0#32 s)
  | .ok r =>
    let sc := bmpScan r s
    .next (finishArtifact (sc.indices.map (BitVec.ofNat 8)) r.rw r.rh (s.withQuant sc.quant))

/-- `BMPC` (R144). -/
def execBmpc (f : BmpFlags) (s : State) : Host.Outcome State Fault Refusal :=
  match bmpPlan 2 f s with
  | .error e => .next (endWithError e 0#32 s)
  | .ok r => .next (finishArtifact (bmpColours s.img r) r.rw r.rh s)

end Sys2Proof.Machine
end

