-- ==== Sys2Proof/Machine/Depth.lean ====
section
/-! DEFINITION. The colour depth converter and the palette export (R110 to R112): `CVT15`, `PALX`. -/

namespace Sys2Proof.Machine

/-- `CVT15` (R111): alpha is ignored. -/
def execCvt15 (s : State) : Host.Outcome State Fault Refusal :=
  .next (complete { s with result := (to15 (pixelRgb (pixelOfWord s.pixel))).setWidth 32 })

/-- The palette binary (R75): entries 0 to n − 1 as 15-bit colours. -/
def paletteBytes (pal : Memory Rgb) (n : Nat) : List Byte := (List.range n).flatMap (fun i => le16 (to15 (palGet pal i)))

/-- The length of the palette binary, if it fits (R112). -/
def palxPlan (s : State) : Except ErrName Nat :=
  if overflowsOut s (2 * s.qstate.count.toNat) then .error .outputOverflow else .ok (2 * s.qstate.count.toNat)

/-- `PALX` (R112). -/
def execPalx (s : State) : Host.Outcome State Fault Refusal :=
  match palxPlan s with
  | .error e => .next (endWithError e 0#32 s)
  | .ok _ => .next (finishArtifact (paletteBytes s.pal s.qstate.count.toNat) s.qstate.count.toNat 0 s)

end Sys2Proof.Machine
end

