-- ==== Sys2Proof/Machine/Font.lean ====
section
/-! DEFINITION. The font glyph packer (R150 to R161): `FONT`. -/

namespace Sys2Proof.Machine

/-- The set predicate (R152): fully opaque and not black. -/
def pixelSet (p : Pixel) : Bool := p.a = 255#8 && !(p.r = 0#8 && p.g = 0#8 && p.b = 0#8)

/-- A cell of the grid (R151): its glyph number and its top-left pixel. -/
structure Cell where
  g     : Nat
  cellX : Nat
  cellY : Nat
  deriving DecidableEq, Repr

/-- `S(u, v)` of a cell (R152). -/
def cellSet (img : Image) (c : Cell) (u v : Nat) : Bool := pixelSet (imgPixel img (c.cellX + u) (c.cellY + v))

/-- The set pixels of a cell of `cw` by `ch` pixels, in cell coordinates (R152). -/
def setPixels (img : Image) (cw ch : Nat) (c : Cell) : List (Nat × Nat) :=
  (List.range ch).flatMap fun v => ((List.range cw).filter fun u => cellSet img c u v).map fun u => (u, v)

/-- A bounding box in cell coordinates (R153). -/
structure Box where
  xMin : Nat
  xMax : Nat
  yMin : Nat
  yMax : Nat
  deriving DecidableEq, Repr

/-- The least box that holds a box and a pixel. -/
def Box.widen (b : Box) (p : Nat × Nat) : Box :=
  { xMin := min b.xMin p.1, xMax := max b.xMax p.1, yMin := min b.yMin p.2, yMax := max b.yMax p.2 }

/-- The bounding box of the set pixels; none for a blank cell (R153). -/
def boxOf : List (Nat × Nat) → Option Box
  | [] => none
  | p :: ps => some (ps.foldl Box.widen { xMin := p.1, xMax := p.1, yMin := p.2, yMax := p.2 })

/-- `w` (R153). -/
def Box.w (b : Box) : Nat := b.xMax - b.xMin + 1

/-- `h` (R153). -/
def Box.h (b : Box) : Nat := b.yMax - b.yMin + 1

/-- The box breaks a format constraint (R154). -/
def Box.violates (b : Box) : Bool :=
  Config.glyphMaxW < b.w || Config.glyphMaxH < b.h || Config.glyphMaxVoff < b.yMin

/-- `ERRINFO` of `FontInvariant` (R154, R174). -/
def fontInvariantInfo (g : Nat) (b : Box) : Word :=
  BitVec.ofNat 32 (g % 65536 + (if Config.glyphMaxW < b.w then 65536 else 0)
    + (if Config.glyphMaxH < b.h then 131072 else 0) + (if Config.glyphMaxVoff < b.yMin then 262144 else 0))

/-- `rowval(t)` (R155). -/
def rowValue (img : Image) (c : Cell) (b : Box) (t : Nat) : Nat :=
  ((List.range b.w).map fun i => if cellSet img c (b.xMin + i) (b.yMin + t) then 2 ^ i else 0).sum

/-- One row value as 1 or 2 bytes (R155). -/
def rowBytes (w : Nat) (v : Nat) : List Byte :=
  if 8 < w then le16 (BitVec.ofNat 16 v) else [BitVec.ofNat 8 v]

/-- The row data of a glyph, top row first (R77, R155). -/
def glyphRows (img : Image) (c : Cell) (b : Box) : List Byte :=
  (List.range b.h).flatMap fun t => rowBytes b.w (rowValue img c b t)

/-- The header of a non-blank glyph (R76, R156). -/
def glyphHeader (b : Box) (off : Nat) : List Byte :=
  [BitVec.ofNat 8 (b.w ||| (b.h <<< 4)), BitVec.ofNat 8 b.yMin] ++ le16 (BitVec.ofNat 16 off)

/-- What a glyph, or a run of glyphs, contributes to the artifact. -/
structure FontPart where
  headers : List Byte
  rows    : List Byte
  deriving DecidableEq, Repr

/-- One glyph (R152 to R157). `base` is the offset its row data would have. -/
def packGlyph (img : Image) (cw ch base : Nat) (c : Cell) : Except (ErrName × Word) FontPart :=
  match boxOf (setPixels img cw ch c) with
  | none => .ok { headers := [0#8, 0#8, 0#8, 0#8], rows := [] }
  | some b =>
    if b.violates then .error (.fontInvariant, fontInvariantInfo c.g b)
    else if Config.maxGlyphOffset < base then .error (.fontOffsetOverflow, BitVec.ofNat 32 (c.g % 65536))
    else .ok { headers := glyphHeader b base, rows := glyphRows img c b }

/-- The glyphs in order, the first violation ending the command (R154, R157, R158). -/
def packGlyphs (img : Image) (cw ch : Nat) : Nat → List Cell → Except (ErrName × Word) FontPart
  | _, [] => .ok { headers := [], rows := [] }
  | base, c :: cs =>
    match packGlyph img cw ch base c with
    | .error e => .error e
    | .ok p =>
      match packGlyphs img cw ch (base + p.rows.length) cs with
      | .error e => .error e
      | .ok ps => .ok { headers := p.headers ++ ps.headers, rows := p.rows ++ ps.rows }

/-- `cols` (R151). -/
def fontCols (s : State) : Nat := s.rectW.toNat / s.cellW.toNat

/-- `rows` (R151). -/
def fontRows (s : State) : Nat := s.rectH.toNat / s.cellH.toNat

/-- The cells of the grid, row-major (R151). -/
def fontCells (s : State) : List Cell :=
  (List.range (fontRows s)).flatMap fun i => (List.range (fontCols s)).map fun j =>
    { g := i * fontCols s + j, cellX := s.rectX.toNat + j * s.cellW.toNat, cellY := s.rectY.toNat + i * s.cellH.toNat }

/-- The checks of R150, the glyphs, and the window test of R158, in the order of R175. -/
def fontPlan (s : State) : Except (ErrName × Word) FontPart :=
  if s.img.valid = false then .error (.invalidImage, 0#32)
  else if s.cellW = 0#32 ∨ s.cellH = 0#32 then .error (.badOperand, 0#32)
  else if rectInside s (rectRegion s) = false then .error (.invalidRect, 0#32)
  else
    match packGlyphs s.img s.cellW.toNat s.cellH.toNat (Config.fontHdrBytes * (fontRows s * fontCols s)) (fontCells s) with
    | .error e => .error e
    | .ok p =>
      if overflowsOut s (p.headers.length + p.rows.length) then .error (.outputOverflow, 0#32) else .ok p

/-- `FONT` (R159). -/
def execFont (s : State) : Host.Outcome State Fault Refusal :=
  match fontPlan s with
  | .error e => .next (endWithError e.1 e.2 s)
  | .ok p => .next (finishArtifact (p.headers ++ p.rows) (fontRows s * fontCols s) p.rows.length s)

end Sys2Proof.Machine
end

