-- ==== Sys2Proof/Machine/Tile.lean ====
section
/-! DEFINITION. The tile encoder (R120 to R132): `TILE4`, `TILE8`. -/

namespace Sys2Proof.Machine

/-- Bits per pixel: the command's mnemonic (R64). -/
inductive Bpp where
  | four
  | eight
  deriving DecidableEq, Repr

/-- `recsize` (R120): bytes of a tile record. -/
def recSize : Bpp → Nat
  | .four => 32
  | .eight => 64

/-- `blktiles` (R120): tiles in a memory block. -/
def blkTiles : Bpp → Nat
  | .four => 512
  | .eight => 256

/-- What the checks of R121 to R124 establish before anything is written. -/
structure TilePlan where
  tilesX : Nat
  tilesY : Nat
  /-- `L0` (R124). -/
  len0   : Nat
  /-- `L` (R124). -/
  len    : Nat
  deriving DecidableEq, Repr

/-- `tileCount` (R123). -/
def TilePlan.tileCount (p : TilePlan) : Nat := p.tilesX * p.tilesY

/-- The tile grid and the artifact length (R123, R124), without the checks. -/
def tileLayout (d : Bpp) (f : TileFlags) (s : State) : TilePlan :=
  let tilesX := (s.img.width.toNat + 7) / 8
  let tilesY := (s.img.height.toNat + 7) / 8
  let len0 := tilesX * tilesY * recSize d
  let cap := s.tilearg.fitBlk.toNat * Config.blockBytes
  { tilesX := tilesX, tilesY := tilesY, len0 := len0
    len := if f.fitEn ∧ f.padFit ∧ len0 < cap then cap else len0 }

/-- The checks of R121 to R124, in the order of R175. -/
def tilePlan (d : Bpp) (f : TileFlags) (s : State) : Except ErrName TilePlan :=
  let p := tileLayout d f s
  if s.img.valid = false then .error .invalidImage
  else if imageEmpty s ∧ f.allowEmpty = false then .error .emptyImage
  else if (s.img.width.toNat % 8 ≠ 0 ∨ s.img.height.toNat % 8 ≠ 0) ∧ f.padDim = false then .error .unexpectedImageSize
  else if Config.maxTileCount < p.tileCount then .error .imageTooLarge
  else if f.fitEn ∧ s.tilearg.fitBlk.toNat * blkTiles d < p.tileCount then .error .tooManyTiles
  else if overflowsOut s p.len then .error .outputOverflow
  else .ok p

/-- The image positions in scan order (R125): tiles row-major, inside a tile rows top to bottom and columns left to right. -/
def tilePositions (tilesX tilesY : Nat) : List (Nat × Nat) :=
  (List.range tilesY).flatMap fun ty => (List.range tilesX).flatMap fun tx =>
    (List.range 8).flatMap fun py => (List.range 8).map fun px => (8 * tx + px, 8 * ty + py)

/-- `Index(x, y)` (R125): outside the image the pad index, without a `Classify` call. -/
def tileIndex (img : Image) (pad : Byte) (q : Quant) (pos : Nat × Nat) : Nat × Quant :=
  if pos.1 < img.width.toNat ∧ pos.2 < img.height.toNat then classify q (imgPixel img pos.1 pos.2) else (pad.toNat, q)

/-- The range check of R126, on every index at 4 bits per pixel and on none at 8 (R127). -/
def indexLimit : Bpp → Option Nat
  | .four => some Config.palMax4
  | .eight => none

/-- The whole scan of a tile command. -/
def tileScan (d : Bpp) (p : TilePlan) (s : State) : Scan :=
  scanPositions (tileIndex s.img s.tilearg.padIdx) (indexLimit d) (tilePositions p.tilesX p.tilesY) s.quant

/-- Two consecutive indices to a byte, the first in the low nibble (R71, R126). -/
def packNibbles : List Nat → List Byte
  | i0 :: i1 :: rest => BitVec.ofNat 8 (i0 ||| (i1 <<< 4)) :: packNibbles rest
  | _ => []

/-- The tile records of a sequence of indices (R71, R72). -/
def packIndices (d : Bpp) (is : List Nat) : List Byte :=
  match d with
  | .four => packNibbles is
  | .eight => is.map (BitVec.ofNat 8)

/-- The artifact: the records, then the filler bytes (R73, R128). -/
def tileBytes (d : Bpp) (p : TilePlan) (fill : Byte) (is : List Nat) : List Byte :=
  packIndices d is ++ List.replicate (p.len - p.len0) fill

/-- The steps the two tile commands share (R120 to R129, R132). When the range check fails, the `Classify` calls made keep their
effect and the window takes free values (R132, R180, U5; log 10). -/
def runTile (d : Bpp) (f : TileFlags) (s : State) : State :=
  match tilePlan d f s with
  | .error e => endWithError e 0#32 s
  | .ok p =>
    let r := tileScan d p s
    match r.bad with
    | some i =>
      endWithError .unexpectedPaletteIndex (BitVec.ofNat 32 i) (havocOut s.outbase.toNat p.len (s.withQuant r.quant))
    | none => finishArtifact (tileBytes d p s.tilearg.fill r.indices) p.tileCount 0 (s.withQuant r.quant)

/-- `TILE4` (R130). -/
def execTile4 (f : TileFlags) (s : State) : Host.Outcome State Fault Refusal := .next (runTile .four f s)

/-- `TILE8` (R131). -/
def execTile8 (f : TileFlags) (s : State) : Host.Outcome State Fault Refusal := .next (runTile .eight f s)

end Sys2Proof.Machine
end

