-- ==== Sys2Proof/Machine/Dispatch.lean ====
section
/-! DEFINITION. One arm per command: the transition that completes it (R9). -/

namespace Sys2Proof.Machine

def exec (i : Instr) (s : State) : Host.Outcome State Fault Refusal :=
  match i with
  | .qfix n => Sys2Proof.Machine.execQfix n s
  | .qinc n => Sys2Proof.Machine.execQinc n s
  | .qcls => Sys2Proof.Machine.execQcls s
  | .cvt15 => Sys2Proof.Machine.execCvt15 s
  | .palx => Sys2Proof.Machine.execPalx s
  | .tile4 f => Sys2Proof.Machine.execTile4 f s
  | .tile8 f => Sys2Proof.Machine.execTile8 f s
  | .bmpi f => Sys2Proof.Machine.execBmpi f s
  | .bmpc f => Sys2Proof.Machine.execBmpc f s
  | .font => Sys2Proof.Machine.execFont s

end Sys2Proof.Machine
end

