-- ==== Sys2Proof/Machine/HostPort.lean ====
section
/-! DEFINITION. The host's accesses and the platform's image (R11, R12, R24 to R26, R30 to R32, R43, R195). -/

namespace Sys2Proof.Machine

/-- What the host reads at a word offset of the register window when the block is not busy (R11, R24, R32). -/
def registerWord (s : State) (off : Nat) : Word :=
  if off = 0x00 then s.cmd
  else if off = 0x04 then statusWord s.status
  else if off = 0x08 then s.errinfo
  else if off = 0x0C then s.pixel
  else if off = 0x10 then s.result
  else if off = 0x14 then s.rectX
  else if off = 0x18 then s.rectY
  else if off = 0x1C then s.rectW
  else if off = 0x20 then s.rectH
  else if off = 0x24 then s.cellW
  else if off = 0x28 then s.cellH
  else if off = 0x2C then tileArgWord s.tilearg
  else if off = 0x30 then s.outbase
  else if off = 0x34 then s.outlen
  else if off = 0x38 then s.res0
  else if off = 0x3C then s.res1
  else if off = 0x40 then qstateWord s.qstate
  else if 0x400 ≤ off ∧ off < 0x800 then rgbWord (palGet s.pal ((off - 0x400) / 4))
  else 0#32

/-- The offset holds a register or a palette entry (R11, R32). -/
def offsetHeld (off : Nat) : Bool := off ≤ 0x40 || (0x400 ≤ off && off < 0x800)

/-- A host read of a register, a palette entry or an unassigned offset. While busy only `STATUS`, `CMD` and the offsets that hold
nothing have a value; any other read is unspecified (R30, U3; logs 9, 21). -/
def readRegister (off : Nat) (s : State) : State :=
  if s.status.busy ∧ off ≠ 0x00 ∧ off ≠ 0x04 ∧ offsetHeld off then
    { s with rdata := .word (Config.freeWord s.freeCtr), freeCtr := s.freeCtr + 1 }
  else { s with rdata := .word (registerWord s off) }

/-- A host write of a command word (R12): dropped when busy or fatal. -/
def writeCmd (w : Word) (s : State) : State :=
  if s.status.busy ∨ s.status.fatal then s else acceptCommand w s

/-- A host write of a word (R11, R12, R24, R30 to R32): dropped while busy; a read-only register or an unassigned offset ignores
it. -/
def writeRegister (off : Nat) (w : Word) (s : State) : State :=
  if s.status.busy then s
  else if off = 0x00 then writeCmd w s
  else if off = 0x0C then { s with pixel := w }
  else if off = 0x14 then { s with rectX := w }
  else if off = 0x18 then { s with rectY := w }
  else if off = 0x1C then { s with rectW := w }
  else if off = 0x20 then { s with rectH := w }
  else if off = 0x24 then { s with cellW := w }
  else if off = 0x28 then { s with cellH := w }
  else if off = 0x2C then { s with tilearg := tileArgOfWord w }
  else if off = 0x30 then { s with outbase := w }
  else if 0x400 ≤ off ∧ off < 0x800 then { s with pal := Memory.set s.pal ((off - 0x400) / 4) (rgbOfWord w) }
  else s

/-- An access the register window supports: aligned and 32 bits wide (R43). -/
def accessAligned (off n : Nat) : Bool := n = 4 && off % 4 = 0

/-- The event `hostWrite` (R43, R190; logs 4, 12). -/
def hostWriteEvent (off n : Nat) (w : Word) (s : State) : Host.Outcome State Fault Refusal :=
  if s.rst then .next s
  else if accessAligned off n then .next (writeRegister off w s)
  else .refused (.hostAccessUnsupported off n)

/-- The event `hostRead` (R43, R190; logs 4, 12). -/
def hostReadEvent (off n : Nat) (s : State) : Host.Outcome State Fault Refusal :=
  if s.rst then .next { s with rdata := .none }
  else if accessAligned off n then .next (readRegister off s)
  else .refused (.hostAccessUnsupported off n)

/-- The event `outRead` (R25, R30, R43): the bytes in address order, free values while busy (U3; logs 4, 9, 14). -/
def outReadEvent (addr n : Nat) (s : State) : Host.Outcome State Fault Refusal :=
  if s.rst then .next { s with rdata := .none }
  else if s.outSize < addr + n then .fault (.outAddressAbsent addr)
  else if s.status.busy then
    .next { s with rdata := .bytes (freeBytes s.freeCtr n), freeCtr := s.freeCtr + n }
  else .next { s with rdata := .bytes ((List.range n).map fun k => outGet s.out (addr + k)) }

/-- The event `outWrite` (R25): ignored (log 14 for an address `OUT` does not have). -/
def outWriteEvent (addr : Nat) (data : List Byte) (s : State) : Host.Outcome State Fault Refusal :=
  if s.rst then .next s
  else if s.outSize < addr + data.length then .fault (.outAddressAbsent addr)
  else .next s

/-- The event `present` (R26, R195): while busy the image may not change (U7; log 13). -/
def presentEvent (img : Image) (s : State) : Host.Outcome State Fault Refusal :=
  if s.status.busy ∧ img ≠ s.img then .refused .imageChangedWhileBusy
  else .next { s with img := img }

end Sys2Proof.Machine
end

