-- ==== Sys2Proof/WellFormed.lean ====
section
/-! DEFINITION. Which terms of `Instr` stand for a legal command word. -/

namespace Sys2Proof

/-- `PAD_FIT` is legal only with `FIT_EN` (R64, R66). -/
def TileFlags.wellFormed (f : TileFlags) : Bool := !f.padFit || f.fitEn

/-- The one check beyond field widths: every `IMM9` decodes (R62), every other flag is independent (R64, R65). -/
def Instr.wellFormed : Instr → Bool
  | .qfix _ => true
  | .qinc _ => true
  | .qcls => true
  | .cvt15 => true
  | .palx => true
  | .tile4 f => f.wellFormed
  | .tile8 f => f.wellFormed
  | .bmpi _ => true
  | .bmpc _ => true
  | .font => true

end Sys2Proof
end

