-- ==== Sys2Proof/Decode.lean ====
section
/-! DEFINITION. The command word (R60 to R66): decoder, encoder, and the decoder as the opcode table numbers bits. -/

namespace Sys2Proof

/-- `OPC`, bits 7:0 (R60). -/
def opcField (w : Word) : BitVec 8 := w.extractLsb' 0 8

/-- `FLG`, bits 15:8 (R60). -/
def flgField (w : Word) : BitVec 8 := w.extractLsb' 8 8

/-- `IMM9`, bits 24:16 (R60). -/
def immField (w : Word) : BitVec 9 := w.extractLsb' 16 9

/-- `RSV`, bits 31:25 (R60). -/
def rsvField (w : Word) : BitVec 7 := w.extractLsb' 25 7

/-- Why a word is illegal (R66). -/
inductive DecodeError where
  /-- `RSV` ≠ 0. -/
  | reservedBits
  /-- `OPC` is none of the eight opcodes. -/
  | unknownOpcode
  /-- A format N word with `FLG` ≠ 0, or a flagless format F word with `FLG` ≠ 0. -/
  | flagsNotZero
  /-- A format F word with `IMM9` ≠ 0. -/
  | immediateNotZero
  /-- `TILE4`/`TILE8` with `FLG[7:5]` ≠ 0, or `BMPI`/`BMPC` with `FLG[7:3]` ≠ 0. -/
  | reservedFlags
  /-- `PAD_FIT` without `FIT_EN`. -/
  | padFitWithoutFitEn
  deriving DecidableEq, Repr

/-- The four flags of R64 other than `BPP8`, from `FLG`. -/
def tileFlagsOf (flg : BitVec 8) : TileFlags :=
  { allowEmpty := flg.getLsbD 1, padDim := flg.getLsbD 2, fitEn := flg.getLsbD 3, padFit := flg.getLsbD 4 }

/-- The two flags of R65 other than `COLOR`, from `FLG`. -/
def bmpFlagsOf (flg : BitVec 8) : BmpFlags :=
  { allowEmpty := flg.getLsbD 1, useRect := flg.getLsbD 2 }

/-- Format N (R61, R62): the immediate is `IMM9`, `FLG` must be 0. -/
def decodeN (w : Word) (mk : BitVec 9 → Instr) : Except DecodeError Instr :=
  if flgField w ≠ 0 then .error .flagsNotZero else .ok (mk (immField w))

/-- Format F (R61) without flags: `IMM9` and `FLG` must be 0. -/
def decodeF (w : Word) (i : Instr) : Except DecodeError Instr :=
  if immField w ≠ 0 then .error .immediateNotZero
  else if flgField w ≠ 0 then .error .flagsNotZero
  else .ok i

/-- `OPC` = 0x08 (R63, R64, R66). -/
def decodeTile (w : Word) : Except DecodeError Instr :=
  let flg := flgField w
  if immField w ≠ 0 then .error .immediateNotZero
  else if flg.extractLsb' 5 3 ≠ 0 then .error .reservedFlags
  else if (tileFlagsOf flg).wellFormed = false then .error .padFitWithoutFitEn
  else if flg.getLsbD 0 then .ok (.tile8 (tileFlagsOf flg))
  else .ok (.tile4 (tileFlagsOf flg))

/-- `OPC` = 0x09 (R63, R65, R66). -/
def decodeBmp (w : Word) : Except DecodeError Instr :=
  let flg := flgField w
  if immField w ≠ 0 then .error .immediateNotZero
  else if flg.extractLsb' 3 5 ≠ 0 then .error .reservedFlags
  else if flg.getLsbD 0 then .ok (.bmpc (bmpFlagsOf flg))
  else .ok (.bmpi (bmpFlagsOf flg))

/-- The command a word stands for, or why it is illegal (R60 to R66). -/
def decode (w : Word) : Except DecodeError Instr :=
  if rsvField w ≠ 0 then .error .reservedBits
  else if opcField w = 0x01#8 then decodeN w .qfix
  else if opcField w = 0x02#8 then decodeN w .qinc
  else if opcField w = 0x03#8 then decodeF w .qcls
  else if opcField w = 0x04#8 then decodeF w .cvt15
  else if opcField w = 0x05#8 then decodeF w .palx
  else if opcField w = 0x08#8 then decodeTile w
  else if opcField w = 0x09#8 then decodeBmp w
  else if opcField w = 0x0A#8 then decodeF w .font
  else .error .unknownOpcode

/-- A word from its fields, `RSV` = 0 (R60). -/
def wordOfFields (imm : BitVec 9) (flg : BitVec 8) (opc : BitVec 8) : Word := 0#7 ++ imm ++ flg ++ opc

/-- `FLG` of `TILE4`/`TILE8` (R64). -/
def tileFlg (bpp8 : Bool) (f : TileFlags) : BitVec 8 :=
  0#3 ++ BitVec.ofBool f.padFit ++ BitVec.ofBool f.fitEn ++ BitVec.ofBool f.padDim ++ BitVec.ofBool f.allowEmpty
    ++ BitVec.ofBool bpp8

/-- `FLG` of `BMPI`/`BMPC` (R65). -/
def bmpFlg (color : Bool) (f : BmpFlags) : BitVec 8 :=
  0#5 ++ BitVec.ofBool f.useRect ++ BitVec.ofBool f.allowEmpty ++ BitVec.ofBool color

/-- The word of a command (R60 to R65). -/
def encode : Instr → Word
  | .qfix n => wordOfFields n 0#8 0x01#8
  | .qinc n => wordOfFields n 0#8 0x02#8
  | .qcls => wordOfFields 0#9 0#8 0x03#8
  | .cvt15 => wordOfFields 0#9 0#8 0x04#8
  | .palx => wordOfFields 0#9 0#8 0x05#8
  | .tile4 f => wordOfFields 0#9 (tileFlg false f) 0x08#8
  | .tile8 f => wordOfFields 0#9 (tileFlg true f) 0x08#8
  | .bmpi f => wordOfFields 0#9 (bmpFlg false f) 0x09#8
  | .bmpc f => wordOfFields 0#9 (bmpFlg true f) 0x09#8
  | .font => wordOfFields 0#9 0#8 0x0A#8

/-- The decoder on bits numbered as the opcode table numbers them: a command is one word (R60), so it is handed over as it
stands, the bits from `nbits` up being 0. A number that does not fit the word is no command. -/
def decodeTableWord (nbits w : Nat) : Option Instr :=
  let v := w % 2 ^ nbits
  if v < 2 ^ 32 then
    match decode (BitVec.ofNat 32 v) with
    | .ok i => some i
    | .error _ => none
  else none

end Sys2Proof
end

