-- ==== Sys2Proof/Machine/Reset.lean ====
section
/-! DEFINITION. The reset input (R29, R190, R191) and what a command it abandons leaves behind (U6). -/

namespace Sys2Proof.Machine

/-- What a command in progress might have been writing (R190): bytes of `OUT` from `OUTBASE`, and palette entries. -/
structure Footprint where
  outLen  : Nat
  palBase : Nat
  palLen  : Nat
  deriving DecidableEq, Repr

/-- Nothing. -/
def Footprint.empty : Footprint := { outLen := 0, palBase := 0, palLen := 0 }

/-- The length of a command's window of `OUT` (R42): none when its checks end it, and none for a command without an artifact. -/
def windowLength (i : Instr) (s : State) : Nat :=
  match i with
  | .qfix _ => 0
  | .qinc _ => 0
  | .qcls => 0
  | .cvt15 => 0
  | .palx => match palxPlan s with
    | .error _ => 0
    | .ok len => len
  | .tile4 f => match tilePlan .four f s with
    | .error _ => 0
    | .ok p => p.len
  | .tile8 f => match tilePlan .eight f s with
    | .error _ => 0
    | .ok p => p.len
  | .bmpi f => match bmpPlan 1 f s with
    | .error _ => 0
    | .ok r => r.rw * r.rh
  | .bmpc f => match bmpPlan 2 f s with
    | .error _ => 0
    | .ok r => r.rw * r.rh * 2
  | .font => match fontPlan s with
    | .error _ => 0
    | .ok p => p.headers.length + p.rows.length

/-- The first palette entry at risk: entry 0 for a `QINC` that constructs (R97), else entry 1 (U6). -/
def lowestEntryAtRisk (i : Instr) : Nat :=
  match i with
  | .qfix _ => 1
  | .qinc n => if n.toNat < 2 ∨ Config.palSize < n.toNat then 1 else 0
  | .qcls => 1
  | .cvt15 => 1
  | .palx => 1
  | .tile4 _ => 1
  | .tile8 _ => 1
  | .bmpi _ => 1
  | .bmpc _ => 1
  | .font => 1

/-- One past the last palette entry at risk: in incremental mode every entry above 0 is, whatever the command (U6). -/
def entriesAtRiskEnd (m : QMode) : Nat :=
  match m with
  | .nearestFixed => 1
  | .incrementalNaive => Config.palSize

/-- What a command might have been writing (R190, U6; log 11). -/
def footprint (i : Instr) (s : State) : Footprint :=
  { outLen := windowLength i s, palBase := lowestEntryAtRisk i
    palLen := entriesAtRiskEnd s.qstate.mode - lowestEntryAtRisk i }

/-- The footprint of the command in progress, if there is one. An illegal word writes neither memory (R66), but U6 frees the
palette entries in incremental mode without naming the command (log 11). -/
def inProgress (s : State) : Footprint :=
  if s.status.busy then
    match decode s.cmd with
    | .ok i => footprint i s
    | .error _ => { outLen := 0, palBase := 1, palLen := entriesAtRiskEnd s.qstate.mode - 1 }
  else Footprint.empty

/-- Abandon the command in progress (R190, U6; log 11). -/
def abandon (s : State) : State :=
  havocPal (inProgress s).palBase (inProgress s).palLen (havocOut s.outbase.toNat (inProgress s).outLen s)

/-- The registers take their reset values; `PAL` and `OUT` are not reset (R29, R191). -/
def resetRegisters (s : State) : State :=
  { s with
    cmd := 0#32, status := Status.reset, errinfo := 0#32, pixel := 0#32, result := 0#32
    rectX := 0#32, rectY := 0#32, rectW := 0#32, rectH := 0#32, cellW := 0#32, cellH := 0#32
    tilearg := TileArg.reset, outbase := 0#32, outlen := 0#32, res0 := 0#32, res1 := 0#32, qstate := QState.reset }

/-- The event `reset` (R190): asserting `RST` abandons a command in progress; when it is released the registers hold their reset
values. They hold them from assertion on, since nothing can write them in between (log 4). Releasing an input that is not asserted
changes nothing. -/
def resetEvent (level : Bool) (s : State) : State :=
  if level then { resetRegisters (abandon s) with rst := true }
  else if s.rst then { resetRegisters s with rst := false }
  else s

end Sys2Proof.Machine
end

