-- ==== Sys2Proof/Machine/Turn.lean ====
section
/-! DEFINITION. Whose turn it is: the block's turn and the events of the agenda (R9, R12, R66, R186, R199; log 1). -/

namespace Sys2Proof.Machine

/-- The block completes the command in `CMD`: a legal one by its meaning, an illegal one with `IllegalCommand(w)` (R9, R12, R66). -/
def runCommand (s : State) : Host.Outcome State Fault Refusal :=
  match decode s.cmd with
  | .ok i => exec i s
  | .error _ => .next (endWithError .illegalCommand s.cmd s)

/-- The block's turn: with a command in progress it completes it, else it waits and nothing changes (R186). -/
def takeBlockTurn (s : State) : Host.Outcome State Fault Refusal :=
  if s.status.busy ∧ s.rst = false then runCommand s else .next s

/-- One event of the agenda. -/
def takeEvent (e : Event) (s : State) : Host.Outcome State Fault Refusal :=
  match e with
  | .hostWrite off n v => hostWriteEvent off n v s
  | .hostRead off n => hostReadEvent off n s
  | .outRead addr n => outReadEvent addr n s
  | .outWrite addr data => outWriteEvent addr data s
  | .present img => presentEvent img s
  | .reset level => .next (resetEvent level s)
  | .blockTurn => takeBlockTurn s

/-- The next turn: the agenda's first event, or the block's turn when the agenda is empty (log 1). -/
def takeTurn (s : State) : Host.Outcome State Fault Refusal :=
  match s.agenda with
  | [] => takeBlockTurn s
  | e :: rest => takeEvent e { s with agenda := rest }

/-- The word that an instruction's bits stand for: the bits from `nbits` up are 0 (R60). -/
def tableWord (nbits w : Nat) : Word := BitVec.ofNat 32 (w % 2 ^ nbits)

/-- The state in which the word is the command in progress and the block has the next turn: the word is accepted (R12), no event
comes before the block's turn, and `RST` is released (log 1). -/
def placeCommand (w : Word) (s : State) : State := { acceptCommand w s with agenda := [], rst := false }

end Sys2Proof.Machine
end

