-- ==== Sys2Proof/Machine/Step.lean ====
section
/-! DEFINITION. One step of the machine, and where it takes its next command from. -/

namespace Sys2Proof.Machine

/-- One step: the next turn (log 1). -/
def step (s : State) : Host.Outcome State Fault Refusal := takeTurn s

/-- `s` with that word as the command in progress, so that the very next step runs it (R12; log 1). -/
def State.withFetchWord (s : State) (nbits w : Nat) : State := placeCommand (tableWord nbits w) s

end Sys2Proof.Machine
end

