-- ==== Sys2Proof/Safety.lean ====
section
/-! DEFINITION. The terms claims use: the block's three conditions (R182), failure (R173), the well-formedness of a state and
the invariant that the spec's rules keep. -/

namespace Sys2Proof.Machine

/-- Idle: ready for a command (R182). -/
abbrev State.idle (s : State) : Prop := s.status.busy = false ∧ s.status.fatal = false

/-- The spec asks a model to class FATAL as a fault: a state that is never a successful end (R173; log 15). -/
abbrev State.failed (s : State) : Prop := s.status.fatal = true

/-- A command ended well: not busy, done, no error (R171). -/
abbrev State.succeeded (s : State) : Prop :=
  s.status.busy = false ∧ s.status.done = true ∧ s.status.err = false ∧ s.status.fatal = false

/-- The invariants of `QSTATE` (R23): 1 ≤ QCOUNT ≤ QCAP ≤ 256, and equal in fixed mode; in incremental mode QCAP ≥ 2 (R94, R97). -/
abbrev QState.legal (q : QState) : Prop :=
  1 ≤ q.count.toNat ∧ q.count.toNat ≤ q.cap.toNat ∧ q.cap.toNat ≤ 256 ∧
    (q.mode = .nearestFixed → q.count = q.cap) ∧ (q.mode = .incrementalNaive → 2 ≤ q.cap.toNat)

/-- What R12, R13, R171 to R173 say the flags of `STATUS` can be together. -/
abbrev Status.legal (st : Status) : Prop :=
  (st.busy = true → st.done = false ∧ st.err = false) ∧
    (st.err = true → st.done = true) ∧
    (st.err = false → st.errcode = 0#4) ∧
    (st.err = true → 1 ≤ st.errcode.toNat ∧ st.errcode.toNat ≤ 12) ∧
    (st.fatal = true ↔ st.errcode = 8#4 ∨ st.errcode = 9#4)

/-- Both memories are canonical and hold only keys that exist (R24, R25). -/
abbrev State.memoriesLegal (s : State) : Prop :=
  Memory.wf s.pal ∧ (∀ x ∈ s.pal, x.1 < 256) ∧ Memory.wf s.out ∧ (∀ x ∈ s.out, x.1 < s.outSize)

/-- In incremental mode every entry in use has been written (R94, R97). -/
abbrev State.paletteWritten (s : State) : Prop :=
  s.qstate.mode = .incrementalNaive → ∀ i < s.qstate.count.toNat, (Memory.get? s.pal i).isSome = true

/-- The result registers: 0 while a command runs and after an error (R12, R14, R21, R22, R172, R173); `ERRINFO` is 0 without an
error (R14); `RESULT` holds an index or a 15-bit colour (R16). -/
abbrev State.resultsLegal (s : State) : Prop :=
  (s.status.busy = true ∨ s.status.err = true → s.outlen = 0#32 ∧ s.res0 = 0#32 ∧ s.res1 = 0#32) ∧
    (s.status.err = false → s.errinfo = 0#32) ∧ s.result.toNat < 2 ^ 15

/-- The invariant of the machine. -/
structure State.Inv (s : State) : Prop where
  qstate         : QState.legal s.qstate
  status         : Status.legal s.status
  memories       : State.memoriesLegal s
  paletteWritten : State.paletteWritten s
  results        : State.resultsLegal s
  reset          : s.rst = true → s.status.busy = false

/-! What claims compare a command's outcome with, written out from the rules rather than by the operations the meanings use. -/

/-- Completion without error, as R171 lists its writes. -/
def State.ended (s : State) : State := { s with status := { s.status with busy := false, done := true } }

/-- Completion by `raise`, as R172 lists its writes: `OUTLEN`, `RES0`, `RES1` and `RESULT` keep what they held. -/
def State.raised (s : State) (code : BitVec 4) (info : Word) : State :=
  { s with status := { s.status with busy := false, done := true, err := true, errcode := code }, errinfo := info }

/-- Completion by `fatal`, as R173 lists its writes. -/
def State.fatally (s : State) (code : BitVec 4) (info : Word) : State :=
  { s with status := { busy := false, done := true, err := true, fatal := true, errcode := code }, errinfo := info }

/-- Completion without error of a command that wrote an artifact of `len` bytes, leaving `OUT` as `out` (R21, R22, R171). -/
def State.wroteArtifact (s : State) (out : List Host.Cell) (len r0 r1 : Nat) : State :=
  State.ended { s with out := out, outlen := BitVec.ofNat 32 len, res0 := BitVec.ofNat 32 r0, res1 := BitVec.ofNat 32 r1 }

/-- `i` is the entry that R91 names for pixel `p` among entries 1 to n − 1: at least distance, and the first such. -/
def isNearest (pal : Memory Rgb) (p : Pixel) (n i : Nat) : Prop :=
  1 ≤ i ∧ i < n ∧ (∀ j, 1 ≤ j → j < n → dist2 p (palGet pal i) ≤ dist2 p (palGet pal j)) ∧
    ∀ j, 1 ≤ j → j < i → dist2 p (palGet pal i) < dist2 p (palGet pal j)

/-- A stream of `QCLS` commands, the host writing each pixel word to `PIXEL` before it: the results, and the last state. -/
def qclsStream : List Word → State → Option (List Word × State)
  | [], s => some ([], s)
  | w :: ws, s =>
    match exec .qcls { s with pixel := w } with
    | .next t => (qclsStream ws t).map fun r => (t.result :: r.1, r.2)
    | .fault _ => none
    | .refused _ => none

/-- Position number `k` of the tile scan, in closed form (R125): tile `k / 64` row-major, inside it row `k / 8 % 8`, column
`k % 8`. -/
def tilePos (tilesX k : Nat) : Nat × Nat := (8 * (k / 64 % tilesX) + k % 8, 8 * (k / 64 / tilesX) + k / 8 % 8)

/-- `tilesX` (R123). -/
def State.tilesX (s : State) : Nat := (s.img.width.toNat + 7) / 8

/-- `tilesY` (R123). -/
def State.tilesY (s : State) : Nat := (s.img.height.toNat + 7) / 8

/-- `Index(x, y)` of R125 for a quantizer, with the quantizer after the call. -/
def State.indexAt (s : State) (q : Quant) (pos : Nat × Nat) : Nat × Quant :=
  if pos.1 < s.img.width.toNat ∧ pos.2 < s.img.height.toNat then classify q (imgPixel s.img pos.1 pos.2)
  else (s.tilearg.padIdx.toNat, q)

/-- The quantizer after the first `k` positions of the tile scan (R125). -/
def State.tileQuant (s : State) : Nat → Quant
  | 0 => s.quant
  | k + 1 => (s.indexAt (State.tileQuant s k) (tilePos s.tilesX k)).2

/-- The index of position number `k` of the tile scan (R125). -/
def State.tileIdx (s : State) (k : Nat) : Nat := (s.indexAt (s.tileQuant k) (tilePos s.tilesX k)).1

/-- The artifact length of a tile command whose records have `rec` bytes (R124). -/
def State.tileLength (s : State) (f : TileFlags) (rec : Nat) : Nat :=
  if f.fitEn = true ∧ f.padFit = true ∧ s.tilesX * s.tilesY * rec < s.tilearg.fitBlk.toNat * 16384 then
    s.tilearg.fitBlk.toNat * 16384
  else s.tilesX * s.tilesY * rec

/-- The image passes the checks of R121 and R122. -/
def State.tileImageOk (s : State) (f : TileFlags) : Prop :=
  s.img.valid = true ∧ (s.img.width = 0#32 ∨ s.img.height = 0#32 → f.allowEmpty = true) ∧
    (s.img.width.toNat % 8 ≠ 0 ∨ s.img.height.toNat % 8 ≠ 0 → f.padDim = true)

/-- The tile count passes the limits of R123. -/
def State.tileCountOk (s : State) (f : TileFlags) (blk : Nat) : Prop :=
  s.tilesX * s.tilesY ≤ 65535 ∧ (f.fitEn = true → s.tilesX * s.tilesY ≤ s.tilearg.fitBlk.toNat * blk)

/-- The region of a bitmap command (R141). -/
def State.bmpRect (s : State) (f : BmpFlags) : Region :=
  if f.useRect = true then { rx := s.rectX.toNat, ry := s.rectY.toNat, rw := s.rectW.toNat, rh := s.rectH.toNat }
  else { rx := 0, ry := 0, rw := s.img.width.toNat, rh := s.img.height.toNat }

/-- The image and the region pass the checks of R140 and R141. -/
def State.bmpOk (s : State) (f : BmpFlags) : Prop :=
  s.img.valid = true ∧ (s.img.width = 0#32 ∨ s.img.height = 0#32 → f.allowEmpty = true) ∧
    (s.bmpRect f).rx + (s.bmpRect f).rw ≤ s.img.width.toNat ∧ (s.bmpRect f).ry + (s.bmpRect f).rh ≤ s.img.height.toNat

/-- Element number `k` of the region, row-major (R142). -/
def State.bmpPixel (s : State) (r : Region) (k : Nat) : Pixel := imgPixel s.img (r.rx + k % r.rw) (r.ry + k / r.rw)

/-- The quantizer after the first `k` elements of the region (R142). -/
def State.bmpQuant (s : State) (r : Region) : Nat → Quant
  | 0 => s.quant
  | k + 1 => (classify (State.bmpQuant s r k) (s.bmpPixel r k)).2

/-- `FONT`'s operands pass the checks of R150. -/
def State.fontOk (s : State) : Prop :=
  s.img.valid = true ∧ s.cellW ≠ 0#32 ∧ s.cellH ≠ 0#32 ∧
    s.rectX.toNat + s.rectW.toNat ≤ s.img.width.toNat ∧ s.rectY.toNat + s.rectH.toNat ≤ s.img.height.toNat

/-- `glyphCount` (R151). -/
def State.glyphCount (s : State) : Nat := s.rectW.toNat / s.cellW.toNat * (s.rectH.toNat / s.cellH.toNat)

/-- `S(u, v)` of glyph `g` (R151, R152): pixel (u, v) of its cell lies in the cell and is set. -/
def State.glyphSet (s : State) (g u v : Nat) : Bool :=
  let cols := s.rectW.toNat / s.cellW.toNat
  decide (u < s.cellW.toNat) && decide (v < s.cellH.toNat) &&
    pixelSet (imgPixel s.img (s.rectX.toNat + g % cols * s.cellW.toNat + u) (s.rectY.toNat + g / cols * s.cellH.toNat + v))

/-- Glyph `g` is blank (R153). -/
def State.glyphBlank (s : State) (g : Nat) : Prop := ∀ u v, s.glyphSet g u v = false

/-- `b` is the bounding box of glyph `g` (R153): it holds every set pixel, and each of its four sides holds one. -/
def State.glyphBox (s : State) (g : Nat) (b : Box) : Prop :=
  (∀ u v, s.glyphSet g u v = true → b.xMin ≤ u ∧ u ≤ b.xMax ∧ b.yMin ≤ v ∧ v ≤ b.yMax) ∧
    (∃ v, s.glyphSet g b.xMin v = true) ∧ (∃ v, s.glyphSet g b.xMax v = true) ∧
    (∃ u, s.glyphSet g u b.yMin = true) ∧ (∃ u, s.glyphSet g u b.yMax = true)

/-- The bytes of a row of a box (R155). -/
def boxRowSize (b : Box) : Nat := if 8 < b.w then 2 else 1

/-- `boxes` names, for each glyph, its box, or none where it is blank (R153). -/
def State.glyphBoxes (s : State) (boxes : Nat → Option Box) : Prop :=
  ∀ g < s.glyphCount, match boxes g with
    | none => s.glyphBlank g
    | some b => s.glyphBox g b

/-- The row bytes of the glyphs before `g` (R156). -/
def rowBytesBefore (boxes : Nat → Option Box) : Nat → Nat
  | 0 => 0
  | g + 1 => rowBytesBefore boxes g + match boxes g with
    | none => 0
    | some b => b.h * boxRowSize b

/-- `off(g)` (R156). -/
def State.glyphOffset (s : State) (boxes : Nat → Option Box) (g : Nat) : Nat := 4 * s.glyphCount + rowBytesBefore boxes g

/-- A glyph meets the format constraints of R154 and R157. -/
def State.glyphFits (s : State) (boxes : Nat → Option Box) (g : Nat) : Prop :=
  ∀ b, boxes g = some b → b.w ≤ 12 ∧ b.h ≤ 12 ∧ b.yMin ≤ 15 ∧ s.glyphOffset boxes g ≤ 65535

end Sys2Proof.Machine
end

