-- ==== Sys2Proof/Certificates/Slice0/Obligations.lean ====
section
/-! DEFINITION. The statements for the provers. Each docstring names the rules of spec/ it rests on. Statements hold for every
`OUT_SIZE` (State.outTop), every image and every value of the free fields. -/

open Sys2Proof Sys2Proof.Machine

/-! ## The command word -/

/-- No bit of an encoding is dropped (R60 to R65): every well-formed command decodes back from its word. -/
def Obligations.DecodeOfEncodeIsTheCommand : Prop :=
  ∀ i : Instr, i.wellFormed = true → decode (encode i) = .ok i

/-- Every legal word is the encoding of exactly the well-formed command it decodes to (R60 to R66). -/
def Obligations.EncodeOfDecodeIsTheWord : Prop :=
  ∀ (w : Word) (i : Instr), decode w = .ok i → i.wellFormed = true ∧ encode i = w

/-- The rows of the opcode table select exactly the commands (R63): mask and match as the table has them, with the constraint on
bits 12 and 11 for `TILE4` and `TILE8`. -/
def Obligations.TableRowsSelectCommands : Prop :=
  ∀ w : Word,
    ((∃ n, decode w = .ok (.qfix n)) ↔ w &&& 0xFE00FFFF#32 = 0x00000001#32) ∧
    ((∃ n, decode w = .ok (.qinc n)) ↔ w &&& 0xFE00FFFF#32 = 0x00000002#32) ∧
    (decode w = .ok .qcls ↔ w &&& 0xFFFFFFFF#32 = 0x00000003#32) ∧
    (decode w = .ok .cvt15 ↔ w &&& 0xFFFFFFFF#32 = 0x00000004#32) ∧
    (decode w = .ok .palx ↔ w &&& 0xFFFFFFFF#32 = 0x00000005#32) ∧
    ((∃ f, decode w = .ok (.tile4 f)) ↔
      w &&& 0xFFFFE1FF#32 = 0x00000008#32 ∧ ¬ (w.getLsbD 12 = true ∧ w.getLsbD 11 = false)) ∧
    ((∃ f, decode w = .ok (.tile8 f)) ↔
      w &&& 0xFFFFE1FF#32 = 0x00000108#32 ∧ ¬ (w.getLsbD 12 = true ∧ w.getLsbD 11 = false)) ∧
    ((∃ f, decode w = .ok (.bmpi f)) ↔ w &&& 0xFFFFF9FF#32 = 0x00000009#32) ∧
    ((∃ f, decode w = .ok (.bmpc f)) ↔ w &&& 0xFFFFF9FF#32 = 0x00000109#32) ∧
    (decode w = .ok .font ↔ w &&& 0xFFFFFFFF#32 = 0x0000000A#32)

/-- R66 whole: which words are illegal; an illegal word written to `CMD` of an idle block is accepted, and completes with
`IllegalCommand(w)`, changing nothing else than what acceptance cleared; the all-zero word is one; every word is one of the ten
commands or illegal. -/
def Obligations.IllegalWordsRaiseIllegalCommand : Prop :=
  (∀ w : Word,
    let opc := w.toNat % 256
    let flg := w.toNat / 256 % 256
    let imm := w.toNat / 65536 % 512
    let rsv := w.toNat / 33554432
    ((∃ e, decode w = .error e) ↔
      rsv ≠ 0 ∨ opc ∉ [1, 2, 3, 4, 5, 8, 9, 10] ∨ (opc ∈ [1, 2] ∧ flg ≠ 0) ∨ (opc ∈ [3, 4, 5, 8, 9, 10] ∧ imm ≠ 0) ∨
        (opc ∈ [3, 4, 5, 10] ∧ flg ≠ 0) ∨ (opc = 8 ∧ flg / 32 ≠ 0) ∨
        (opc = 8 ∧ flg / 16 % 2 = 1 ∧ flg / 8 % 2 = 0) ∨ (opc = 9 ∧ flg / 8 ≠ 0))) ∧
  (∀ (w : Word) (e : DecodeError) (s : State) (rest : List Event),
    decode w = .error e → s.idle → s.rst = false → s.agenda = .hostWrite 0 4 w :: .blockTurn :: rest →
    Sys2Proof.core.run 2 s = .next { s with
      cmd := w, agenda := rest, errinfo := w, outlen := 0#32, res0 := 0#32, res1 := 0#32
      status := { busy := false, done := true, err := true, fatal := false, errcode := 10#4 } }) ∧
  (∃ e, decode 0#32 = .error e) ∧
  ∀ w : Word, (∃ i, decode w = .ok i) ∨ ∃ e, decode w = .error e

/-- Sanity: the twelve example words of R67 decode to the commands and flags they are written for. -/
def Obligations.ExampleWordsDecode : Prop :=
  decode 0x00050001#32 = .ok (.qfix 5#9) ∧ decode 0x00100002#32 = .ok (.qinc 16#9) ∧
  decode 0x00000003#32 = .ok .qcls ∧ decode 0x00000004#32 = .ok .cvt15 ∧ decode 0x00000005#32 = .ok .palx ∧
  decode 0x00000008#32 = .ok (.tile4 { allowEmpty := false, padDim := false, fitEn := false, padFit := false }) ∧
  decode 0x00000108#32 = .ok (.tile8 { allowEmpty := false, padDim := false, fitEn := false, padFit := false }) ∧
  decode 0x00001C08#32 = .ok (.tile4 { allowEmpty := false, padDim := true, fitEn := true, padFit := true }) ∧
  decode 0x00000308#32 = .ok (.tile8 { allowEmpty := true, padDim := false, fitEn := false, padFit := false }) ∧
  decode 0x00000009#32 = .ok (.bmpi { allowEmpty := false, useRect := false }) ∧
  decode 0x00000509#32 = .ok (.bmpc { allowEmpty := false, useRect := true }) ∧ decode 0x0000000A#32 = .ok .font

/-! ## Steps, acceptance and host accesses -/

/-- A STEP RUNS THE DECODED COMMAND (R9, R12): when a command is in progress and the block has its turn, the step is the
command's meaning; around it the step only takes the turn off the agenda (the model's own field, log 1). -/
def Obligations.StepRunsTheDecodedCommand : Prop :=
  ∀ (s : State) (i : Instr), s.status.busy = true → s.rst = false → decode s.cmd = .ok i →
    (s.agenda = [] → step s = exec i s) ∧
    ∀ rest, s.agenda = .blockTurn :: rest → step s = exec i { s with agenda := rest }

/-- A command word placed by `withFetchWord` is run by the very next step, from any state (log 1: the model's choice). -/
def Obligations.PlacedWordRunsNext : Prop :=
  ∀ (s : State) (i : Instr), i.wellFormed = true →
    step (s.withFetchWord 32 (encode i).toNat) = exec i (s.withFetchWord 32 (encode i).toNat) ∧
    (s.withFetchWord 32 (encode i).toNat).cmd = encode i ∧
    (s.withFetchWord 32 (encode i).toNat).status =
      { busy := true, done := false, err := false, fatal := false, errcode := 0#4 }

/-- A block that is not busy waits on its turn and all state survives (R186). That a block held in reset waits too is the model's
deduction, not a sentence of the spec (log 4). -/
def Obligations.IdleBlockWaits : Prop :=
  ∀ s : State, s.status.busy = false ∨ s.rst = true →
    (s.agenda = [] → step s = .next s) ∧
    ∀ rest, s.agenda = .blockTurn :: rest → step s = .next { s with agenda := rest }

/-- Acceptance (R12): what a write to `CMD` of an idle block writes, and that it changes nothing else. -/
def Obligations.CmdWriteAcceptsWhenIdle : Prop :=
  ∀ (s : State) (w : Word) (rest : List Event), s.idle → s.rst = false → s.agenda = .hostWrite 0 4 w :: rest →
    step s = .next { s with
      agenda := rest, cmd := w, errinfo := 0#32, outlen := 0#32, res0 := 0#32, res1 := 0#32
      status := { busy := true, done := false, err := false, fatal := false, errcode := 0#4 } }

/-- Every host write is dropped while busy, and a `CMD` write is dropped when fatal (R12, R30, R173). While `RST` is asserted the
block accepts no host write at all, of any width, to either window (R190): that such a write is then dropped, and not refused, is the
model's deduction (log 4). -/
def Obligations.DroppedWritesChangeNothing : Prop :=
  (∀ (s : State) (off : Nat) (w : Word) (rest : List Event), s.rst = false → s.agenda = .hostWrite off 4 w :: rest →
    off % 4 = 0 → s.status.busy = true ∨ (s.status.fatal = true ∧ off = 0) →
    step s = .next { s with agenda := rest }) ∧
  ∀ (s : State) (rest : List Event), s.rst = true →
    (∃ off n w, s.agenda = .hostWrite off n w :: rest) ∨ (∃ addr bs, s.agenda = .outWrite addr bs :: rest) →
    step s = .next { s with agenda := rest }

/-- A word written to an operand register of a block that is not busy, even a fatal one, is read back whole, and a word written to
`TILEARG` or to a palette entry with bits 31:24 as 0 (R15 to R20, R24, R31, R69, R173). -/
def Obligations.OperandWritesReadBack : Prop :=
  ∀ (s : State) (off : Nat) (w : Word) (rest : List Event), s.status.busy = false → s.rst = false →
    s.agenda = .hostWrite off 4 w :: .hostRead off 4 :: rest →
    (off ∈ [0x0C, 0x14, 0x18, 0x1C, 0x20, 0x24, 0x28, 0x30] →
      ∃ t, Sys2Proof.core.run 2 s = .next t ∧ t.rdata = .word w) ∧
    (off = 0x2C ∨ (0x400 ≤ off ∧ off < 0x800 ∧ off % 4 = 0) →
      ∃ t, Sys2Proof.core.run 2 s = .next t ∧ t.rdata = .word (w &&& 0x00FFFFFF#32))

/-- A write to an operand register changes that register alone, a write to `TILEARG` its three fields; a write to a palette entry
changes that entry alone (R11, R19, R24, R31). -/
def Obligations.OperandWritesAreLocal : Prop :=
  ∀ (s : State) (w : Word) (rest : List Event), s.status.busy = false → s.rst = false →
    (s.agenda = .hostWrite 0x0C 4 w :: rest → step s = .next { s with agenda := rest, pixel := w }) ∧
    (s.agenda = .hostWrite 0x14 4 w :: rest → step s = .next { s with agenda := rest, rectX := w }) ∧
    (s.agenda = .hostWrite 0x18 4 w :: rest → step s = .next { s with agenda := rest, rectY := w }) ∧
    (s.agenda = .hostWrite 0x1C 4 w :: rest → step s = .next { s with agenda := rest, rectW := w }) ∧
    (s.agenda = .hostWrite 0x20 4 w :: rest → step s = .next { s with agenda := rest, rectH := w }) ∧
    (s.agenda = .hostWrite 0x24 4 w :: rest → step s = .next { s with agenda := rest, cellW := w }) ∧
    (s.agenda = .hostWrite 0x28 4 w :: rest → step s = .next { s with agenda := rest, cellH := w }) ∧
    (s.agenda = .hostWrite 0x2C 4 w :: rest → step s = .next { s with agenda := rest, tilearg := {
      padIdx := BitVec.ofNat 8 w.toNat, fill := BitVec.ofNat 8 (w.toNat / 256), fitBlk := BitVec.ofNat 8 (w.toNat / 65536) } }) ∧
    (s.agenda = .hostWrite 0x30 4 w :: rest → step s = .next { s with agenda := rest, outbase := w }) ∧
    (∀ i < 256, s.agenda = .hostWrite (0x400 + 4 * i) 4 w :: rest →
      ∃ pal, step s = .next { s with agenda := rest, pal := pal } ∧
        ∀ j, j ≠ i → palGet pal j = palGet s.pal j)

/-- The offsets that hold no register read 0 and ignore writes (R32). That they read 0 while the block is busy too is the model's
deduction: R32 makes no exception, R30 and U3 leave open what other reads return then (log 21). -/
def Obligations.UnassignedOffsetsReadZero : Prop :=
  ∀ (s : State) (off : Nat) (w : Word) (rest : List Event), s.rst = false → off % 4 = 0 →
    (0x44 ≤ off ∧ off ≤ 0x3FC) ∨ 0x800 ≤ off →
    (s.agenda = .hostRead off 4 :: rest → step s = .next { s with agenda := rest, rdata := .word 0#32 }) ∧
    (s.agenda = .hostWrite off 4 w :: rest → step s = .next { s with agenda := rest })

/-- A host write to a read-only register changes nothing (R11, R31). -/
def Obligations.ReadOnlyRegistersIgnoreWrites : Prop :=
  ∀ (s : State) (off : Nat) (w : Word) (rest : List Event), s.rst = false →
    off ∈ [0x04, 0x08, 0x10, 0x34, 0x38, 0x3C, 0x40] → s.agenda = .hostWrite off 4 w :: rest →
    step s = .next { s with agenda := rest }

/-- A read of `STATUS` or `CMD` returns the register, busy or not; a read of any other register, or of a palette entry, of a block
that is not busy returns that register or entry; reserved bits read 0 (R11, R13 to R24, R30, R31, R69). -/
def Obligations.RegisterReadsReturnTheRegister : Prop :=
  ∀ (s : State) (off : Nat) (rest : List Event), s.rst = false → s.agenda = .hostRead off 4 :: rest →
    let reads := fun w : Word => step s = .next { s with agenda := rest, rdata := .word w }
    (off = 0x00 → reads s.cmd) ∧
    (off = 0x04 → ∃ w, reads w ∧
      w.toNat = s.status.busy.toNat + 2 * s.status.done.toNat + 4 * s.status.err.toNat + 8 * s.status.fatal.toNat
        + 256 * s.status.errcode.toNat) ∧
    (s.status.busy = false →
      (off = 0x08 → reads s.errinfo) ∧ (off = 0x0C → reads s.pixel) ∧ (off = 0x10 → reads s.result) ∧
      (off = 0x14 → reads s.rectX) ∧ (off = 0x18 → reads s.rectY) ∧ (off = 0x1C → reads s.rectW) ∧
      (off = 0x20 → reads s.rectH) ∧ (off = 0x24 → reads s.cellW) ∧ (off = 0x28 → reads s.cellH) ∧
      (off = 0x30 → reads s.outbase) ∧ (off = 0x34 → reads s.outlen) ∧ (off = 0x38 → reads s.res0) ∧
      (off = 0x3C → reads s.res1) ∧
      (off = 0x2C → ∃ w, reads w ∧
        w.toNat = s.tilearg.padIdx.toNat + 256 * s.tilearg.fill.toNat + 65536 * s.tilearg.fitBlk.toNat) ∧
      (off = 0x40 → ∃ w, reads w ∧
        w.toNat = s.qstate.count.toNat + 65536 * s.qstate.cap.toNat
          + 2147483648 * (if s.qstate.mode = .incrementalNaive then 1 else 0)) ∧
      ∀ i < 256, off = 0x400 + 4 * i → ∃ w, reads w ∧
        w.toNat = (palGet s.pal i).r.toNat + 256 * (palGet s.pal i).g.toNat + 65536 * (palGet s.pal i).b.toNat)

/-- No host read, and no write to the `OUT` window, has a side effect on the block: whatever the block is doing, every register,
both memories and the inputs are as before (R25, R31, R45; `rdata` and `freeCtr` are the model's own, logs 5, 6). -/
def Obligations.ReadsHaveNoSideEffect : Prop :=
  ∀ (s t : State) (e : Event) (rest : List Event), s.agenda = e :: rest → step s = .next t →
    (∃ off n, e = .hostRead off n) ∨ (∃ addr n, e = .outRead addr n) ∨ (∃ addr bs, e = .outWrite addr bs) →
    { t with rdata := s.rdata, freeCtr := s.freeCtr } = { s with agenda := rest }

/-- A host read of `OUT` bytes of a block that is not busy returns them in address order (R25, R43); an address that `OUT` does not
have stops the model (log 14: the model's choice). -/
def Obligations.OutReadReturnsTheBytes : Prop :=
  ∀ (s : State) (addr n : Nat) (rest : List Event), s.status.busy = false → s.rst = false →
    s.agenda = .outRead addr n :: rest →
    (addr + n ≤ s.outSize →
      ∃ bs : List Byte, step s = .next { s with agenda := rest, rdata := .bytes bs } ∧ bs.length = n ∧
        ∀ k < n, bs[k]? = some (outGet s.out (addr + k))) ∧
    (s.outSize < addr + n → step s = .fault (.outAddressAbsent addr))

/-- A host access to the register window of another width or alignment is refused (R43, U4). -/
def Obligations.UnalignedAccessIsRefused : Prop :=
  ∀ (s : State) (off n : Nat) (w : Word) (rest : List Event), s.rst = false → n ≠ 4 ∨ off % 4 ≠ 0 →
    (s.agenda = .hostRead off n :: rest → step s = .refused (.hostAccessUnsupported off n)) ∧
    (s.agenda = .hostWrite off n w :: rest → step s = .refused (.hostAccessUnsupported off n))

/-- The platform may present any image while the block is not busy (R26), and a change while it is busy is refused (R195, U7). That
two values of `Image` which present the same pixels in different representations count as different images here is the model's choice:
it compares representations, which can only refuse more than U7 asks (logs 3, 13). -/
def Obligations.ImageChangesOnlyWhenNotBusy : Prop :=
  ∀ (s : State) (img : Image) (rest : List Event), s.agenda = .present img :: rest →
    (s.status.busy = false → step s = .next { s with agenda := rest, img := img }) ∧
    (s.status.busy = true → img ≠ s.img → step s = .refused .imageChangedWhileBusy)

/-! ## Reset, fatal state and invariant -/

/-- Reset values (R29): every register of the register map reads 0 after reset but `QSTATE`, which reads 0x00010001. -/
def Obligations.ResetRegistersHoldSpecValues : Prop :=
  (∀ off ∈ [0x00, 0x04, 0x08, 0x0C, 0x10, 0x14, 0x18, 0x1C, 0x20, 0x24, 0x28, 0x2C, 0x30, 0x34, 0x38, 0x3C],
    registerWord State.reset off = 0#32) ∧
  registerWord State.reset 0x40 = 0x00010001#32

/-- Releasing `RST` leaves the registers at the reset values of R29 and both memories as they are (R190, R191). -/
def Obligations.ResetReleaseGivesResetRegisters : Prop :=
  ∀ (s : State) (rest : List Event), s.rst = true → s.agenda = .reset false :: rest →
    step s = .next { State.reset with
      pal := s.pal, out := s.out, outTop := s.outTop, img := s.img, agenda := rest, rdata := s.rdata, freeCtr := s.freeCtr }

/-- Asserting `RST` while the block is idle or fatal changes neither memory, and all seventeen registers take their reset values
(R29, R190, R191, U6). R190 gives those values at the release of `RST`; that the registers hold them from assertion on is the
model's deduction (log 4). -/
def Obligations.ResetWhenNotBusyKeepsMemories : Prop :=
  ∀ (s : State) (rest : List Event), s.status.busy = false → s.agenda = .reset true :: rest →
    ∃ pal out, step s = .next { State.reset with
        pal := pal, out := out, outTop := s.outTop, img := s.img, rst := true, agenda := rest, rdata := s.rdata
        freeCtr := s.freeCtr } ∧
      (∀ i, palGet pal i = palGet s.pal i) ∧ ∀ a, outGet out a = outGet s.out a

/-- Asserting `RST` abandons a command in progress: outside that command's window of `OUT`, and the palette entries at risk (entry 0
for a legal `QINC`; entries 1 to 255 in incremental mode), both memories are as before; an illegal word in progress has no window,
and puts at risk only the entries that U6 frees in incremental mode (R190, U6; which entries are at risk is log 11). All seventeen
registers take their reset values, so the block is not busy and not fatal; R190 gives those values at the release of `RST`, and that
the registers hold them from assertion on is the model's deduction (log 4). -/
def Obligations.ResetAbandonsTheCommandInProgress : Prop :=
  ∀ (s : State) (rest : List Event), s.status.busy = true → s.agenda = .reset true :: rest →
    ∃ pal out ctr, step s = .next { State.reset with
        pal := pal, out := out, outTop := s.outTop, img := s.img, rst := true, agenda := rest, rdata := s.rdata
        freeCtr := ctr } ∧
      (∀ i, decode s.cmd = .ok i →
        (∀ a, a < s.outbase.toNat ∨ s.outbase.toNat + windowLength i { s with agenda := rest } ≤ a →
          outGet out a = outGet s.out a) ∧
        ∀ k, (∃ n, i = .qinc n ∧ 2 ≤ n.toNat ∧ n.toNat ≤ 256 ∧ k = 0) ∨
          (s.qstate.mode = .incrementalNaive ∧ 1 ≤ k ∧ k < 256) ∨ palGet pal k = palGet s.pal k) ∧
      ∀ e, decode s.cmd = .error e →
        (∀ a, outGet out a = outGet s.out a) ∧
        ∀ k, (s.qstate.mode = .incrementalNaive ∧ 1 ≤ k ∧ k < 256) ∨ palGet pal k = palGet s.pal k

/-- FATAL is sticky (R13, R173): unless `RST` is asserted, a step from a fatal state leaves the flags, the cause and `CMD`, and the
results, `QSTATE` and `OUT` too. -/
def Obligations.FatalIsLeftOnlyByReset : Prop :=
  ∀ s t : State, s.status.fatal = true → s.status.busy = false → s.rst = false →
    (∀ rest, s.agenda ≠ .reset true :: rest) → step s = .next t →
    t.status = s.status ∧ t.errinfo = s.errinfo ∧ t.cmd = s.cmd ∧ t.result = s.result ∧ t.outlen = s.outlen ∧
      t.res0 = s.res0 ∧ t.res1 = s.res1 ∧ t.qstate = s.qstate ∧ t.out = s.out ∧ t.rst = false

/-- The block's three conditions and how they change (R182): busy only by a write to `CMD` of an idle block; not busy again only by the
block's turn, or by reset; fatal only by the block's turn on a command in progress; not fatal again only by reset. -/
def Obligations.ConditionsChangeOnlyByTheirEvents : Prop :=
  ∀ s t : State, (s.status.busy = true → s.status.fatal = false) → step s = .next t →
    (s.status.busy = false → t.status.busy = true →
      s.status.fatal = false ∧ s.rst = false ∧ ∃ w rest, s.agenda = .hostWrite 0 4 w :: rest) ∧
    (s.status.busy = true → t.status.busy = false →
      (s.rst = false ∧ (s.agenda = [] ∨ ∃ rest, s.agenda = .blockTurn :: rest)) ∨ ∃ level rest, s.agenda = .reset level :: rest) ∧
    (s.status.fatal = false → t.status.fatal = true →
      s.status.busy = true ∧ s.rst = false ∧ (s.agenda = [] ∨ ∃ rest, s.agenda = .blockTurn :: rest)) ∧
    (s.status.fatal = true → t.status.fatal = false → ∃ level rest, s.agenda = .reset level :: rest)

/-- The invariant holds after reset (R29). -/
def Obligations.InvariantHoldsAtReset : Prop := State.reset.Inv

/-- THE INVARIANT THAT EVERY STEP KEEPS: the bounds of `QSTATE` (R23), the flag combinations of `STATUS` and its error codes (R12,
R13, R170 to R173), canonical memories with no entry outside `PAL` and `OUT` (R24, R25, R42, R51), every entry in use written in
incremental mode (R94, R97), the result registers cleared while busy and after an error (R12, R21, R22), `ERRINFO` 0 without an
error (R14), `RESULT` within its field (R16). -/
def Obligations.EveryStepKeepsTheInvariant : Prop :=
  ∀ s t : State, s.Inv → step s = .next t → t.Inv

/-! ## Every command -/

/-- Every command runs to completion from every state, with `BUSY` = 0 and `DONE` = 1 (R199, R171 to R173), and writes no operand
register, no input and no turn of the agenda (R11, "written by the block: no"; R26, R27). -/
def Obligations.EveryCommandCompletes : Prop :=
  ∀ (i : Instr) (s : State), ∃ t, exec i s = .next t ∧ t.status.busy = false ∧ t.status.done = true ∧
    t.cmd = s.cmd ∧ t.pixel = s.pixel ∧ t.rectX = s.rectX ∧ t.rectY = s.rectY ∧ t.rectW = s.rectW ∧ t.rectH = s.rectH ∧
    t.cellW = s.cellW ∧ t.cellH = s.cellH ∧ t.tilearg = s.tilearg ∧ t.outbase = s.outbase ∧ t.outTop = s.outTop ∧
    t.img = s.img ∧ t.rst = s.rst ∧ t.agenda = s.agenda ∧ t.rdata = s.rdata ∧
    (i ≠ .qcls → i ≠ .cvt15 → t.result = s.result)

/-- No command writes a byte of `OUT` outside its window, which starts at `OUTBASE` and whose length the command's checks
establish (R42, R51, R180). -/
def Obligations.CommandsWriteOnlyTheirWindow : Prop :=
  ∀ (i : Instr) (s t : State), exec i s = .next t →
    (∀ a, a < s.outbase.toNat ∨ s.outbase.toNat + windowLength i s ≤ a → outGet t.out a = outGet s.out a) ∧
    (windowLength i s ≠ 0 → s.outbase.toNat + windowLength i s ≤ s.outSize)

/-- After every error but `UnexpectedPaletteIndex` (code 7), both memories, `QSTATE` and the result registers are as before
(R172, R173, R177, R179, R180). -/
def Obligations.FailedCommandsLeaveMemoriesAlone : Prop :=
  ∀ (i : Instr) (s t : State), s.status.err = false → exec i s = .next t → t.status.err = true → t.status.errcode ≠ 7#4 →
    t.out = s.out ∧ t.pal = s.pal ∧ t.qstate = s.qstate ∧ t.result = s.result ∧ t.outlen = s.outlen ∧
      t.res0 = s.res0 ∧ t.res1 = s.res1

/-- In fixed mode no command but `QFIX` and `QINC` changes the quantizer or the palette (R33, R93). -/
def Obligations.FixedQuantizerIsStateless : Prop :=
  ∀ (i : Instr) (s t : State), s.qstate.mode = .nearestFixed → (∀ n, i ≠ .qfix n) → (∀ n, i ≠ .qinc n) →
    exec i s = .next t → t.qstate = s.qstate ∧ t.pal = s.pal

/-- Only a font violation makes a block fatal (R13, R170, R173): `FATAL` rises only from `FONT`, with code 8 or 9. -/
def Obligations.OnlyFontIsFatal : Prop :=
  ∀ (i : Instr) (s t : State), s.status.fatal = false → exec i s = .next t → t.status.fatal = true →
    i = .font ∧ (t.status.errcode = 8#4 ∨ t.status.errcode = 9#4)

/-! ## Color quantizer -/

/-- R90 whole: the squared Euclidean distance on integers, its range, and when it is 0. -/
def Obligations.DistanceIsSquaredEuclidean : Prop :=
  ∀ (p : Pixel) (e : Rgb),
    ((dist2 p e : Nat) : Int) = ((p.r.toNat : Int) - e.r.toNat) ^ 2 + ((p.g.toNat : Int) - e.g.toNat) ^ 2
      + ((p.b.toNat : Int) - e.b.toNat) ^ 2 ∧
    dist2 p e ≤ 195075 ∧ (dist2 p e = 0 ↔ p.r = e.r ∧ p.g = e.g ∧ p.b = e.b)

/-- R92 whole: alpha decides transparency in both modes, without reading or writing the palette; an opaque pixel is never index 0
while an entry above 0 is in use; opaque black goes to an entry above 0 that holds black, where there is one. -/
def Obligations.TransparencyIsByAlphaAlone : Prop :=
  ∀ (q : Quant) (p : Pixel),
    (p.a ≠ 255#8 → classify q p = (0, q)) ∧
    (p.a = 255#8 → 2 ≤ q.qstate.count.toNat →
      (classify q p).1 ≠ 0 ∧
      ((∃ j, 1 ≤ j ∧ j < q.qstate.count.toNat ∧ palGet q.pal j = { r := 0#8, g := 0#8, b := 0#8 }) →
        pixelRgb p = { r := 0#8, g := 0#8, b := 0#8 } →
        (classify q p).1 < q.qstate.count.toNat ∧ palGet q.pal (classify q p).1 = { r := 0#8, g := 0#8, b := 0#8 }))

/-- R93 whole: in fixed mode `Classify` gives 0 for a pixel that is not opaque, else the nearest entry of 1 to QCOUNT − 1, or 0 where
there is none; it writes nothing, and no entry outside 1 to QCOUNT − 1 has any influence. -/
def Obligations.FixedClassifyIsNearestAndStateless : Prop :=
  ∀ (q : Quant) (p : Pixel), q.qstate.mode = .nearestFixed →
    (classify q p).2 = q ∧
    (p.a ≠ 255#8 → (classify q p).1 = 0) ∧
    (p.a = 255#8 → 2 ≤ q.qstate.count.toNat → isNearest q.pal p q.qstate.count.toNat (classify q p).1) ∧
    (p.a = 255#8 → q.qstate.count.toNat ≤ 1 → (classify q p).1 = 0) ∧
    ∀ pal : Memory Rgb, (∀ i, 1 ≤ i → i < q.qstate.count.toNat → palGet pal i = palGet q.pal i) →
      (classify { q with pal := pal } p).1 = (classify q p).1

/-- `QFIX n` (R96): for 1 ≤ n ≤ 256 it writes `QSTATE` and completes; else `BadOperand(n)`. Nothing else changes. -/
def Obligations.QfixConstructsFixedQuantizer : Prop :=
  ∀ (n : BitVec 9) (s : State),
    (1 ≤ n.toNat → n.toNat ≤ 256 →
      exec (.qfix n) s = .next (State.ended { s with qstate := { mode := .nearestFixed, count := n, cap := n } })) ∧
    (n.toNat < 1 ∨ 256 < n.toNat → exec (.qfix n) s = .next (s.raised 11#4 (BitVec.ofNat 32 n.toNat)))

/-- `QINC n` (R97): for 2 ≤ n ≤ 256 it writes `QSTATE` and entry 0, which becomes (0, 0, 0), and no other entry; else
`BadOperand(n)`. Nothing else changes. -/
def Obligations.QincConstructsIncrementalQuantizer : Prop :=
  ∀ (n : BitVec 9) (s : State),
    (2 ≤ n.toNat → n.toNat ≤ 256 →
      ∃ pal, exec (.qinc n) s = .next (State.ended { s with
          pal := pal, qstate := { mode := .incrementalNaive, count := 1#9, cap := n } }) ∧
        palGet pal 0 = { r := 0#8, g := 0#8, b := 0#8 } ∧ ∀ i, i ≠ 0 → palGet pal i = palGet s.pal i) ∧
    (n.toNat < 2 ∨ 256 < n.toNat → exec (.qinc n) s = .next (s.raised 11#4 (BitVec.ofNat 32 n.toNat)))

/-- A pixel whose alpha is not 255 is index 0 in both modes, and nothing but `RESULT` and the completion flags is written
(R92, R98). -/
def Obligations.QclsTransparentPixelIsZero : Prop :=
  ∀ s : State, (pixelOfWord s.pixel).a ≠ 255#8 → exec .qcls s = .next (State.ended { s with result := 0#32 })

/-- `QCLS` of an opaque pixel in fixed mode with at least two entries (R91, R93, R98): the result is the least entry of 1 to
QCOUNT − 1 at least distance, and nothing else changes. -/
def Obligations.QclsFixedGivesNearestEntry : Prop :=
  ∀ s : State, (pixelOfWord s.pixel).a = 255#8 → s.qstate.mode = .nearestFixed → 2 ≤ s.qstate.count.toNat →
    ∃ i, isNearest s.pal (pixelOfWord s.pixel) s.qstate.count.toNat i ∧
      exec .qcls s = .next (State.ended { s with result := BitVec.ofNat 32 i })

/-- `QCLS` of an opaque pixel over a one-entry fixed palette gives 0 and reads no entry (R91, R98). -/
def Obligations.QclsOneEntryPaletteGivesZero : Prop :=
  ∀ s : State, (pixelOfWord s.pixel).a = 255#8 → s.qstate.mode = .nearestFixed → s.qstate.count.toNat = 1 →
    exec .qcls s = .next (State.ended { s with result := 0#32 })

/-- An opaque pixel whose colour a fixed palette holds at an entry of 1 to QCOUNT − 1 is classified to the least such entry; entry
0 is never a candidate (R92, R99). -/
def Obligations.QclsExactMatchGivesLeastEntry : Prop :=
  ∀ (s : State) (i : Nat), (pixelOfWord s.pixel).a = 255#8 → s.qstate.mode = .nearestFixed → 1 ≤ i →
    i < s.qstate.count.toNat → palGet s.pal i = pixelRgb (pixelOfWord s.pixel) →
    (∀ j, 1 ≤ j → j < i → palGet s.pal j ≠ pixelRgb (pixelOfWord s.pixel)) →
    exec .qcls s = .next (State.ended { s with result := BitVec.ofNat 32 i })

/-- `QCLS` of an opaque pixel in incremental mode (R94, R98). With fewer than two colours recorded the colour is recorded at the
next index without a search. Else, with i the nearest entry: an exact match or a full palette gives i and changes nothing; any other
colour is recorded at the next index. Recording writes that one entry and QCOUNT. -/
def Obligations.QclsIncrementalRecordsOrMatches : Prop :=
  ∀ s : State, (pixelOfWord s.pixel).a = 255#8 → s.qstate.mode = .incrementalNaive →
    let n := s.qstate.count.toNat
    let p := pixelOfWord s.pixel
    let records := ∃ pal, exec .qcls s = .next (State.ended { s with
        result := BitVec.ofNat 32 n, pal := pal, qstate := { s.qstate with count := BitVec.ofNat 9 (n + 1) } }) ∧
      palGet pal n = pixelRgb p ∧ ∀ j, j ≠ n → palGet pal j = palGet s.pal j
    (n < 2 → records) ∧
    (2 ≤ n → ∃ i, isNearest s.pal p n i ∧
      (dist2 p (palGet s.pal i) = 0 ∨ s.qstate.count = s.qstate.cap →
        exec .qcls s = .next (State.ended { s with result := BitVec.ofNat 32 i })) ∧
      (dist2 p (palGet s.pal i) ≠ 0 → s.qstate.count ≠ s.qstate.cap → records))

/-- R100: after `QINC n`, a stream of `QCLS` whose opaque pixels have K ≤ n − 1 distinct colours leaves QCOUNT = K + 1,
entries 1 to K holding the colours in order of first occurrence, each opaque pixel classified to its own colour's entry and each
transparent one to 0; the same stream again gives the same results and changes neither `QSTATE` nor `PAL`. -/
def Obligations.IncrementalStreamIsBijective : Prop :=
  ∀ (n : BitVec 9) (s s0 : State) (ws : List Word), 2 ≤ n.toNat → n.toNat ≤ 256 → exec (.qinc n) s = .next s0 →
    let colours := (((ws.map pixelOfWord).filter fun p => p.a = 255#8).map pixelRgb).reverse.dedup.reverse
    colours.length + 1 ≤ n.toNat →
    ∃ results t, qclsStream ws s0 = some (results, t) ∧
      t.qstate = { mode := .incrementalNaive, count := BitVec.ofNat 9 (colours.length + 1), cap := n } ∧
      (∀ k < colours.length, some (palGet t.pal (k + 1)) = colours[k]?) ∧
      results = ws.map (fun w =>
        if (pixelOfWord w).a = 255#8 then BitVec.ofNat 32 (colours.idxOf (pixelRgb (pixelOfWord w)) + 1) else 0#32) ∧
      ∃ t', qclsStream ws t = some (results, t') ∧ t'.qstate = t.qstate ∧ t'.pal = t.pal

/-! ## Depth converter and palette export -/

/-- `CVT15` (R110, R111): the result is each channel divided by 8, red in bits 4:0, green in bits 9:5, blue in bits 14:10; alpha,
the quantizer and the memories take no part. The placement of the channels is the spec's D14, from general knowledge (G2; log 17). -/
def Obligations.Cvt15TruncatesChannels : Prop :=
  ∀ s : State,
    let p := pixelOfWord s.pixel
    exec .cvt15 s = .next (State.ended { s with
      result := BitVec.ofNat 32 (p.r.toNat / 8 + 32 * (p.g.toNat / 8) + 1024 * (p.b.toNat / 8)) })

/-- `PALX` (R112): with room for 2·QCOUNT bytes it writes each entry of the palette in use as a 15-bit colour, low byte first, and
no other byte of `OUT`, with OUTLEN = 2·QCOUNT, RES0 = QCOUNT, RES1 = 0, and nothing else changes; without room it raises
`OutputOverflow`. (Channel placement: log 17.) -/
def Obligations.PalxExportsThePalette : Prop :=
  ∀ s : State,
    let n := s.qstate.count.toNat
    (s.outbase.toNat + 2 * n ≤ s.outSize →
      ∃ out, exec .palx s = .next (s.wroteArtifact out (2 * n) n 0) ∧
        (∀ i < n,
          (outGet out (s.outbase.toNat + 2 * i)).toNat + 256 * (outGet out (s.outbase.toNat + 2 * i + 1)).toNat =
            (palGet s.pal i).r.toNat / 8 + 32 * ((palGet s.pal i).g.toNat / 8) + 1024 * ((palGet s.pal i).b.toNat / 8)) ∧
        ∀ a, a < s.outbase.toNat ∨ s.outbase.toNat + 2 * n ≤ a → outGet out a = outGet s.out a) ∧
    (s.outSize < s.outbase.toNat + 2 * n → exec .palx s = .next (s.raised 12#4 0#32))

/-! ## Tile encoder -/

/-- The checks of `TILE4` and `TILE8` in the order of R175 (R121 to R124): which error each gives, before anything is read or
written (R132). -/
def Obligations.TileChecksInOrder : Prop :=
  ∀ (f : TileFlags) (s : State) (i : Instr) (rec blk : Nat),
    (i = .tile4 f ∧ rec = 32 ∧ blk = 512) ∨ (i = .tile8 f ∧ rec = 64 ∧ blk = 256) →
    let empty := s.img.width = 0#32 ∨ s.img.height = 0#32
    let odd := s.img.width.toNat % 8 ≠ 0 ∨ s.img.height.toNat % 8 ≠ 0
    let overLimit := f.fitEn = true ∧ s.tilearg.fitBlk.toNat * blk < s.tilesX * s.tilesY
    (s.img.valid = false → exec i s = .next (s.raised 1#4 0#32)) ∧
    (s.img.valid = true → empty → f.allowEmpty = false → exec i s = .next (s.raised 2#4 0#32)) ∧
    (s.img.valid = true → (empty → f.allowEmpty = true) → odd → f.padDim = false →
      exec i s = .next (s.raised 4#4 0#32)) ∧
    (s.tileImageOk f → 65535 < s.tilesX * s.tilesY → exec i s = .next (s.raised 5#4 0#32)) ∧
    (s.tileImageOk f → s.tilesX * s.tilesY ≤ 65535 → overLimit → exec i s = .next (s.raised 6#4 0#32)) ∧
    (s.tileImageOk f → s.tileCountOk f blk → s.outSize < s.outbase.toNat + s.tileLength f rec →
      exec i s = .next (s.raised 12#4 0#32))

/-- `TILE8` past its checks (R125, R127 to R129, R131): byte k of the artifact is the index of position k of the scan, filler
bytes follow up to L, no other byte of `OUT` changes, the quantizer is as the `Classify` calls in scan order left it, OUTLEN = L,
RES0 = tileCount, RES1 = 0. -/
def Obligations.Tile8WritesIndices : Prop :=
  ∀ (f : TileFlags) (s : State),
    s.tileImageOk f → s.tileCountOk f 256 → s.outbase.toNat + s.tileLength f 64 ≤ s.outSize →
    let count := s.tilesX * s.tilesY
    let q := s.tileQuant (64 * count)
    ∃ out, exec (.tile8 f) s = .next
        (State.wroteArtifact { s with qstate := q.qstate, pal := q.pal } out (s.tileLength f 64) count 0) ∧
      (∀ k < 64 * count, outGet out (s.outbase.toNat + k) = BitVec.ofNat 8 (s.tileIdx k)) ∧
      (∀ k, 64 * count ≤ k → k < s.tileLength f 64 → outGet out (s.outbase.toNat + k) = s.tilearg.fill) ∧
      ∀ a, a < s.outbase.toNat ∨ s.outbase.toNat + s.tileLength f 64 ≤ a → outGet out a = outGet s.out a

/-- `TILE4` past its checks (R125, R126, R128 to R130, R132, R174). If every index of the scan is below 16: byte k of the artifact
holds the indices of positions 2k and 2k + 1, the first in the low nibble; filler, frame and results as for `TILE8`. If position k is
the first whose index is not: `UnexpectedPaletteIndex` with that index, the quantizer as the calls up to that position left it, and
no byte outside the window changed (inside it the bytes are free, U5). -/
def Obligations.Tile4PacksNibblesOrRaises : Prop :=
  ∀ (f : TileFlags) (s : State),
    s.tileImageOk f → s.tileCountOk f 512 → s.outbase.toNat + s.tileLength f 32 ≤ s.outSize →
    let count := s.tilesX * s.tilesY
    let outside := fun out : List Host.Cell =>
      ∀ a, a < s.outbase.toNat ∨ s.outbase.toNat + s.tileLength f 32 ≤ a → outGet out a = outGet s.out a
    ((∀ k < 64 * count, s.tileIdx k < 16) →
      ∃ out, exec (.tile4 f) s = .next (State.wroteArtifact
          { s with qstate := (s.tileQuant (64 * count)).qstate, pal := (s.tileQuant (64 * count)).pal } out
          (s.tileLength f 32) count 0) ∧
        (∀ k < 32 * count,
          (outGet out (s.outbase.toNat + k)).toNat = s.tileIdx (2 * k) + 16 * s.tileIdx (2 * k + 1)) ∧
        (∀ k, 32 * count ≤ k → k < s.tileLength f 32 → outGet out (s.outbase.toNat + k) = s.tilearg.fill) ∧
        outside out) ∧
    ∀ k < 64 * count, 16 ≤ s.tileIdx k → (∀ j < k, s.tileIdx j < 16) →
      ∃ out ctr, exec (.tile4 f) s = .next (State.raised
          { s with qstate := (s.tileQuant (k + 1)).qstate, pal := (s.tileQuant (k + 1)).pal, out := out, freeCtr := ctr }
          7#4 (BitVec.ofNat 32 (s.tileIdx k))) ∧
        outside out

/-- `TILE4` completes for every image that passes its checks when the fixed palette has at most 16 entries and the pad index, where
one may be used, is below 16 (R126, R130, R192). -/
def Obligations.Tile4CompletesWithSmallPalette : Prop :=
  ∀ (f : TileFlags) (s : State),
    s.tileImageOk f → s.tileCountOk f 512 → s.outbase.toNat + s.tileLength f 32 ≤ s.outSize →
    s.qstate.mode = .nearestFixed → s.qstate.count.toNat ≤ 16 → (f.padDim = true → s.tilearg.padIdx.toNat < 16) →
    ∃ out, exec (.tile4 f) s = .next (s.wroteArtifact out (s.tileLength f 32) (s.tilesX * s.tilesY) 0)

/-- R79, R133: the tile binary decodes back to the indices the scan produced. Whenever `TILE4` or `TILE8` ends without
error, the inverse of R79 applied to tile record `ty · tilesX + tx`, row `py`, column `px` of `OUT` gives the index of image position
(8·tx + px, 8·ty + py) in scan order. -/
def Obligations.TileBinaryRoundTrips : Prop :=
  ∀ (f : TileFlags) (s t : State) (tx ty px py : Nat), s.status.err = false →
    tx < s.tilesX → ty < s.tilesY → px < 8 → py < 8 →
    let tile := ty * s.tilesX + tx
    let k := 64 * tile + 8 * py + px
    tilePos s.tilesX k = (8 * tx + px, 8 * ty + py) ∧
    (exec (.tile4 f) s = .next t → t.status.err = false →
      (outGet t.out (s.outbase.toNat + 32 * tile + 4 * py + px / 2)).toNat / (if px % 2 = 0 then 1 else 16) % 16 =
        s.tileIdx k) ∧
    (exec (.tile8 f) s = .next t → t.status.err = false → QState.legal s.qstate →
      (outGet t.out (s.outbase.toNat + 64 * tile + 8 * py + px)).toNat = s.tileIdx k)

/-- The tile commands do not read `RECTX` to `RECTH`, `CELLW`, `CELLH` or `PIXEL` (R120): whatever those hold, the outcome is the
same but for them. -/
def Obligations.TileIgnoresOtherOperands : Prop :=
  ∀ (f : TileFlags) (s t : State) (x y w h cw ch px : Word) (i : Instr), i = .tile4 f ∨ i = .tile8 f → exec i s = .next t →
    exec i { s with rectX := x, rectY := y, rectW := w, rectH := h, cellW := cw, cellH := ch, pixel := px } =
      .next { t with rectX := x, rectY := y, rectW := w, rectH := h, cellW := cw, cellH := ch, pixel := px }

/-! ## Bitmap encoder -/

/-- The checks of `BMPI` and `BMPC` in the order of R175 (R140 to R142): sums are exact, a zero-area rectangle inside the image is
legal, and without `USE_RECT` the rectangle registers are not read. -/
def Obligations.BitmapChecksInOrder : Prop :=
  ∀ (f : BmpFlags) (s : State) (i : Instr) (e : Nat), (i = .bmpi f ∧ e = 1) ∨ (i = .bmpc f ∧ e = 2) →
    let empty := s.img.width = 0#32 ∨ s.img.height = 0#32
    let r := s.bmpRect f
    (s.img.valid = false → exec i s = .next (s.raised 1#4 0#32)) ∧
    (s.img.valid = true → empty → f.allowEmpty = false → exec i s = .next (s.raised 2#4 0#32)) ∧
    (s.img.valid = true → (empty → f.allowEmpty = true) → f.useRect = true →
      s.img.width.toNat < r.rx + r.rw ∨ s.img.height.toNat < r.ry + r.rh → exec i s = .next (s.raised 3#4 0#32)) ∧
    (s.bmpOk f → s.outSize < s.outbase.toNat + r.rw * r.rh * e → exec i s = .next (s.raised 12#4 0#32))

/-- `BMPI` past its checks (R142, R143): byte k of the artifact is the index of element k of the region, row-major, the quantizer
as the `Classify` calls in that order left it, OUTLEN, RES0 and RES1 the length, width and height of the region, and nothing else
changes. A length of exactly 2^32, which OUTLEN cannot hold, is stored as 0: the model's deduction (log 16). -/
def Obligations.BmpiWritesIndices : Prop :=
  ∀ (f : BmpFlags) (s : State),
    let r := s.bmpRect f
    let len := r.rw * r.rh
    s.bmpOk f → s.outbase.toNat + len ≤ s.outSize →
    ∃ out, exec (.bmpi f) s = .next (State.wroteArtifact
        { s with qstate := (s.bmpQuant r len).qstate, pal := (s.bmpQuant r len).pal } out len r.rw r.rh) ∧
      (∀ k < len, outGet out (s.outbase.toNat + k) = BitVec.ofNat 8 (classify (s.bmpQuant r k) (s.bmpPixel r k)).1) ∧
      ∀ a, a < s.outbase.toNat ∨ s.outbase.toNat + len ≤ a → outGet out a = outGet s.out a

/-- `BMPC` past its checks (R110, R142, R144): element k of the artifact is the 15-bit colour of element k of the region, low byte
first, and nothing else changes. (Channel placement: log 17.) A length of exactly 2^32, which OUTLEN cannot hold, is stored as 0: the
model's deduction (log 16). -/
def Obligations.BmpcWritesColours : Prop :=
  ∀ (f : BmpFlags) (s : State),
    let r := s.bmpRect f
    let len := r.rw * r.rh
    s.bmpOk f → s.outbase.toNat + 2 * len ≤ s.outSize →
    ∃ out, exec (.bmpc f) s = .next (s.wroteArtifact out (2 * len) r.rw r.rh) ∧
      (∀ k < len,
        (outGet out (s.outbase.toNat + 2 * k)).toNat + 256 * (outGet out (s.outbase.toNat + 2 * k + 1)).toNat =
          (s.bmpPixel r k).r.toNat / 8 + 32 * ((s.bmpPixel r k).g.toNat / 8) + 1024 * ((s.bmpPixel r k).b.toNat / 8)) ∧
      ∀ a, a < s.outbase.toNat ∨ s.outbase.toNat + 2 * len ≤ a → outGet out a = outGet s.out a

/-- `BMPC` reads neither the quantizer nor `TILEARG`, `CELLW`, `CELLH`, `PIXEL` (R140, R144, R146). -/
def Obligations.BmpcIgnoresTheQuantizer : Prop :=
  ∀ (f : BmpFlags) (s t : State) (q : QState) (pal : Memory Rgb) (a : TileArg) (cw ch px : Word),
    exec (.bmpc f) s = .next t →
    exec (.bmpc f) { s with qstate := q, pal := pal, tilearg := a, cellW := cw, cellH := ch, pixel := px } =
      .next { t with qstate := q, pal := pal, tilearg := a, cellW := cw, cellH := ch, pixel := px }

/-! ## Font packer -/

/-- The validation of `FONT` in its order (R150, R175). -/
def Obligations.FontChecksInOrder : Prop :=
  ∀ s : State,
    let outside := s.img.width.toNat < s.rectX.toNat + s.rectW.toNat ∨ s.img.height.toNat < s.rectY.toNat + s.rectH.toNat
    (s.img.valid = false → exec .font s = .next (s.raised 1#4 0#32)) ∧
    (s.img.valid = true → s.cellW = 0#32 ∨ s.cellH = 0#32 → exec .font s = .next (s.raised 11#4 0#32)) ∧
    (s.img.valid = true → s.cellW ≠ 0#32 → s.cellH ≠ 0#32 → outside → exec .font s = .next (s.raised 3#4 0#32))

/-- The first glyph that breaks a format constraint ends `FONT` fatally (R154, R157, R173, R174): `FontInvariant` with the glyph
number and the three conditions, or, when the box is within its limits, `FontOffsetOverflow`. Nothing else is written. -/
def Obligations.FontViolationIsFatal : Prop :=
  ∀ (s : State) (boxes : Nat → Option Box) (g : Nat) (b : Box), s.fontOk → s.glyphBoxes boxes → g < s.glyphCount →
    (∀ g' < g, s.glyphFits boxes g') → boxes g = some b →
    (12 < b.w ∨ 12 < b.h ∨ 15 < b.yMin →
      exec .font s = .next (s.fatally 8#4 (BitVec.ofNat 32 (g % 65536 + 65536 * (if 12 < b.w then 1 else 0)
        + 131072 * (if 12 < b.h then 1 else 0) + 262144 * (if 15 < b.yMin then 1 else 0))))) ∧
    (b.w ≤ 12 → b.h ≤ 12 → b.yMin ≤ 15 → 65535 < s.glyphOffset boxes g →
      exec .font s = .next (s.fatally 9#4 (BitVec.ofNat 32 (g % 65536))))

/-- The font artifact (R76 to R78, R151 to R159). When every glyph fits its format, `FONT` writes, if `OUT` has room, the
header table and the row data and nothing else: a blank glyph's header is 0; a non-blank glyph's header holds width and height, the
vertical offset and the offset of its row data; row t of its data is the bits of row t of its box, in 1 or 2 bytes. Without room it
raises `OutputOverflow`. A length of exactly 2^32, which OUTLEN cannot hold, is stored as 0: the model's deduction (log 16). -/
def Obligations.FontWritesTheArtifact : Prop :=
  ∀ (s : State) (boxes : Nat → Option Box), s.fontOk → s.glyphBoxes boxes → (∀ g < s.glyphCount, s.glyphFits boxes g) →
    let base := s.outbase.toNat
    let len := 4 * s.glyphCount + rowBytesBefore boxes s.glyphCount
    (s.outSize < base + len → exec .font s = .next (s.raised 12#4 0#32)) ∧
    (base + len ≤ s.outSize →
      ∃ out, exec .font s = .next (s.wroteArtifact out len s.glyphCount (rowBytesBefore boxes s.glyphCount)) ∧
        (∀ a, a < base ∨ base + len ≤ a → outGet out a = outGet s.out a) ∧
        ∀ g < s.glyphCount, match boxes g with
          | none => ∀ j < 4, outGet out (base + 4 * g + j) = 0#8
          | some b =>
            (outGet out (base + 4 * g)).toNat = b.w + 16 * b.h ∧
            (outGet out (base + 4 * g + 1)).toNat = b.yMin ∧
            (outGet out (base + 4 * g + 2)).toNat + 256 * (outGet out (base + 4 * g + 3)).toNat = s.glyphOffset boxes g ∧
            ∀ t < b.h, ∀ c < 8 * boxRowSize b,
              (outGet out (base + s.glyphOffset boxes g + t * boxRowSize b + c / 8)).getLsbD (c % 8) =
                (decide (c < b.w) && s.glyphSet g (b.xMin + c) (b.yMin + t)))

/-- The boxes `FONT` packs (R151 to R153). The packer visits glyphCount cells in glyph order, cell g at column g mod cols and row
g div cols of the grid. The set pixels it finds in a cell are exactly the cell's pixels that are fully opaque and not black; it finds
no box exactly where the glyph is blank, and a box exactly where that box is the glyph's bounding box. So every glyph is blank or has
a box, and the premises on boxes of the statements about `FONT` can always be met. -/
def Obligations.EveryGlyphHasItsBox : Prop :=
  ∀ s : State, (fontCells s).length = s.glyphCount ∧
    ∀ (g : Nat) (c : Cell), (fontCells s)[g]? = some c →
      let cols := s.rectW.toNat / s.cellW.toNat
      let pixel := fun u v =>
        imgPixel s.img (s.rectX.toNat + g % cols * s.cellW.toNat + u) (s.rectY.toNat + g / cols * s.cellH.toNat + v)
      let found := setPixels s.img s.cellW.toNat s.cellH.toNat c
      c.g = g ∧
      (∀ u v, (u, v) ∈ found ↔ u < s.cellW.toNat ∧ v < s.cellH.toNat ∧ (pixel u v).a = 255#8 ∧
        ¬ ((pixel u v).r = 0#8 ∧ (pixel u v).g = 0#8 ∧ (pixel u v).b = 0#8)) ∧
      (boxOf found = none ↔ s.glyphBlank g) ∧
      ∀ b, boxOf found = some b ↔ s.glyphBox g b
end

