-- ==== Sys2Proof/Laws/Decode.lean ====
section
/-! SUPPORT. The fields of an encoded word, and a word from its fields (R60 to R65). -/

namespace Sys2Proof

@[simp] theorem opcField_wordOfFields (imm : BitVec 9) (flg opc : BitVec 8) :
    opcField (wordOfFields imm flg opc) = opc := by
  ext i hi
  simp only [opcField, wordOfFields, BitVec.getElem_extractLsb', BitVec.getLsbD_append]
  simp [hi]

@[simp] theorem flgField_wordOfFields (imm : BitVec 9) (flg opc : BitVec 8) :
    flgField (wordOfFields imm flg opc) = flg := by
  ext i hi
  simp only [flgField, wordOfFields, BitVec.getElem_extractLsb', BitVec.getLsbD_append]
  simp [hi]

@[simp] theorem immField_wordOfFields (imm : BitVec 9) (flg opc : BitVec 8) :
    immField (wordOfFields imm flg opc) = imm := by
  ext i hi
  simp only [immField, wordOfFields, BitVec.getElem_extractLsb', BitVec.getLsbD_append]
  simp [hi, show ¬ 16 + i < 8 by omega, show ¬ 16 + i - 8 < 8 by omega, show 16 + i - 8 - 8 = i by omega]

@[simp] theorem rsvField_wordOfFields (imm : BitVec 9) (flg opc : BitVec 8) :
    rsvField (wordOfFields imm flg opc) = 0#7 := by
  ext i hi
  simp only [rsvField, wordOfFields, BitVec.getElem_extractLsb', BitVec.getLsbD_append]
  simp [show ¬ 25 + i < 8 by omega, show ¬ 25 + i - 8 < 8 by omega, show ¬ 25 + i - 8 - 8 < 9 by omega]

/-- A word whose reserved bits are 0 is the word of its fields. -/
theorem wordOfFields_fields {w : Word} (h : rsvField w = 0#7) :
    wordOfFields (immField w) (flgField w) (opcField w) = w := by
  have hbit : ∀ i, i < 7 → w.getLsbD (25 + i) = false := fun i hi => by
    have := congrArg (fun x => x.getLsbD i) h
    simpa [rsvField, hi] using this
  ext i hi
  rw [BitVec.getElem_eq_testBit_toNat, BitVec.testBit_toNat, BitVec.getElem_eq_testBit_toNat, BitVec.testBit_toNat]
  simp only [wordOfFields, opcField, flgField, immField, BitVec.getLsbD_append, BitVec.getLsbD_extractLsb']
  by_cases h1 : i < 8
  · simp [h1]
  by_cases h2 : i - 8 < 8
  · simp [h1, h2, show 8 + (i - 8) = i by omega]
  by_cases h3 : i - 8 - 8 < 9
  · simp [h1, h2, h3, show 16 + (i - 8 - 8) = i by omega]
  · have := hbit (i - 25) (by omega)
    rw [show 25 + (i - 25) = i by omega] at this
    simp [h1, h2, h3, this]

@[simp] theorem tileFlagsOf_tileFlg (b : Bool) (f : TileFlags) : tileFlagsOf (tileFlg b f) = f := by
  obtain ⟨a, p, e, q⟩ := f
  cases b <;> cases a <;> cases p <;> cases e <;> cases q <;> rfl

@[simp] theorem bmpFlagsOf_bmpFlg (b : Bool) (f : BmpFlags) : bmpFlagsOf (bmpFlg b f) = f := by
  obtain ⟨a, u⟩ := f
  cases b <;> cases a <;> cases u <;> rfl

theorem tileFlg_tileFlagsOf : ∀ flg : BitVec 8, flg.extractLsb' 5 3 = 0#3 →
    tileFlg (flg.getLsbD 0) (tileFlagsOf flg) = flg := by decide

theorem bmpFlg_bmpFlagsOf : ∀ flg : BitVec 8, flg.extractLsb' 3 5 = 0#5 →
    bmpFlg (flg.getLsbD 0) (bmpFlagsOf flg) = flg := by decide

@[simp] theorem tileFlg_low (b : Bool) (f : TileFlags) : (tileFlg b f).getLsbD 0 = b := by
  obtain ⟨a, p, e, q⟩ := f
  cases b <;> cases a <;> cases p <;> cases e <;> cases q <;> rfl

@[simp] theorem tileFlg_reserved (b : Bool) (f : TileFlags) : (tileFlg b f).extractLsb' 5 3 = 0#3 := by
  obtain ⟨a, p, e, q⟩ := f
  cases b <;> cases a <;> cases p <;> cases e <;> cases q <;> rfl

@[simp] theorem bmpFlg_low (b : Bool) (f : BmpFlags) : (bmpFlg b f).getLsbD 0 = b := by
  obtain ⟨a, u⟩ := f
  cases b <;> cases a <;> cases u <;> rfl

@[simp] theorem bmpFlg_reserved (b : Bool) (f : BmpFlags) : (bmpFlg b f).extractLsb' 3 5 = 0#5 := by
  obtain ⟨a, u⟩ := f
  cases b <;> cases a <;> cases u <;> rfl

/-- Which words decode to which command, by fields (R60 to R66). -/
theorem decode_eq_ok_iff (w : Word) (i : Instr) : decode w = .ok i ↔ rsvField w = 0#7 ∧
   match i with
   | .qfix n => opcField w = 1#8 ∧ flgField w = 0#8 ∧ immField w = n
   | .qinc n => opcField w = 2#8 ∧ flgField w = 0#8 ∧ immField w = n
   | .qcls => opcField w = 3#8 ∧ flgField w = 0#8 ∧ immField w = 0#9
   | .cvt15 => opcField w = 4#8 ∧ flgField w = 0#8 ∧ immField w = 0#9
   | .palx => opcField w = 5#8 ∧ flgField w = 0#8 ∧ immField w = 0#9
   | .tile4 f => opcField w = 8#8 ∧ immField w = 0#9 ∧ (flgField w).extractLsb' 5 3 = 0#3 ∧ (tileFlagsOf (flgField w)).wellFormed = true ∧ (flgField w).getLsbD 0 = false ∧ tileFlagsOf (flgField w) = f
   | .tile8 f => opcField w = 8#8 ∧ immField w = 0#9 ∧ (flgField w).extractLsb' 5 3 = 0#3 ∧ (tileFlagsOf (flgField w)).wellFormed = true ∧ (flgField w).getLsbD 0 = true ∧ tileFlagsOf (flgField w) = f
   | .bmpi f => opcField w = 9#8 ∧ immField w = 0#9 ∧ (flgField w).extractLsb' 3 5 = 0#5 ∧ (flgField w).getLsbD 0 = false ∧ bmpFlagsOf (flgField w) = f
   | .bmpc f => opcField w = 9#8 ∧ immField w = 0#9 ∧ (flgField w).extractLsb' 3 5 = 0#5 ∧ (flgField w).getLsbD 0 = true ∧ bmpFlagsOf (flgField w) = f
   | .font => opcField w = 10#8 ∧ flgField w = 0#8 ∧ immField w = 0#9 := by
  unfold decode
  generalize opcField w = o
  by_cases hr : rsvField w = 0#7
  swap
  · simp [hr]
  rw [if_neg (by simpa using hr)]
  by_cases h1 : o = 1#8
  · subst h1; simp only [if_pos, decodeN]
    by_cases hf : flgField w = 0#8
    · cases i <;> simp [hf, hr]
    · cases i <;> simp [hf, hr]
  rw [if_neg h1]
  by_cases h2 : o = 2#8
  · subst h2; simp only [if_pos, decodeN]
    by_cases hf : flgField w = 0#8
    · cases i <;> simp [hf, hr]
    · cases i <;> simp [hf, hr]
  rw [if_neg h2]
  by_cases h3 : o = 3#8
  · subst h3; simp only [if_pos, decodeF]
    by_cases hf : flgField w = 0#8 <;> by_cases hi : immField w = 0#9 <;> cases i <;> simp [hf, hr, hi]
  rw [if_neg h3]
  by_cases h4 : o = 4#8
  · subst h4; simp only [if_pos, decodeF]
    by_cases hf : flgField w = 0#8 <;> by_cases hi : immField w = 0#9 <;> cases i <;> simp [hf, hr, hi]
  rw [if_neg h4]
  by_cases h5 : o = 5#8
  · subst h5; simp only [if_pos, decodeF]
    by_cases hf : flgField w = 0#8 <;> by_cases hi : immField w = 0#9 <;> cases i <;> simp [hf, hr, hi]
  rw [if_neg h5]
  by_cases h8 : o = 8#8
  · subst h8; simp only [if_pos, decodeTile]
    generalize (flgField w).getLsbD 0 = b0
    generalize (flgField w).extractLsb' 5 3 = x
    generalize tileFlagsOf (flgField w) = g
    by_cases hi : immField w = 0#9 <;> by_cases h53 : x = 0#3 <;> by_cases hw : g.wellFormed = true <;> cases b0 <;> cases i <;> simp [hr, hi, h53, hw]
  rw [if_neg h8]
  by_cases h9 : o = 9#8
  · subst h9; simp only [if_pos, decodeBmp]
    generalize (flgField w).getLsbD 0 = b0
    generalize (flgField w).extractLsb' 3 5 = x
    by_cases hi : immField w = 0#9 <;> by_cases h53 : x = 0#5 <;> cases b0 <;> cases i <;> simp [hr, hi, h53]
  rw [if_neg h9]
  by_cases h10 : o = 10#8
  · subst h10; simp only [if_pos, decodeF]
    by_cases hf : flgField w = 0#8 <;> by_cases hi : immField w = 0#9 <;> cases i <;> simp [hf, hr, hi]
  rw [if_neg h10]
  cases i <;> simp [h1, h2, h3, h4, h5, h8, h9, h10]

end Sys2Proof
end

