-- ==== Sys2Proof/Laws/State.lean ====
section
/-! SUPPORT. One lemma per field per named update of State, so that no proof unfolds a record update. -/

namespace Sys2Proof.Machine

/-! `completedStatus`. -/

@[simp] theorem completedStatus_busy (st : Status) : (completedStatus st).busy = false := rfl
@[simp] theorem completedStatus_done (st : Status) : (completedStatus st).done = true := rfl
@[simp] theorem completedStatus_err (st : Status) : (completedStatus st).err = st.err := rfl
@[simp] theorem completedStatus_fatal (st : Status) : (completedStatus st).fatal = st.fatal := rfl
@[simp] theorem completedStatus_errcode (st : Status) : (completedStatus st).errcode = st.errcode := rfl

/-! `raisedStatus`. -/

@[simp] theorem raisedStatus_busy (e : ErrName) (st : Status) : (raisedStatus e st).busy = false := rfl
@[simp] theorem raisedStatus_done (e : ErrName) (st : Status) : (raisedStatus e st).done = true := rfl
@[simp] theorem raisedStatus_err (e : ErrName) (st : Status) : (raisedStatus e st).err = true := rfl
@[simp] theorem raisedStatus_fatal (e : ErrName) (st : Status) : (raisedStatus e st).fatal = st.fatal := rfl
@[simp] theorem raisedStatus_errcode (e : ErrName) (st : Status) : (raisedStatus e st).errcode = errCode e := rfl

/-! `fatalStatus`. -/

@[simp] theorem fatalStatus_busy (e : ErrName) : (fatalStatus e).busy = false := rfl
@[simp] theorem fatalStatus_done (e : ErrName) : (fatalStatus e).done = true := rfl
@[simp] theorem fatalStatus_err (e : ErrName) : (fatalStatus e).err = true := rfl
@[simp] theorem fatalStatus_fatal (e : ErrName) : (fatalStatus e).fatal = true := rfl
@[simp] theorem fatalStatus_errcode (e : ErrName) : (fatalStatus e).errcode = errCode e := rfl

/-! `acceptedStatus`. -/

@[simp] theorem acceptedStatus_busy : (acceptedStatus).busy = true := rfl
@[simp] theorem acceptedStatus_done : (acceptedStatus).done = false := rfl
@[simp] theorem acceptedStatus_err : (acceptedStatus).err = false := rfl
@[simp] theorem acceptedStatus_fatal : (acceptedStatus).fatal = false := rfl
@[simp] theorem acceptedStatus_errcode : (acceptedStatus).errcode = 0#4 := rfl

/-! Acceptance of a command (R12). -/

@[simp] theorem acceptCommand_cmd (w : Word) (s : State) : (acceptCommand w s).cmd = w := rfl
@[simp] theorem acceptCommand_status (w : Word) (s : State) : (acceptCommand w s).status = acceptedStatus := rfl
@[simp] theorem acceptCommand_errinfo (w : Word) (s : State) : (acceptCommand w s).errinfo = 0#32 := rfl
@[simp] theorem acceptCommand_pixel (w : Word) (s : State) : (acceptCommand w s).pixel = s.pixel := rfl
@[simp] theorem acceptCommand_result (w : Word) (s : State) : (acceptCommand w s).result = s.result := rfl
@[simp] theorem acceptCommand_rectX (w : Word) (s : State) : (acceptCommand w s).rectX = s.rectX := rfl
@[simp] theorem acceptCommand_rectY (w : Word) (s : State) : (acceptCommand w s).rectY = s.rectY := rfl
@[simp] theorem acceptCommand_rectW (w : Word) (s : State) : (acceptCommand w s).rectW = s.rectW := rfl
@[simp] theorem acceptCommand_rectH (w : Word) (s : State) : (acceptCommand w s).rectH = s.rectH := rfl
@[simp] theorem acceptCommand_cellW (w : Word) (s : State) : (acceptCommand w s).cellW = s.cellW := rfl
@[simp] theorem acceptCommand_cellH (w : Word) (s : State) : (acceptCommand w s).cellH = s.cellH := rfl
@[simp] theorem acceptCommand_tilearg (w : Word) (s : State) : (acceptCommand w s).tilearg = s.tilearg := rfl
@[simp] theorem acceptCommand_outbase (w : Word) (s : State) : (acceptCommand w s).outbase = s.outbase := rfl
@[simp] theorem acceptCommand_outlen (w : Word) (s : State) : (acceptCommand w s).outlen = 0#32 := rfl
@[simp] theorem acceptCommand_res0 (w : Word) (s : State) : (acceptCommand w s).res0 = 0#32 := rfl
@[simp] theorem acceptCommand_res1 (w : Word) (s : State) : (acceptCommand w s).res1 = 0#32 := rfl
@[simp] theorem acceptCommand_qstate (w : Word) (s : State) : (acceptCommand w s).qstate = s.qstate := rfl
@[simp] theorem acceptCommand_pal (w : Word) (s : State) : (acceptCommand w s).pal = s.pal := rfl
@[simp] theorem acceptCommand_out (w : Word) (s : State) : (acceptCommand w s).out = s.out := rfl
@[simp] theorem acceptCommand_outTop (w : Word) (s : State) : (acceptCommand w s).outTop = s.outTop := rfl
@[simp] theorem acceptCommand_img (w : Word) (s : State) : (acceptCommand w s).img = s.img := rfl
@[simp] theorem acceptCommand_rst (w : Word) (s : State) : (acceptCommand w s).rst = s.rst := rfl
@[simp] theorem acceptCommand_agenda (w : Word) (s : State) : (acceptCommand w s).agenda = s.agenda := rfl
@[simp] theorem acceptCommand_rdata (w : Word) (s : State) : (acceptCommand w s).rdata = s.rdata := rfl
@[simp] theorem acceptCommand_freeCtr (w : Word) (s : State) : (acceptCommand w s).freeCtr = s.freeCtr := rfl
@[simp] theorem acceptCommand_outSize (w : Word) (s : State) : State.outSize (acceptCommand w s) = s.outSize := rfl

/-! Completion without error (R171). -/

@[simp] theorem complete_cmd (s : State) : (complete s).cmd = s.cmd := rfl
@[simp] theorem complete_status (s : State) : (complete s).status = completedStatus s.status := rfl
@[simp] theorem complete_errinfo (s : State) : (complete s).errinfo = s.errinfo := rfl
@[simp] theorem complete_pixel (s : State) : (complete s).pixel = s.pixel := rfl
@[simp] theorem complete_result (s : State) : (complete s).result = s.result := rfl
@[simp] theorem complete_rectX (s : State) : (complete s).rectX = s.rectX := rfl
@[simp] theorem complete_rectY (s : State) : (complete s).rectY = s.rectY := rfl
@[simp] theorem complete_rectW (s : State) : (complete s).rectW = s.rectW := rfl
@[simp] theorem complete_rectH (s : State) : (complete s).rectH = s.rectH := rfl
@[simp] theorem complete_cellW (s : State) : (complete s).cellW = s.cellW := rfl
@[simp] theorem complete_cellH (s : State) : (complete s).cellH = s.cellH := rfl
@[simp] theorem complete_tilearg (s : State) : (complete s).tilearg = s.tilearg := rfl
@[simp] theorem complete_outbase (s : State) : (complete s).outbase = s.outbase := rfl
@[simp] theorem complete_outlen (s : State) : (complete s).outlen = s.outlen := rfl
@[simp] theorem complete_res0 (s : State) : (complete s).res0 = s.res0 := rfl
@[simp] theorem complete_res1 (s : State) : (complete s).res1 = s.res1 := rfl
@[simp] theorem complete_qstate (s : State) : (complete s).qstate = s.qstate := rfl
@[simp] theorem complete_pal (s : State) : (complete s).pal = s.pal := rfl
@[simp] theorem complete_out (s : State) : (complete s).out = s.out := rfl
@[simp] theorem complete_outTop (s : State) : (complete s).outTop = s.outTop := rfl
@[simp] theorem complete_img (s : State) : (complete s).img = s.img := rfl
@[simp] theorem complete_rst (s : State) : (complete s).rst = s.rst := rfl
@[simp] theorem complete_agenda (s : State) : (complete s).agenda = s.agenda := rfl
@[simp] theorem complete_rdata (s : State) : (complete s).rdata = s.rdata := rfl
@[simp] theorem complete_freeCtr (s : State) : (complete s).freeCtr = s.freeCtr := rfl
@[simp] theorem complete_outSize (s : State) : State.outSize (complete s) = s.outSize := rfl

/-! Completion with an error (R172, R173). -/

@[simp] theorem endWithError_cmd (e : ErrName) (info : Word) (s : State) : (endWithError e info s).cmd = s.cmd := rfl
@[simp] theorem endWithError_status (e : ErrName) (info : Word) (s : State) :
    (endWithError e info s).status = if isFatalError e then fatalStatus e else raisedStatus e s.status := rfl
@[simp] theorem endWithError_errinfo (e : ErrName) (info : Word) (s : State) : (endWithError e info s).errinfo = info := rfl
@[simp] theorem endWithError_pixel (e : ErrName) (info : Word) (s : State) : (endWithError e info s).pixel = s.pixel := rfl
@[simp] theorem endWithError_result (e : ErrName) (info : Word) (s : State) : (endWithError e info s).result = s.result := rfl
@[simp] theorem endWithError_rectX (e : ErrName) (info : Word) (s : State) : (endWithError e info s).rectX = s.rectX := rfl
@[simp] theorem endWithError_rectY (e : ErrName) (info : Word) (s : State) : (endWithError e info s).rectY = s.rectY := rfl
@[simp] theorem endWithError_rectW (e : ErrName) (info : Word) (s : State) : (endWithError e info s).rectW = s.rectW := rfl
@[simp] theorem endWithError_rectH (e : ErrName) (info : Word) (s : State) : (endWithError e info s).rectH = s.rectH := rfl
@[simp] theorem endWithError_cellW (e : ErrName) (info : Word) (s : State) : (endWithError e info s).cellW = s.cellW := rfl
@[simp] theorem endWithError_cellH (e : ErrName) (info : Word) (s : State) : (endWithError e info s).cellH = s.cellH := rfl
@[simp] theorem endWithError_tilearg (e : ErrName) (info : Word) (s : State) : (endWithError e info s).tilearg = s.tilearg := rfl
@[simp] theorem endWithError_outbase (e : ErrName) (info : Word) (s : State) : (endWithError e info s).outbase = s.outbase := rfl
@[simp] theorem endWithError_outlen (e : ErrName) (info : Word) (s : State) : (endWithError e info s).outlen = s.outlen := rfl
@[simp] theorem endWithError_res0 (e : ErrName) (info : Word) (s : State) : (endWithError e info s).res0 = s.res0 := rfl
@[simp] theorem endWithError_res1 (e : ErrName) (info : Word) (s : State) : (endWithError e info s).res1 = s.res1 := rfl
@[simp] theorem endWithError_qstate (e : ErrName) (info : Word) (s : State) : (endWithError e info s).qstate = s.qstate := rfl
@[simp] theorem endWithError_pal (e : ErrName) (info : Word) (s : State) : (endWithError e info s).pal = s.pal := rfl
@[simp] theorem endWithError_out (e : ErrName) (info : Word) (s : State) : (endWithError e info s).out = s.out := rfl
@[simp] theorem endWithError_outTop (e : ErrName) (info : Word) (s : State) : (endWithError e info s).outTop = s.outTop := rfl
@[simp] theorem endWithError_img (e : ErrName) (info : Word) (s : State) : (endWithError e info s).img = s.img := rfl
@[simp] theorem endWithError_rst (e : ErrName) (info : Word) (s : State) : (endWithError e info s).rst = s.rst := rfl
@[simp] theorem endWithError_agenda (e : ErrName) (info : Word) (s : State) : (endWithError e info s).agenda = s.agenda := rfl
@[simp] theorem endWithError_rdata (e : ErrName) (info : Word) (s : State) : (endWithError e info s).rdata = s.rdata := rfl
@[simp] theorem endWithError_freeCtr (e : ErrName) (info : Word) (s : State) : (endWithError e info s).freeCtr = s.freeCtr := rfl
@[simp] theorem endWithError_outSize (e : ErrName) (info : Word) (s : State) : State.outSize (endWithError e info s) = s.outSize := rfl

/-! Completion with an artifact (R42, R171). -/

@[simp] theorem finishArtifact_cmd (bs : List Byte) (r0 r1 : Nat) (s : State) : (finishArtifact bs r0 r1 s).cmd = s.cmd := rfl
@[simp] theorem finishArtifact_status (bs : List Byte) (r0 r1 : Nat) (s : State) :
    (finishArtifact bs r0 r1 s).status = completedStatus s.status := rfl
@[simp] theorem finishArtifact_errinfo (bs : List Byte) (r0 r1 : Nat) (s : State) :
    (finishArtifact bs r0 r1 s).errinfo = s.errinfo := rfl
@[simp] theorem finishArtifact_pixel (bs : List Byte) (r0 r1 : Nat) (s : State) :
    (finishArtifact bs r0 r1 s).pixel = s.pixel := rfl
@[simp] theorem finishArtifact_result (bs : List Byte) (r0 r1 : Nat) (s : State) :
    (finishArtifact bs r0 r1 s).result = s.result := rfl
@[simp] theorem finishArtifact_rectX (bs : List Byte) (r0 r1 : Nat) (s : State) :
    (finishArtifact bs r0 r1 s).rectX = s.rectX := rfl
@[simp] theorem finishArtifact_rectY (bs : List Byte) (r0 r1 : Nat) (s : State) :
    (finishArtifact bs r0 r1 s).rectY = s.rectY := rfl
@[simp] theorem finishArtifact_rectW (bs : List Byte) (r0 r1 : Nat) (s : State) :
    (finishArtifact bs r0 r1 s).rectW = s.rectW := rfl
@[simp] theorem finishArtifact_rectH (bs : List Byte) (r0 r1 : Nat) (s : State) :
    (finishArtifact bs r0 r1 s).rectH = s.rectH := rfl
@[simp] theorem finishArtifact_cellW (bs : List Byte) (r0 r1 : Nat) (s : State) :
    (finishArtifact bs r0 r1 s).cellW = s.cellW := rfl
@[simp] theorem finishArtifact_cellH (bs : List Byte) (r0 r1 : Nat) (s : State) :
    (finishArtifact bs r0 r1 s).cellH = s.cellH := rfl
@[simp] theorem finishArtifact_tilearg (bs : List Byte) (r0 r1 : Nat) (s : State) :
    (finishArtifact bs r0 r1 s).tilearg = s.tilearg := rfl
@[simp] theorem finishArtifact_outbase (bs : List Byte) (r0 r1 : Nat) (s : State) :
    (finishArtifact bs r0 r1 s).outbase = s.outbase := rfl
@[simp] theorem finishArtifact_outlen (bs : List Byte) (r0 r1 : Nat) (s : State) :
    (finishArtifact bs r0 r1 s).outlen = BitVec.ofNat 32 bs.length := rfl
@[simp] theorem finishArtifact_res0 (bs : List Byte) (r0 r1 : Nat) (s : State) :
    (finishArtifact bs r0 r1 s).res0 = BitVec.ofNat 32 r0 := rfl
@[simp] theorem finishArtifact_res1 (bs : List Byte) (r0 r1 : Nat) (s : State) :
    (finishArtifact bs r0 r1 s).res1 = BitVec.ofNat 32 r1 := rfl
@[simp] theorem finishArtifact_qstate (bs : List Byte) (r0 r1 : Nat) (s : State) :
    (finishArtifact bs r0 r1 s).qstate = s.qstate := rfl
@[simp] theorem finishArtifact_pal (bs : List Byte) (r0 r1 : Nat) (s : State) : (finishArtifact bs r0 r1 s).pal = s.pal := rfl
@[simp] theorem finishArtifact_out (bs : List Byte) (r0 r1 : Nat) (s : State) :
    (finishArtifact bs r0 r1 s).out = Memory.setBlock s.out s.outbase.toNat bs := rfl
@[simp] theorem finishArtifact_outTop (bs : List Byte) (r0 r1 : Nat) (s : State) :
    (finishArtifact bs r0 r1 s).outTop = s.outTop := rfl
@[simp] theorem finishArtifact_img (bs : List Byte) (r0 r1 : Nat) (s : State) : (finishArtifact bs r0 r1 s).img = s.img := rfl
@[simp] theorem finishArtifact_rst (bs : List Byte) (r0 r1 : Nat) (s : State) : (finishArtifact bs r0 r1 s).rst = s.rst := rfl
@[simp] theorem finishArtifact_agenda (bs : List Byte) (r0 r1 : Nat) (s : State) :
    (finishArtifact bs r0 r1 s).agenda = s.agenda := rfl
@[simp] theorem finishArtifact_rdata (bs : List Byte) (r0 r1 : Nat) (s : State) :
    (finishArtifact bs r0 r1 s).rdata = s.rdata := rfl
@[simp] theorem finishArtifact_freeCtr (bs : List Byte) (r0 r1 : Nat) (s : State) :
    (finishArtifact bs r0 r1 s).freeCtr = s.freeCtr := rfl
@[simp] theorem finishArtifact_outSize (bs : List Byte) (r0 r1 : Nat) (s : State) : State.outSize (finishArtifact bs r0 r1 s) = s.outSize := rfl

/-! Free values in a window of `OUT` (U5, U6). -/

@[simp] theorem havocOut_cmd (base len : Nat) (s : State) : (havocOut base len s).cmd = s.cmd := rfl
@[simp] theorem havocOut_status (base len : Nat) (s : State) : (havocOut base len s).status = s.status := rfl
@[simp] theorem havocOut_errinfo (base len : Nat) (s : State) : (havocOut base len s).errinfo = s.errinfo := rfl
@[simp] theorem havocOut_pixel (base len : Nat) (s : State) : (havocOut base len s).pixel = s.pixel := rfl
@[simp] theorem havocOut_result (base len : Nat) (s : State) : (havocOut base len s).result = s.result := rfl
@[simp] theorem havocOut_rectX (base len : Nat) (s : State) : (havocOut base len s).rectX = s.rectX := rfl
@[simp] theorem havocOut_rectY (base len : Nat) (s : State) : (havocOut base len s).rectY = s.rectY := rfl
@[simp] theorem havocOut_rectW (base len : Nat) (s : State) : (havocOut base len s).rectW = s.rectW := rfl
@[simp] theorem havocOut_rectH (base len : Nat) (s : State) : (havocOut base len s).rectH = s.rectH := rfl
@[simp] theorem havocOut_cellW (base len : Nat) (s : State) : (havocOut base len s).cellW = s.cellW := rfl
@[simp] theorem havocOut_cellH (base len : Nat) (s : State) : (havocOut base len s).cellH = s.cellH := rfl
@[simp] theorem havocOut_tilearg (base len : Nat) (s : State) : (havocOut base len s).tilearg = s.tilearg := rfl
@[simp] theorem havocOut_outbase (base len : Nat) (s : State) : (havocOut base len s).outbase = s.outbase := rfl
@[simp] theorem havocOut_outlen (base len : Nat) (s : State) : (havocOut base len s).outlen = s.outlen := rfl
@[simp] theorem havocOut_res0 (base len : Nat) (s : State) : (havocOut base len s).res0 = s.res0 := rfl
@[simp] theorem havocOut_res1 (base len : Nat) (s : State) : (havocOut base len s).res1 = s.res1 := rfl
@[simp] theorem havocOut_qstate (base len : Nat) (s : State) : (havocOut base len s).qstate = s.qstate := rfl
@[simp] theorem havocOut_pal (base len : Nat) (s : State) : (havocOut base len s).pal = s.pal := rfl
@[simp] theorem havocOut_out (base len : Nat) (s : State) :
    (havocOut base len s).out = Memory.setBlock s.out base (freeBytes s.freeCtr len) := rfl
@[simp] theorem havocOut_outTop (base len : Nat) (s : State) : (havocOut base len s).outTop = s.outTop := rfl
@[simp] theorem havocOut_img (base len : Nat) (s : State) : (havocOut base len s).img = s.img := rfl
@[simp] theorem havocOut_rst (base len : Nat) (s : State) : (havocOut base len s).rst = s.rst := rfl
@[simp] theorem havocOut_agenda (base len : Nat) (s : State) : (havocOut base len s).agenda = s.agenda := rfl
@[simp] theorem havocOut_rdata (base len : Nat) (s : State) : (havocOut base len s).rdata = s.rdata := rfl
@[simp] theorem havocOut_freeCtr (base len : Nat) (s : State) : (havocOut base len s).freeCtr = s.freeCtr + len := rfl
@[simp] theorem havocOut_outSize (base len : Nat) (s : State) : State.outSize (havocOut base len s) = s.outSize := rfl

/-! Free values in `PAL` (U6). -/

@[simp] theorem havocPal_cmd (base n : Nat) (s : State) : (havocPal base n s).cmd = s.cmd := rfl
@[simp] theorem havocPal_status (base n : Nat) (s : State) : (havocPal base n s).status = s.status := rfl
@[simp] theorem havocPal_errinfo (base n : Nat) (s : State) : (havocPal base n s).errinfo = s.errinfo := rfl
@[simp] theorem havocPal_pixel (base n : Nat) (s : State) : (havocPal base n s).pixel = s.pixel := rfl
@[simp] theorem havocPal_result (base n : Nat) (s : State) : (havocPal base n s).result = s.result := rfl
@[simp] theorem havocPal_rectX (base n : Nat) (s : State) : (havocPal base n s).rectX = s.rectX := rfl
@[simp] theorem havocPal_rectY (base n : Nat) (s : State) : (havocPal base n s).rectY = s.rectY := rfl
@[simp] theorem havocPal_rectW (base n : Nat) (s : State) : (havocPal base n s).rectW = s.rectW := rfl
@[simp] theorem havocPal_rectH (base n : Nat) (s : State) : (havocPal base n s).rectH = s.rectH := rfl
@[simp] theorem havocPal_cellW (base n : Nat) (s : State) : (havocPal base n s).cellW = s.cellW := rfl
@[simp] theorem havocPal_cellH (base n : Nat) (s : State) : (havocPal base n s).cellH = s.cellH := rfl
@[simp] theorem havocPal_tilearg (base n : Nat) (s : State) : (havocPal base n s).tilearg = s.tilearg := rfl
@[simp] theorem havocPal_outbase (base n : Nat) (s : State) : (havocPal base n s).outbase = s.outbase := rfl
@[simp] theorem havocPal_outlen (base n : Nat) (s : State) : (havocPal base n s).outlen = s.outlen := rfl
@[simp] theorem havocPal_res0 (base n : Nat) (s : State) : (havocPal base n s).res0 = s.res0 := rfl
@[simp] theorem havocPal_res1 (base n : Nat) (s : State) : (havocPal base n s).res1 = s.res1 := rfl
@[simp] theorem havocPal_qstate (base n : Nat) (s : State) : (havocPal base n s).qstate = s.qstate := rfl
@[simp] theorem havocPal_pal (base n : Nat) (s : State) :
    (havocPal base n s).pal = Memory.setBlock s.pal base ((List.range n).map fun j => Config.freeRgb (s.freeCtr + j)) := rfl
@[simp] theorem havocPal_out (base n : Nat) (s : State) : (havocPal base n s).out = s.out := rfl
@[simp] theorem havocPal_outTop (base n : Nat) (s : State) : (havocPal base n s).outTop = s.outTop := rfl
@[simp] theorem havocPal_img (base n : Nat) (s : State) : (havocPal base n s).img = s.img := rfl
@[simp] theorem havocPal_rst (base n : Nat) (s : State) : (havocPal base n s).rst = s.rst := rfl
@[simp] theorem havocPal_agenda (base n : Nat) (s : State) : (havocPal base n s).agenda = s.agenda := rfl
@[simp] theorem havocPal_rdata (base n : Nat) (s : State) : (havocPal base n s).rdata = s.rdata := rfl
@[simp] theorem havocPal_freeCtr (base n : Nat) (s : State) : (havocPal base n s).freeCtr = s.freeCtr + n := rfl
@[simp] theorem havocPal_outSize (base n : Nat) (s : State) : State.outSize (havocPal base n s) = s.outSize := rfl

/-! A new quantizer. -/

@[simp] theorem State.withQuant_cmd (s : State) (q : Quant) : (s.withQuant q).cmd = s.cmd := rfl
@[simp] theorem State.withQuant_status (s : State) (q : Quant) : (s.withQuant q).status = s.status := rfl
@[simp] theorem State.withQuant_errinfo (s : State) (q : Quant) : (s.withQuant q).errinfo = s.errinfo := rfl
@[simp] theorem State.withQuant_pixel (s : State) (q : Quant) : (s.withQuant q).pixel = s.pixel := rfl
@[simp] theorem State.withQuant_result (s : State) (q : Quant) : (s.withQuant q).result = s.result := rfl
@[simp] theorem State.withQuant_rectX (s : State) (q : Quant) : (s.withQuant q).rectX = s.rectX := rfl
@[simp] theorem State.withQuant_rectY (s : State) (q : Quant) : (s.withQuant q).rectY = s.rectY := rfl
@[simp] theorem State.withQuant_rectW (s : State) (q : Quant) : (s.withQuant q).rectW = s.rectW := rfl
@[simp] theorem State.withQuant_rectH (s : State) (q : Quant) : (s.withQuant q).rectH = s.rectH := rfl
@[simp] theorem State.withQuant_cellW (s : State) (q : Quant) : (s.withQuant q).cellW = s.cellW := rfl
@[simp] theorem State.withQuant_cellH (s : State) (q : Quant) : (s.withQuant q).cellH = s.cellH := rfl
@[simp] theorem State.withQuant_tilearg (s : State) (q : Quant) : (s.withQuant q).tilearg = s.tilearg := rfl
@[simp] theorem State.withQuant_outbase (s : State) (q : Quant) : (s.withQuant q).outbase = s.outbase := rfl
@[simp] theorem State.withQuant_outlen (s : State) (q : Quant) : (s.withQuant q).outlen = s.outlen := rfl
@[simp] theorem State.withQuant_res0 (s : State) (q : Quant) : (s.withQuant q).res0 = s.res0 := rfl
@[simp] theorem State.withQuant_res1 (s : State) (q : Quant) : (s.withQuant q).res1 = s.res1 := rfl
@[simp] theorem State.withQuant_qstate (s : State) (q : Quant) : (s.withQuant q).qstate = q.qstate := rfl
@[simp] theorem State.withQuant_pal (s : State) (q : Quant) : (s.withQuant q).pal = q.pal := rfl
@[simp] theorem State.withQuant_out (s : State) (q : Quant) : (s.withQuant q).out = s.out := rfl
@[simp] theorem State.withQuant_outTop (s : State) (q : Quant) : (s.withQuant q).outTop = s.outTop := rfl
@[simp] theorem State.withQuant_img (s : State) (q : Quant) : (s.withQuant q).img = s.img := rfl
@[simp] theorem State.withQuant_rst (s : State) (q : Quant) : (s.withQuant q).rst = s.rst := rfl
@[simp] theorem State.withQuant_agenda (s : State) (q : Quant) : (s.withQuant q).agenda = s.agenda := rfl
@[simp] theorem State.withQuant_rdata (s : State) (q : Quant) : (s.withQuant q).rdata = s.rdata := rfl
@[simp] theorem State.withQuant_freeCtr (s : State) (q : Quant) : (s.withQuant q).freeCtr = s.freeCtr := rfl
@[simp] theorem State.withQuant_outSize (s : State) (q : Quant) : State.outSize (s.withQuant q) = s.outSize := rfl

/-! Reset of the registers (R29). -/

@[simp] theorem resetRegisters_cmd (s : State) : (resetRegisters s).cmd = 0#32 := rfl
@[simp] theorem resetRegisters_status (s : State) : (resetRegisters s).status = Status.reset := rfl
@[simp] theorem resetRegisters_errinfo (s : State) : (resetRegisters s).errinfo = 0#32 := rfl
@[simp] theorem resetRegisters_pixel (s : State) : (resetRegisters s).pixel = 0#32 := rfl
@[simp] theorem resetRegisters_result (s : State) : (resetRegisters s).result = 0#32 := rfl
@[simp] theorem resetRegisters_rectX (s : State) : (resetRegisters s).rectX = 0#32 := rfl
@[simp] theorem resetRegisters_rectY (s : State) : (resetRegisters s).rectY = 0#32 := rfl
@[simp] theorem resetRegisters_rectW (s : State) : (resetRegisters s).rectW = 0#32 := rfl
@[simp] theorem resetRegisters_rectH (s : State) : (resetRegisters s).rectH = 0#32 := rfl
@[simp] theorem resetRegisters_cellW (s : State) : (resetRegisters s).cellW = 0#32 := rfl
@[simp] theorem resetRegisters_cellH (s : State) : (resetRegisters s).cellH = 0#32 := rfl
@[simp] theorem resetRegisters_tilearg (s : State) : (resetRegisters s).tilearg = TileArg.reset := rfl
@[simp] theorem resetRegisters_outbase (s : State) : (resetRegisters s).outbase = 0#32 := rfl
@[simp] theorem resetRegisters_outlen (s : State) : (resetRegisters s).outlen = 0#32 := rfl
@[simp] theorem resetRegisters_res0 (s : State) : (resetRegisters s).res0 = 0#32 := rfl
@[simp] theorem resetRegisters_res1 (s : State) : (resetRegisters s).res1 = 0#32 := rfl
@[simp] theorem resetRegisters_qstate (s : State) : (resetRegisters s).qstate = QState.reset := rfl
@[simp] theorem resetRegisters_pal (s : State) : (resetRegisters s).pal = s.pal := rfl
@[simp] theorem resetRegisters_out (s : State) : (resetRegisters s).out = s.out := rfl
@[simp] theorem resetRegisters_outTop (s : State) : (resetRegisters s).outTop = s.outTop := rfl
@[simp] theorem resetRegisters_img (s : State) : (resetRegisters s).img = s.img := rfl
@[simp] theorem resetRegisters_rst (s : State) : (resetRegisters s).rst = s.rst := rfl
@[simp] theorem resetRegisters_agenda (s : State) : (resetRegisters s).agenda = s.agenda := rfl
@[simp] theorem resetRegisters_rdata (s : State) : (resetRegisters s).rdata = s.rdata := rfl
@[simp] theorem resetRegisters_freeCtr (s : State) : (resetRegisters s).freeCtr = s.freeCtr := rfl

end Sys2Proof.Machine
end

