-- ==== Sys2Proof/Laws/HostPort.lean ====
section
/-! SUPPORT. Everything a turn of the agenda can do: one lemma per kind of host access, and one for the step. -/

namespace Sys2Proof.Machine

/-- A host write of a word does nothing, accepts a command, writes operand registers, or writes one palette entry (R11, R12, R24). -/
theorem writeRegister_cases (off : Nat) (w : Word) (s : State) :
    writeRegister off w s = s ∨
    (s.status.busy = false ∧ s.status.fatal = false ∧ off = 0 ∧ writeRegister off w s = acceptCommand w s) ∨
    (s.status.busy = false ∧ ∃ px rx ry rw rh cw ch ta ob, writeRegister off w s =
      { s with pixel := px, rectX := rx, rectY := ry, rectW := rw, rectH := rh, cellW := cw, cellH := ch, tilearg := ta,
               outbase := ob }) ∨
    (s.status.busy = false ∧ 0x400 ≤ off ∧ off < 0x800 ∧
      writeRegister off w s = { s with pal := Memory.set s.pal ((off - 0x400) / 4) (rgbOfWord w) }) := by
  unfold writeRegister
  by_cases hb : s.status.busy = true
  · rw [if_pos hb]; exact .inl rfl
  have hb' : s.status.busy = false := by simpa using hb
  rw [if_neg hb]
  by_cases h0 : off = 0x00
  · rw [if_pos h0]
    unfold writeCmd
    by_cases hf : s.status.fatal = true
    · rw [if_pos (.inr hf)]; exact .inl rfl
    · rw [if_neg (by simp [hb', hf])]
      exact .inr (.inl ⟨hb', by simpa using hf, h0, rfl⟩)
  rw [if_neg h0]
  by_cases h : off = 0x0C
  · rw [if_pos h]; exact .inr (.inr (.inl ⟨hb', _, _, _, _, _, _, _, _, _, rfl⟩))
  rw [if_neg h]; clear h
  by_cases h : off = 0x14
  · rw [if_pos h]; exact .inr (.inr (.inl ⟨hb', _, _, _, _, _, _, _, _, _, rfl⟩))
  rw [if_neg h]; clear h
  by_cases h : off = 0x18
  · rw [if_pos h]; exact .inr (.inr (.inl ⟨hb', _, _, _, _, _, _, _, _, _, rfl⟩))
  rw [if_neg h]; clear h
  by_cases h : off = 0x1C
  · rw [if_pos h]; exact .inr (.inr (.inl ⟨hb', _, _, _, _, _, _, _, _, _, rfl⟩))
  rw [if_neg h]; clear h
  by_cases h : off = 0x20
  · rw [if_pos h]; exact .inr (.inr (.inl ⟨hb', _, _, _, _, _, _, _, _, _, rfl⟩))
  rw [if_neg h]; clear h
  by_cases h : off = 0x24
  · rw [if_pos h]; exact .inr (.inr (.inl ⟨hb', _, _, _, _, _, _, _, _, _, rfl⟩))
  rw [if_neg h]; clear h
  by_cases h : off = 0x28
  · rw [if_pos h]; exact .inr (.inr (.inl ⟨hb', _, _, _, _, _, _, _, _, _, rfl⟩))
  rw [if_neg h]; clear h
  by_cases h : off = 0x2C
  · rw [if_pos h]; exact .inr (.inr (.inl ⟨hb', _, _, _, _, _, _, _, _, _, rfl⟩))
  rw [if_neg h]; clear h
  by_cases h : off = 0x30
  · rw [if_pos h]; exact .inr (.inr (.inl ⟨hb', _, _, _, _, _, _, _, _, _, rfl⟩))
  rw [if_neg h]; clear h
  by_cases h : 0x400 ≤ off ∧ off < 0x800
  · rw [if_pos h]; exact .inr (.inr (.inr ⟨hb', h.1, h.2, rfl⟩))
  · rw [if_neg h]; exact .inl rfl

/-- A host read changes only the model's own read data and counter (R45). -/
theorem readRegister_cases (off : Nat) (s : State) :
    ∃ rd k, readRegister off s = { s with rdata := rd, freeCtr := k } := by
  unfold readRegister
  split
  · exact ⟨_, _, rfl⟩
  · exact ⟨_, s.freeCtr, rfl⟩

/-- Everything an event can do, if it gives a next state. -/
theorem takeEvent_cases {e : Event} {s t : State} (h : takeEvent e s = .next t) :
    (∃ rd k, t = { s with rdata := rd, freeCtr := k }) ∨
    (∃ off v, e = .hostWrite off 4 v ∧ s.rst = false ∧ off % 4 = 0 ∧ t = writeRegister off v s) ∨
    (∃ img, e = .present img ∧ (s.status.busy = false ∨ img = s.img) ∧ t = { s with img := img }) ∨
    (∃ level, e = .reset level ∧ t = resetEvent level s) ∨
    (e = .blockTurn ∧ takeBlockTurn s = .next t) := by
  have unchanged : s = { s with rdata := s.rdata, freeCtr := s.freeCtr } := rfl
  cases e with
  | hostWrite off n v =>
    simp only [takeEvent, hostWriteEvent] at h
    split at h
    · cases h; exact .inl ⟨_, _, unchanged⟩
    split at h
    · rename_i hr ha
      cases h
      simp only [accessAligned, Bool.and_eq_true, decide_eq_true_eq] at ha
      obtain ⟨rfl, ho⟩ := ha
      exact .inr (.inl ⟨off, v, rfl, by simpa using hr, ho, rfl⟩)
    · cases h
  | hostRead off n =>
    simp only [takeEvent, hostReadEvent] at h
    split at h
    · cases h; exact .inl ⟨.none, s.freeCtr, rfl⟩
    split at h
    · cases h; exact .inl (readRegister_cases off s)
    · cases h
  | outRead addr n =>
    simp only [takeEvent, outReadEvent] at h
    split at h
    · cases h; exact .inl ⟨.none, s.freeCtr, rfl⟩
    split at h
    · cases h
    split at h
    · cases h; exact .inl ⟨_, _, rfl⟩
    · cases h; exact .inl ⟨_, s.freeCtr, rfl⟩
  | outWrite addr data =>
    simp only [takeEvent, outWriteEvent] at h
    split at h
    · cases h; exact .inl ⟨_, _, unchanged⟩
    split at h
    · cases h
    · cases h; exact .inl ⟨_, _, unchanged⟩
  | present img =>
    simp only [takeEvent, presentEvent] at h
    split at h
    · cases h
    · rename_i hc
      cases h
      refine .inr (.inr (.inl ⟨img, rfl, ?_, rfl⟩))
      by_cases hb : s.status.busy = true
      · exact .inr (by simpa [hb] using hc)
      · exact .inl (by simpa using hb)
  | reset level => cases h; exact .inr (.inr (.inr (.inl ⟨level, rfl, rfl⟩)))
  | blockTurn => exact .inr (.inr (.inr (.inr ⟨rfl, h⟩)))

/-- Everything the block's turn can do. -/
theorem takeBlockTurn_cases {s t : State} (h : takeBlockTurn s = .next t) :
    t = s ∨ (s.status.busy = true ∧ s.rst = false ∧
      ((∃ i, decode s.cmd = .ok i ∧ exec i s = .next t) ∨
       (∃ e, decode s.cmd = .error e) ∧ t = endWithError .illegalCommand s.cmd s)) := by
  unfold takeBlockTurn at h
  split at h
  · rename_i hb
    refine .inr ⟨hb.1, hb.2, ?_⟩
    unfold runCommand at h
    split at h
    · rename_i i hd; exact .inl ⟨i, hd, h⟩
    · rename_i e hd; cases h; exact .inr ⟨⟨e, hd⟩, rfl⟩
  · cases h; exact .inl rfl

/-- A step is the block's turn, or the first event on the state without it (log 1). -/
theorem step_cases {s t : State} (h : step s = .next t) :
    (s.agenda = [] ∧ takeBlockTurn s = .next t) ∨
    ∃ e rest, s.agenda = e :: rest ∧ takeEvent e { s with agenda := rest } = .next t := by
  unfold step takeTurn at h
  split at h
  · rename_i ha; exact .inl ⟨ha, h⟩
  · rename_i e rest ha; exact .inr ⟨e, rest, ha, h⟩

end Sys2Proof.Machine
end

