-- ==== Sys2Proof/Laws/Memory.lean ====
section
/-! SUPPORT. The laws of the memories: a read after a write, what a write leaves alone, and the canonical form, which every memory
operation keeps. -/

namespace Sys2Proof.Machine

variable {α : Type}

@[simp] theorem Memory.get?_nil (a : Nat) : Memory.get? ([] : Memory α) a = none := rfl

theorem Memory.get?_cons (k : Nat) (v : α) (m : Memory α) (a : Nat) :
    Memory.get? ((k, v) :: m) a = if k = a then some v else Memory.get? m a := rfl

/-- A key that no entry has reads as no value. -/
theorem Memory.get?_eq_none {m : Memory α} {a : Nat} (h : ∀ x ∈ m, x.1 ≠ a) : Memory.get? m a = none := by
  induction m with
  | nil => rfl
  | cons x m ih =>
    obtain ⟨k, v⟩ := x
    rw [Memory.get?_cons, if_neg (h (k, v) (by simp)), ih fun x hx => h x (by simp [hx])]

theorem Memory.get?_append (m m' : Memory α) (a : Nat) :
    Memory.get? (m ++ m') a = (Memory.get? m a).or (Memory.get? m' a) := by
  induction m with
  | nil => simp
  | cons x m ih =>
    obtain ⟨k, v⟩ := x
    rw [List.cons_append, Memory.get?_cons, Memory.get?_cons, ih]
    by_cases h : k = a <;> simp [h]

/-- Reading a memory whose entries were filtered by key. -/
theorem Memory.get?_filter (m : Memory α) (p : Nat → Bool) (a : Nat) :
    Memory.get? (m.filter fun x => p x.1) a = if p a then Memory.get? m a else none := by
  induction m with
  | nil => simp
  | cons x m ih =>
    obtain ⟨k, v⟩ := x
    by_cases hk : p k
    · rw [List.filter_cons_of_pos (by simpa using hk), Memory.get?_cons, Memory.get?_cons, ih]
      by_cases h : k = a
      · subst h; simp [hk]
      · simp [h]
    · rw [List.filter_cons_of_neg (by simpa using hk), Memory.get?_cons, ih]
      by_cases h : k = a
      · subst h; simp [hk]
      · simp [h]

/-- Reading a block: the value at its place, no value outside. -/
theorem Memory.get?_block (base : Nat) (vs : List α) (a : Nat) :
    Memory.get? (Memory.block base vs) a = if base ≤ a then vs[a - base]? else none := by
  induction vs generalizing base with
  | nil => simp [Memory.block]
  | cons v vs ih =>
    rw [Memory.block, Memory.get?_cons, ih]
    by_cases h : base = a
    · subst h; simp
    · by_cases h1 : base + 1 ≤ a
      · obtain ⟨d, rfl⟩ := Nat.exists_eq_add_of_le h1
        rw [if_neg h, if_pos h1, if_pos (by omega), show base + 1 + d - base = d + 1 by omega,
          show base + 1 + d - (base + 1) = d by omega, List.getElem?_cons_succ]
      · rw [if_neg h, if_neg h1, if_neg (by omega)]

/-- A read after a block write: the written value inside the block, the old one outside. -/
theorem Memory.get?_setBlock (m : Memory α) (base : Nat) (vs : List α) (a : Nat) :
    Memory.get? (Memory.setBlock m base vs) a =
      if base ≤ a ∧ a < base + vs.length then vs[a - base]? else Memory.get? m a := by
  rw [Memory.setBlock, Memory.get?_append, Memory.get?_append,
    Memory.get?_filter m (fun k => decide (k < base)), Memory.get?_filter m (fun k => decide (base + vs.length ≤ k)),
    Memory.get?_block]
  by_cases h1 : a < base
  · simp only [h1, decide_true, if_true, if_neg (show ¬ base ≤ a by omega),
      if_neg (show ¬ (base ≤ a ∧ a < base + vs.length) by omega),
      show decide (base + vs.length ≤ a) = false by simp; omega]
    simp
  · by_cases h2 : a < base + vs.length
    · have hs : (vs[a - base]?).isSome := by simp; omega
      obtain ⟨v, hv⟩ := Option.isSome_iff_exists.mp hs
      simp [h1, h2, show base ≤ a by omega, hv]
    · have hn : vs[a - base]? = none := by simp; omega
      simp [h1, h2, show base ≤ a by omega, hn, show base + vs.length ≤ a by omega]

/-- Outside the block a write changes no read. -/
theorem Memory.get?_setBlock_outside {m : Memory α} {base : Nat} {vs : List α} {a : Nat}
    (h : a < base ∨ base + vs.length ≤ a) : Memory.get? (Memory.setBlock m base vs) a = Memory.get? m a := by
  rw [Memory.get?_setBlock, if_neg (by omega)]

/-- Inside the block a write is read back. -/
theorem Memory.get?_setBlock_inside (m : Memory α) (base : Nat) {vs : List α} {k : Nat} (h : k < vs.length) :
    Memory.get? (Memory.setBlock m base vs) (base + k) = vs[k]? := by
  rw [Memory.get?_setBlock, if_pos (by omega), show base + k - base = k by omega]

theorem Memory.get?_set (m : Memory α) (k : Nat) (v : α) (a : Nat) :
    Memory.get? (Memory.set m k v) a = if a = k then some v else Memory.get? m a := by
  rw [Memory.set, Memory.get?_setBlock]
  by_cases h : a = k
  · subst h; simp
  · rw [if_neg (by simp; omega), if_neg h]

@[simp] theorem Memory.setBlock_nil (m : Memory α) (base : Nat) (h : Memory.wf m) : Memory.setBlock m base [] = m := by
  induction m with
  | nil => rfl
  | cons x m ih =>
    obtain ⟨hx, hm⟩ := List.pairwise_cons.mp h
    have ih := ih hm
    simp only [Memory.setBlock, Memory.block, List.length_nil, Nat.add_zero, List.nil_append] at ih ⊢
    by_cases hk : x.1 < base
    · rw [List.filter_cons_of_pos (by simpa using hk), List.filter_cons_of_neg (by simp; omega), List.cons_append, ih]
    · have h1 : m.filter (fun x => decide (x.1 < base)) = [] :=
        List.filter_eq_nil_iff.mpr fun y hy => by have := hx y hy; simp; omega
      have h2 : m.filter (fun x => decide (base ≤ x.1)) = m :=
        List.filter_eq_self.mpr fun y hy => by have := hx y hy; simp; omega
      rw [List.filter_cons_of_neg (by simpa using hk), List.filter_cons_of_pos (by simp; omega), h1, h2, List.nil_append]

/-- The keys of a block. -/
theorem Memory.mem_block {base : Nat} {vs : List α} {x : Nat × α} (h : x ∈ Memory.block base vs) :
    base ≤ x.1 ∧ x.1 < base + vs.length := by
  induction vs generalizing base with
  | nil => simp [Memory.block] at h
  | cons v vs ih =>
    rw [Memory.block, List.mem_cons] at h
    rcases h with rfl | h
    · simp
    · have := ih h; simp only [List.length_cons]; omega

theorem Memory.block_wf (base : Nat) (vs : List α) : Memory.wf (Memory.block base vs) := by
  induction vs generalizing base with
  | nil => simp [Memory.block]
  | cons v vs ih => exact List.pairwise_cons.mpr ⟨fun y hy => by have := Memory.mem_block hy; simp; omega, ih _⟩

/-- A block write keeps the canonical form. -/
theorem Memory.setBlock_wf {m : Memory α} (h : Memory.wf m) (base : Nat) (vs : List α) :
    Memory.wf (Memory.setBlock m base vs) := by
  refine List.pairwise_append.mpr ⟨h.filter _, List.pairwise_append.mpr ⟨Memory.block_wf _ _, h.filter _, ?_⟩, ?_⟩
  · intro x hx y hy
    have := Memory.mem_block hx
    have := of_decide_eq_true (List.mem_filter.mp hy).2
    omega
  · intro x hx y hy
    have hx := of_decide_eq_true (List.mem_filter.mp hx).2
    rcases List.mem_append.mp hy with hy | hy
    · have := Memory.mem_block hy; omega
    · have := of_decide_eq_true (List.mem_filter.mp hy).2; omega

/-- Writing one key keeps the canonical form. -/
theorem Memory.set_wf {m : Memory α} (h : Memory.wf m) (k : Nat) (v : α) : Memory.wf (Memory.set m k v) :=
  Memory.setBlock_wf h k [v]

/-- The keys of a memory after a block write. -/
theorem Memory.mem_setBlock {m : Memory α} {base : Nat} {vs : List α} {x : Nat × α} (h : x ∈ Memory.setBlock m base vs) :
    x ∈ m ∨ (base ≤ x.1 ∧ x.1 < base + vs.length) := by
  rcases List.mem_append.mp h with h | h
  · exact .inl (List.mem_filter.mp h).1
  · rcases List.mem_append.mp h with h | h
    · exact .inr (Memory.mem_block h)
    · exact .inl (List.mem_filter.mp h).1

/-- A bound on keys is kept by a block write below it. -/
theorem Memory.setBlock_bounded {m : Memory α} {n : Nat} (h : ∀ x ∈ m, x.1 < n) {base : Nat} {vs : List α}
    (hb : vs = [] ∨ base + vs.length ≤ n) : ∀ x ∈ Memory.setBlock m base vs, x.1 < n := by
  intro x hx
  rcases Memory.mem_setBlock hx with hx | ⟨h1, h2⟩
  · exact h x hx
  · rcases hb with rfl | hb
    · simp at h2; omega
    · omega

/-- Canonical memories that answer every read alike are equal. -/
theorem Memory.ext_of_get? {m m' : Memory α} (h : Memory.wf m) (h' : Memory.wf m')
    (hr : ∀ a, Memory.get? m a = Memory.get? m' a) : m = m' := by
  induction m generalizing m' with
  | nil =>
    cases m' with
    | nil => rfl
    | cons x m' => have := hr x.1; simp [Memory.get?] at this
  | cons x m ih =>
    obtain ⟨hx, hm⟩ := List.pairwise_cons.mp h
    cases m' with
    | nil => have := hr x.1; simp [Memory.get?] at this
    | cons y m' =>
      obtain ⟨hy, hm'⟩ := List.pairwise_cons.mp h'
      have below : ∀ {n : Memory α} {a : Nat}, (∀ z ∈ n, a < z.1) → Memory.get? n a = none := fun hz =>
        Memory.get?_eq_none fun z hz' e => by have := hz z hz'; omega
      have key : x.1 = y.1 := by
        rcases Nat.lt_trichotomy x.1 y.1 with hlt | heq | hlt
        · have := hr x.1
          rw [Memory.get?, if_pos rfl, Memory.get?, if_neg (by omega), below fun z hz => by have := hy z hz; omega] at this
          simp at this
        · exact heq
        · have := hr y.1
          rw [Memory.get?, if_neg (by omega), Memory.get?, if_pos rfl, below fun z hz => by have := hx z hz; omega] at this
          simp at this
      have val : x.2 = y.2 := by
        have := hr x.1
        rw [Memory.get?, if_pos rfl, Memory.get?, if_pos key.symm] at this
        simpa using this
      have rest : m = m' := ih hm hm' fun a => by
        by_cases ha : x.1 = a
        · subst ha
          rw [below hx, below fun z hz => by have := hy z hz; omega]
        · have := hr a
          rwa [Memory.get?, if_neg ha, Memory.get?, if_neg (by omega)] at this
      rw [rest, Prod.ext key val]

end Sys2Proof.Machine
end

