-- ==== Sys2Proof/Laws/Ops.lean ====
section
/-! SUPPORT. What the shared operations can do: reads of the palette and of `OUT` after writes, the words of the fielded registers,
and what a reset leaves. -/

namespace Sys2Proof.Machine

/-- Concatenation as arithmetic. -/
theorem toNat_append_add {m n : Nat} (x : BitVec m) (y : BitVec n) : (x ++ y).toNat = x.toNat * 2 ^ n + y.toNat := by
  rw [BitVec.toNat_append, ← Nat.shiftLeft_add_eq_or_of_lt y.isLt, Nat.shiftLeft_eq]

theorem palGet_set (m : Memory Rgb) (k : Nat) (v : Rgb) (a : Nat) :
    palGet (Memory.set m k v) a = if a = k then v else palGet m a := by
  rw [palGet, palGet, Memory.get?_set]
  split <;> rfl

theorem palGet_setBlock_outside {m : Memory Rgb} {b : Nat} {vs : List Rgb} {a : Nat} (h : a < b ∨ b + vs.length ≤ a) :
    palGet (Memory.setBlock m b vs) a = palGet m a := by
  rw [palGet, palGet, Memory.get?_setBlock_outside h]

theorem outGet_setBlock_outside {m : Memory Byte} {b : Nat} {vs : List Byte} {a : Nat} (h : a < b ∨ b + vs.length ≤ a) :
    outGet (Memory.setBlock m b vs) a = outGet m a := by
  rw [outGet, outGet, Memory.get?_setBlock_outside h]

/-- A byte of an artifact is read back where it was written. -/
theorem outGet_setBlock_inside {m : Memory Byte} {b : Nat} {vs : List Byte} {k : Nat} (h : k < vs.length) :
    outGet (Memory.setBlock m b vs) (b + k) = vs[k] := by
  rw [outGet, Memory.get?_setBlock_inside m b h, List.getElem?_eq_getElem h, Option.getD_some]

/-- The same, by the optional read of the list. -/
theorem outGet_setBlock_of_getElem? {m : Memory Byte} {b : Nat} {vs : List Byte} {k : Nat} {v : Byte} (h : vs[k]? = some v) :
    outGet (Memory.setBlock m b vs) (b + k) = v := by
  obtain ⟨hk, rfl⟩ := List.getElem?_eq_some_iff.mp h
  exact outGet_setBlock_inside hk

@[simp] theorem freeBytes_length (k n : Nat) : (freeBytes k n).length = n := by simp [freeBytes]

/-- `STATUS` as the host reads it (R13). -/
theorem statusWord_toNat (st : Status) :
    (statusWord st).toNat = st.busy.toNat + 2 * st.done.toNat + 4 * st.err.toNat + 8 * st.fatal.toNat
      + 256 * st.errcode.toNat := by
  obtain ⟨b, d, e, f, c⟩ := st
  revert c
  cases b <;> cases d <;> cases e <;> cases f <;> decide

/-- `QSTATE` as the host reads it (R23). -/
theorem qstateWord_toNat (q : QState) :
    (qstateWord q).toNat = q.count.toNat + 65536 * q.cap.toNat
      + 2147483648 * (if q.mode = .incrementalNaive then 1 else 0) := by
  obtain ⟨m, c, k⟩ := q
  simp only [qstateWord, toNat_append_add]
  cases m <;> simp [modeBit] <;> omega

/-- `TILEARG` reads back what was written, bits 31:24 as 0 (R19). -/
theorem tileArgWord_tileArgOfWord (w : Word) : tileArgWord (tileArgOfWord w) = w &&& 0x00FFFFFF#32 := by
  ext i hi
  rw [← BitVec.getLsbD_eq_getElem, ← BitVec.getLsbD_eq_getElem]
  simp only [tileArgWord, tileArgOfWord, BitVec.getLsbD_append, BitVec.getLsbD_extractLsb', BitVec.getLsbD_and]
  have mask : ∀ j < 32, BitVec.getLsbD 0x00FFFFFF#32 j = decide (j < 24) := by decide
  rw [mask i hi]
  by_cases h1 : i < 8
  · simp [h1, show i < 24 by omega]
  by_cases h2 : i - 8 < 8
  · simp [h1, h2, show i < 24 by omega, show 8 + (i - 8) = i by omega]
  by_cases h3 : i - 8 - 8 < 8
  · simp [h1, h2, h3, show i < 24 by omega, show 16 + (i - 8 - 8) = i by omega]
  · simp [h1, h2, h3, show ¬ i < 24 by omega]

/-- A palette entry reads back what was written, bits 31:24 as 0 (R69). -/
theorem rgbWord_rgbOfWord (w : Word) : rgbWord (rgbOfWord w) = w &&& 0x00FFFFFF#32 := tileArgWord_tileArgOfWord w

/-- `TILEARG` as the host reads it (R19). -/
theorem tileArgWord_toNat (t : TileArg) :
    (tileArgWord t).toNat = t.padIdx.toNat + 256 * t.fill.toNat + 65536 * t.fitBlk.toNat := by
  simp only [tileArgWord, toNat_append_add, BitVec.toNat_ofNat, Nat.zero_mod]
  omega

/-- A palette entry as the host reads it (R69). -/
theorem rgbWord_toNat (c : Rgb) : (rgbWord c).toNat = c.r.toNat + 256 * c.g.toNat + 65536 * c.b.toNat := by
  simp only [rgbWord, toNat_append_add, BitVec.toNat_ofNat, Nat.zero_mod]
  omega

/-- The fields a word written to `TILEARG` gives, as arithmetic (R19). -/
theorem tileArgOfWord_eq (w : Word) :
    tileArgOfWord w = { padIdx := BitVec.ofNat 8 w.toNat, fill := BitVec.ofNat 8 (w.toNat / 256)
                        fitBlk := BitVec.ofNat 8 (w.toNat / 65536) } := by
  simp only [tileArgOfWord, TileArg.mk.injEq]
  refine ⟨?_, ?_, ?_⟩ <;> apply BitVec.eq_of_toNat_eq <;> simp [BitVec.extractLsb'_toNat, Nat.shiftRight_eq_div_pow]

/-- `To15` as arithmetic (R110): each channel divided by 8. -/
theorem to15_toNat (c : Rgb) :
    (to15 c).toNat = c.r.toNat / 8 + 32 * (c.g.toNat / 8) + 1024 * (c.b.toNat / 8) := by
  obtain ⟨r, g, b⟩ := c
  have hr := r.isLt
  have hg := g.isLt
  have hb := b.isLt
  simp only [to15, BitVec.toNat_or, BitVec.toNat_shiftLeft, BitVec.toNat_setWidth, BitVec.toNat_ushiftRight,
    Nat.shiftRight_eq_div_pow, Nat.shiftLeft_eq]
  norm_num
  have low : r.toNat / 8 ||| g.toNat / 8 * 32 = g.toNat / 8 * 32 + r.toNat / 8 := by
    rw [Nat.or_comm, ← Nat.shiftLeft_eq (g.toNat / 8) 5, ← Nat.shiftLeft_add_eq_or_of_lt (by omega)]
  rw [Nat.mod_eq_of_lt (show r.toNat / 8 < 65536 by omega), Nat.mod_eq_of_lt (show g.toNat / 8 * 32 < 65536 by omega),
    Nat.mod_eq_of_lt (show b.toNat / 8 * 1024 < 65536 by omega), low, Nat.or_comm, ← Nat.shiftLeft_eq (b.toNat / 8) 10, ← Nat.shiftLeft_add_eq_or_of_lt (by omega), Nat.shiftLeft_eq]
  omega

/-- The two bytes of a little-endian pair, as arithmetic (R41). -/
theorem le16_toNat (v : BitVec 16) :
    (v.extractLsb' 0 8).toNat + 256 * (v.extractLsb' 8 8).toNat = v.toNat := by
  have := v.isLt
  simp only [BitVec.extractLsb'_toNat, Nat.shiftRight_eq_div_pow]
  omega

@[simp] theorem le16_length (v : BitVec 16) : (le16 v).length = 2 := rfl

/-- Element `k` of a run of 15-bit colours, low byte first (R70). -/
theorem flatMap_le16_getElem? {α : Type} (n : Nat) (g : Nat → α) (f : α → BitVec 16) (k : Nat) (hk : k < n) :
   (((List.range n).flatMap fun i => le16 (f (g i))))[2*k]? = some ((f (g k)).extractLsb' 0 8) ∧
   (((List.range n).flatMap fun i => le16 (f (g i))))[2*k+1]? = some ((f (g k)).extractLsb' 8 8) := by
  have : ∀ n, ((List.range n).flatMap fun i => le16 (f (g i))).length = 2 * n := by
    intro n; simp [List.length_flatMap, Nat.mul_comm]
  induction n with
  | zero => omega
  | succ n ih =>
    rw [List.range_succ, List.flatMap_append]
    rcases Nat.lt_or_ge k n with h | h
    · rw [List.getElem?_append_left (by rw [this]; omega), List.getElem?_append_left (by rw [this]; omega)]; exact ih h
    · obtain rfl : k = n := by omega
      rw [List.getElem?_append_right (by rw [this]), List.getElem?_append_right (by rw [this]; omega), this]
      simp [le16]

/-- Nothing is in progress in a block that is not busy. -/
theorem inProgress_of_not_busy {s : State} (h : s.status.busy = false) : inProgress s = Footprint.empty := by
  simp [inProgress, h]

/-- A legal command in progress (R190). -/
theorem inProgress_of_command {s : State} {i : Instr} (hb : s.status.busy = true) (hd : decode s.cmd = .ok i) :
    inProgress s = footprint i s := by
  simp [inProgress, hb, hd]

/-- An illegal word in progress (R66, U6). -/
theorem inProgress_of_illegal {s : State} {e : DecodeError} (hb : s.status.busy = true) (hd : decode s.cmd = .error e) :
    inProgress s = { outLen := 0, palBase := 1, palLen := entriesAtRiskEnd s.qstate.mode - 1 } := by
  simp [inProgress, hb, hd]

/-- What abandoning a command can change: its window of `OUT` and its palette entries (R190, U6). -/
theorem abandon_outGet (s : State) {a : Nat}
    (h : a < s.outbase.toNat ∨ s.outbase.toNat + (inProgress s).outLen ≤ a) : outGet (abandon s).out a = outGet s.out a := by
  simp only [abandon, havocPal_out, havocOut_out]
  exact outGet_setBlock_outside (by simpa using h)

theorem abandon_palGet (s : State) {k : Nat}
    (h : k < (inProgress s).palBase ∨ (inProgress s).palBase + (inProgress s).palLen ≤ k) :
    palGet (abandon s).pal k = palGet s.pal k := by
  simp only [abandon, havocPal_pal, havocOut_pal]
  exact palGet_setBlock_outside (by simpa using h)

end Sys2Proof.Machine
end

