-- ==== Sys2Proof/Laws/Quantizer.lean ====
section
/-! SUPPORT. The quantizer: the nearest match, what one `Classify` call can do, what a scan of positions gives. -/

namespace Sys2Proof.Machine

theorem channelDist2_int (x y : Byte) : ((channelDist2 x y : Nat) : Int) = ((x.toNat : Int) - y.toNat) ^ 2 := by
  unfold channelDist2
  push_cast
  rw [sq, ← abs_mul_abs_self ((x.toNat : Int) - y.toNat)]

theorem channelDist2_le (x y : Byte) : channelDist2 x y ≤ 65025 := by
  have hx := x.isLt
  have hy := y.isLt
  have h : ((x.toNat : Int) - (y.toNat : Int)).natAbs ≤ 255 := by omega
  calc channelDist2 x y ≤ 255 * 255 := Nat.mul_le_mul h h
    _ = 65025 := rfl

theorem channelDist2_eq_zero (x y : Byte) : channelDist2 x y = 0 ↔ x = y := by
  unfold channelDist2
  rw [mul_self_eq_zero, Int.natAbs_eq_zero, sub_eq_zero, Nat.cast_inj]
  exact BitVec.toNat_inj

theorem dist2_eq_zero (p : Pixel) (e : Rgb) : dist2 p e = 0 ↔ e = pixelRgb p := by
  obtain ⟨r, g, b⟩ := e
  simp only [dist2, Nat.add_eq_zero_iff, channelDist2_eq_zero, pixelRgb, Rgb.mk.injEq]
  exact ⟨fun h => ⟨h.1.1.symm, h.1.2.symm, h.2.symm⟩, fun h => ⟨⟨h.1.symm, h.2.1.symm⟩, h.2.2.symm⟩⟩

/-- A palette of at most one entry has no candidate (R91). -/
theorem nearest_of_le_one (pal : Memory Rgb) (p : Pixel) {n : Nat} (h : n ≤ 1) : nearest pal p n = (0, none) := by
  rw [nearest, show n - 1 = 0 by omega]
  rfl

/-- The search names the least entry at least distance, and gives that distance (R91). -/
theorem nearest_spec (pal : Memory Rgb) (p : Pixel) {n : Nat} (h : 2 ≤ n) :
    ∃ i, isNearest pal p n i ∧ nearest pal p n = (i, some (dist2 p (palGet pal i))) := by
  obtain ⟨m, rfl⟩ := Nat.exists_eq_add_of_le h
  rw [nearest, show 2 + m - 1 = m + 1 by omega]
  induction m with
  | zero => exact ⟨1, ⟨by omega, by omega, fun j h1 h2 => by rw [show j = 1 by omega], fun j h1 h2 => by omega⟩, rfl⟩
  | succ m ih =>
    obtain ⟨i, ⟨h1, h2, hle, hlt⟩, he⟩ := ih (by omega)
    rw [List.range'_1_concat, List.foldl_append, he]
    simp only [List.foldl_cons, List.foldl_nil, nearestStep]
    split
    · rename_i hd
      refine ⟨1 + (m + 1), ⟨by omega, by omega, fun j hj1 hj2 => ?_, fun j hj1 hj2 => ?_⟩, rfl⟩
      · rcases Nat.lt_or_ge j (2 + m) with hj | hj
        · exact (hd.trans_le (hle j hj1 hj)).le
        · rw [show j = 1 + (m + 1) by omega]
      · exact hd.trans_le (hle j hj1 (by omega))
    · rename_i hd
      refine ⟨i, ⟨h1, by omega, fun j hj1 hj2 => ?_, hlt⟩, rfl⟩
      rcases Nat.lt_or_ge j (2 + m) with hj | hj
      · exact hle j hj1 hj
      · rw [show j = 1 + (m + 1) by omega]; omega

/-- At most one entry is the nearest. -/
theorem isNearest_unique {pal : Memory Rgb} {p : Pixel} {n i j : Nat} (hi : isNearest pal p n i) (hj : isNearest pal p n j) :
    i = j := by
  obtain ⟨i1, i2, i3, i4⟩ := hi
  obtain ⟨j1, j2, j3, j4⟩ := hj
  rcases Nat.lt_trichotomy i j with h | h | h
  · have := j4 i i1 h; have := i3 j j1 j2; omega
  · exact h
  · have := i4 j j1 h; have := j3 i i1 i2; omega

/-- A transparent pixel is index 0 in both modes and changes nothing (R92). -/
theorem classify_transparent {q : Quant} {p : Pixel} (h : p.a ≠ 255#8) : classify q p = (0, q) := by
  unfold classify
  cases q.qstate.mode
  · simp [classifyFixed, h]
  · simp [classifyInc, h]

theorem classify_fixed {q : Quant} (p : Pixel) (hm : q.qstate.mode = .nearestFixed) : classify q p = (classifyFixed q p, q) := by
  simp [classify, hm]

theorem classify_incremental {q : Quant} (p : Pixel) (hm : q.qstate.mode = .incrementalNaive) :
    classify q p = classifyInc q p := by
  simp [classify, hm]

/-- Everything `ClassifyInc` can do with an opaque pixel (R94). -/
theorem classifyInc_cases {q : Quant} {p : Pixel} (ha : p.a = 255#8) :
    (q.qstate.count.toNat < 2 ∧ classifyInc q p = recordColour q p) ∨
    (2 ≤ q.qstate.count.toNat ∧ ∃ i, isNearest q.pal p q.qstate.count.toNat i ∧
      ((dist2 p (palGet q.pal i) = 0 ∨ q.qstate.count = q.qstate.cap) ∧ classifyInc q p = (i, q) ∨
       (dist2 p (palGet q.pal i) ≠ 0 ∧ q.qstate.count ≠ q.qstate.cap) ∧ classifyInc q p = recordColour q p)) := by
  by_cases hc : q.qstate.count.toNat < 2
  · exact .inl ⟨hc, by simp [classifyInc, ha, hc]⟩
  · obtain ⟨i, hi, he⟩ := nearest_spec q.pal p (show 2 ≤ q.qstate.count.toNat by omega)
    refine .inr ⟨by omega, i, hi, ?_⟩
    by_cases hd : dist2 p (palGet q.pal i) = 0 ∨ q.qstate.count = q.qstate.cap
    · exact .inl ⟨hd, by simp [classifyInc, ha, hc, he, hd]⟩
    · rw [not_or] at hd
      exact .inr ⟨hd, by simp [classifyInc, ha, hc, he, hd.1, hd.2]⟩

/-- Recording a colour keeps `QSTATE` legal while there is room (R23, R94). -/
theorem recordColour_legal {q : Quant} {p : Pixel} (h : QState.legal q.qstate) (hm : q.qstate.mode = .incrementalNaive)
    (hc : q.qstate.count.toNat < q.qstate.cap.toNat) : QState.legal (recordColour q p).2.qstate := by
  obtain ⟨l1, l2, l3, l4, l5⟩ := h
  have hcount : (q.qstate.count + 1#9).toNat = q.qstate.count.toNat + 1 := by
    rw [BitVec.toNat_add]; simp; omega
  refine ⟨?_, ?_, l3, fun hf => by simp [recordColour, hm] at hf, l5⟩
  · simp only [recordColour, hcount]; omega
  · simp only [recordColour, hcount]; omega

/-- In incremental mode everything a `Classify` call can do to the quantizer: nothing, or record the colour while there is room
(R94). -/
theorem classify_quant_cases {q : Quant} (p : Pixel) (h : QState.legal q.qstate) :
    (classify q p).2 = q ∨
      (q.qstate.mode = .incrementalNaive ∧ q.qstate.count.toNat < q.qstate.cap.toNat ∧ classify q p = recordColour q p) := by
  by_cases ha : p.a = 255#8
  swap
  · exact .inl (by rw [classify_transparent ha])
  cases hm : q.qstate.mode with
  | nearestFixed => exact .inl (by rw [classify_fixed p hm])
  | incrementalNaive =>
    obtain ⟨l1, l2, l3, l4, l5⟩ := h
    rw [classify_incremental p hm]
    rcases classifyInc_cases (q := q) ha with ⟨hc, he⟩ | ⟨hc, i, hi, ⟨_, he⟩ | ⟨hd, he⟩⟩
    · have := l5 hm
      exact .inr ⟨rfl, by omega, he⟩
    · exact .inl (by rw [he])
    · refine .inr ⟨rfl, ?_, he⟩
      rcases Nat.lt_or_ge q.qstate.count.toNat q.qstate.cap.toNat with h' | h'
      · exact h'
      · exact absurd (BitVec.eq_of_toNat_eq (by omega)) hd.2

/-- A `Classify` call keeps `QSTATE` legal and gives an index below 256 (R23, R95). -/
theorem classify_legal {q : Quant} (p : Pixel) (h : QState.legal q.qstate) :
    QState.legal (classify q p).2.qstate ∧ (classify q p).1 < 256 := by
  refine ⟨?_, ?_⟩
  · rcases classify_quant_cases p h with he | ⟨hm, hc, he⟩
    · rw [he]; exact h
    · rw [he]; exact recordColour_legal h hm hc
  · obtain ⟨l1, l2, l3, l4, l5⟩ := h
    by_cases ha : p.a = 255#8
    swap
    · rw [classify_transparent ha]; simp
    cases hm : q.qstate.mode with
    | nearestFixed =>
      rw [classify_fixed p hm]
      simp only [classifyFixed, ha]
      by_cases hc : q.qstate.count.toNat ≤ 1
      · simp [nearest_of_le_one _ _ hc]
      · obtain ⟨i, hi, he⟩ := nearest_spec q.pal p (show 2 ≤ q.qstate.count.toNat by omega)
        have := hi.2.1
        simp [he]; omega
    | incrementalNaive =>
      rcases classify_quant_cases p ⟨l1, l2, l3, l4, l5⟩ with he | ⟨_, hc, he⟩
      · rw [classify_incremental p hm] at he ⊢
        rcases classifyInc_cases (q := q) ha with ⟨hc, he'⟩ | ⟨hc, i, hi, ⟨_, he'⟩ | ⟨_, he'⟩⟩
        · rw [he']; simp only [recordColour]; omega
        · rw [he']; have := hi.2.1; simp only; omega
        · have hq := congrArg (fun q => q.qstate.count.toNat) (he' ▸ he)
          simp only [recordColour, BitVec.toNat_add] at hq
          simp at hq
          omega
      · rw [he]; simp only [recordColour]; omega

/-- What the invariant says of a quantizer. -/
structure Quant.Ok (q : Quant) : Prop where
  legal   : QState.legal q.qstate
  wf      : Memory.wf q.pal
  keys    : ∀ x ∈ q.pal, x.1 < 256
  written : q.qstate.mode = .incrementalNaive → ∀ i < q.qstate.count.toNat, (Memory.get? q.pal i).isSome = true

theorem State.Inv.quantOk {s : State} (h : s.Inv) : s.quant.Ok :=
  ⟨h.qstate, h.memories.1, h.memories.2.1, h.paletteWritten⟩

theorem recordColour_ok {q : Quant} {p : Pixel} (h : q.Ok) (hm : q.qstate.mode = .incrementalNaive)
    (hc : q.qstate.count.toNat < q.qstate.cap.toNat) : (recordColour q p).2.Ok := by
  have hcap := h.legal.2.2.1
  refine ⟨recordColour_legal h.legal hm hc, Memory.set_wf h.wf _ _, Memory.setBlock_bounded h.keys (.inr (by simp; omega)),
    fun _ i hi => ?_⟩
  have hcount : (q.qstate.count + 1#9).toNat = q.qstate.count.toNat + 1 := by
    rw [BitVec.toNat_add]; simp; omega
  simp only [recordColour, hcount] at hi ⊢
  rw [Memory.get?_set]
  split
  · rfl
  · exact h.written hm i (by omega)

/-- A `Classify` call gives an index below 256 and keeps the quantizer legal (R95). -/
theorem classify_ok {q : Quant} (p : Pixel) (h : q.Ok) : (classify q p).2.Ok ∧ (classify q p).1 < 256 := by
  refine ⟨?_, (classify_legal p h.legal).2⟩
  rcases classify_quant_cases p h.legal with he | ⟨hm, hc, he⟩
  · rw [he]; exact h
  · rw [he]; exact recordColour_ok h hm hc

end Sys2Proof.Machine
end

