-- ==== Sys2Proof/Laws/Scan.lean ====
section
/-! SUPPORT. Scans in closed form: the positions of the tile and bitmap scans by their number, what a scan of numbered positions
gives, and the packing of its indices. -/

namespace Sys2Proof.Machine

/-- A doubly nested loop visits its positions by quotient and remainder. -/
theorem flatMap_range_map {β : Type} (a b : Nat) (g : Nat → Nat → β) :
    ((List.range a).flatMap fun i => (List.range b).map (g i)) = (List.range (a * b)).map fun k => g (k / b) (k % b) := by
  rcases Nat.eq_zero_or_pos b with rfl | hb
  · simp
  induction a with
  | zero => simp
  | succ a ih =>
    rw [List.range_succ, List.flatMap_append, ih, Nat.succ_mul, List.range_add, List.map_append]
    simp only [List.flatMap_cons, List.flatMap_nil, List.append_nil, List.map_map]
    congr 1
    refine List.map_congr_left fun k hk => ?_
    have hk := List.mem_range.mp hk
    simp only [Function.comp]
    rw [Nat.add_comm (a * b), Nat.add_mul_div_right _ _ hb, Nat.div_eq_of_lt hk, Nat.zero_add, Nat.add_mul_mod_self_right,
      Nat.mod_eq_of_lt hk]

/-- The tile scan's positions by their number (R125). -/
theorem tilePositions_eq (tilesX tilesY : Nat) :
    tilePositions tilesX tilesY = (List.range (64 * (tilesX * tilesY))).map (tilePos tilesX) := by
  have inner : ∀ tx ty : Nat, ((List.range 8).flatMap fun py => (List.range 8).map fun px => (8 * tx + px, 8 * ty + py)) =
      (List.range 64).map fun k => (8 * tx + k % 8, 8 * ty + k / 8) := fun tx ty =>
    flatMap_range_map 8 8 fun py px => (8 * tx + px, 8 * ty + py)
  have middle : ∀ ty : Nat, ((List.range tilesX).flatMap fun tx => (List.range 8).flatMap fun py => (List.range 8).map
      fun px => (8 * tx + px, 8 * ty + py)) =
      (List.range (tilesX * 64)).map fun k => (8 * (k / 64) + k % 64 % 8, 8 * ty + k % 64 / 8) := fun ty => by
    simp only [inner]
    exact flatMap_range_map tilesX 64 fun tx k => (8 * tx + k % 8, 8 * ty + k / 8)
  rw [tilePositions]
  simp only [middle]
  rw [flatMap_range_map tilesY (tilesX * 64) fun ty k => (8 * (k / 64) + k % 64 % 8, 8 * ty + k % 64 / 8),
    show tilesY * (tilesX * 64) = 64 * (tilesX * tilesY) by ring]
  refine List.map_congr_left fun k _ => ?_
  have e1 : k % (tilesX * 64) / 64 = k / 64 % tilesX := by rw [Nat.mul_comm, Nat.mod_mul_right_div_self]
  have e2 : k % (tilesX * 64) % 64 = k % 64 := Nat.mod_mul_left_mod k tilesX 64
  have e3 : k / (tilesX * 64) = k / 64 / tilesX := by rw [Nat.mul_comm, Nat.div_div_eq_div_mul]
  simp only [e1, e2, e3, tilePos, Prod.mk.injEq]
  omega

/-- The bitmap scan's positions by their number (R142). -/
theorem regionPositions_eq (r : Region) :
    regionPositions r = (List.range (r.rw * r.rh)).map fun k => (r.rx + k % r.rw, r.ry + k / r.rw) := by
  rw [regionPositions, flatMap_range_map r.rh r.rw fun j i => (r.rx + i, r.ry + j), Nat.mul_comm]

section
variable {α : Type} {f : Quant → α → Nat × Quant} {limit : Option Nat} {pos : Nat → α} {qs : Nat → Quant}

/-- A scan none of whose indices is out of range gives them all, and the quantizer after the last call. -/
theorem scanPositions_complete (n o : Nat) (hq : ∀ k, o ≤ k → k < o + n → qs (k + 1) = (f (qs k) (pos k)).2)
    (hl : ∀ k, o ≤ k → k < o + n → overLimit limit (f (qs k) (pos k)).1 = false) :
    scanPositions f limit ((List.range' o n).map pos) (qs o) =
      { indices := (List.range' o n).map fun k => (f (qs k) (pos k)).1, quant := qs (o + n), bad := none } := by
  induction n generalizing o with
  | zero => rfl
  | succ n ih =>
    rw [List.range'_succ, List.map_cons, List.map_cons, scanPositions]
    simp only [hl o (by omega) (by omega), Bool.false_eq_true, if_false]
    rw [← hq o (by omega) (by omega), ih (o + 1) (fun k h1 h2 => hq k (by omega) (by omega))
      fun k h1 h2 => hl k (by omega) (by omega)]
    simp only [show o + 1 + n = o + (n + 1) by omega]

/-- A scan stops at the first index out of range, after that call. -/
theorem scanPositions_stops (n o j : Nat) (h1 : o ≤ j) (h2 : j < o + n)
    (hq : ∀ k, o ≤ k → k ≤ j → qs (k + 1) = (f (qs k) (pos k)).2)
    (hl : ∀ k, o ≤ k → k < j → overLimit limit (f (qs k) (pos k)).1 = false)
    (hb : overLimit limit (f (qs j) (pos j)).1 = true) :
    (scanPositions f limit ((List.range' o n).map pos) (qs o)).bad = some (f (qs j) (pos j)).1 ∧
      (scanPositions f limit ((List.range' o n).map pos) (qs o)).quant = qs (j + 1) := by
  induction n generalizing o with
  | zero => omega
  | succ n ih =>
    rw [List.range'_succ, List.map_cons, scanPositions]
    rcases Nat.eq_or_lt_of_le h1 with rfl | hlt
    · simp only [hb, if_true]
      exact ⟨trivial, (hq o (by omega) (by omega)).symm⟩
    · simp only [hl o (by omega) hlt, Bool.false_eq_true, if_false]
      rw [← hq o (by omega) (by omega)]
      exact ih (o + 1) (by omega) (by omega) (fun k h3 h4 => hq k (by omega) h4) fun k h3 h4 => hl k (by omega) h4

end

/-- A property of the quantizer that every call keeps holds after a scan, and the indices have what the calls give. -/
theorem scanPositions_keeps {α : Type} {f : Quant → α → Nat × Quant} {P : Quant → Prop} {I : Nat → Prop}
    (hf : ∀ q a, P q → P (f q a).2 ∧ I (f q a).1) (limit : Option Nat) (as : List α) (q : Quant) (hq : P q) :
    P (scanPositions f limit as q).quant ∧ (∀ i ∈ (scanPositions f limit as q).indices, I i) ∧
      ∀ i, (scanPositions f limit as q).bad = some i → I i := by
  induction as generalizing q with
  | nil => exact ⟨hq, by simp [scanPositions], by simp [scanPositions]⟩
  | cons a as ih =>
    obtain ⟨h1, h2⟩ := hf q a hq
    rw [scanPositions]
    simp only
    split
    · exact ⟨h1, by simp, fun i hi => by simp at hi; exact hi ▸ h2⟩
    · obtain ⟨i1, i2, i3⟩ := ih _ h1
      exact ⟨i1, fun i hi => by simp at hi; rcases hi with rfl | hi <;> [exact h2; exact i2 i hi], i3⟩

/-- A scan that does not stop gives one index for each position. -/
theorem scanPositions_length {α : Type} {f : Quant → α → Nat × Quant} {limit : Option Nat} {as : List α} {q : Quant}
    (h : (scanPositions f limit as q).bad = none) : (scanPositions f limit as q).indices.length = as.length := by
  induction as generalizing q with
  | nil => rfl
  | cons a as ih =>
    rw [scanPositions] at h ⊢
    simp only at h ⊢
    split at h
    · cases h
    · rename_i hc
      rw [if_neg hc]
      simp [ih h]

/-- A scan without a limit does not stop. -/
theorem scanPositions_none_bad {α : Type} (f : Quant → α → Nat × Quant) (as : List α) (q : Quant) :
    (scanPositions f none as q).bad = none := by
  induction as generalizing q with
  | nil => rfl
  | cons a as ih =>
    rw [scanPositions]
    simp [overLimit, ih]

/-- A scan in a fixed-mode quantizer leaves it alone. -/
theorem scanPositions_fixed {α : Type} {f : Quant → α → Nat × Quant} {q : Quant} (hf : ∀ a, (f q a).2 = q) (limit : Option Nat)
    (as : List α) : (scanPositions f limit as q).quant = q := by
  induction as with
  | nil => rfl
  | cons a as ih =>
    rw [scanPositions]
    simp only [hf]
    split
    · rfl
    · exact ih

theorem packNibbles_length (is : List Nat) : (packNibbles is).length = is.length / 2 := by
  induction is using packNibbles.induct with
  | case1 i0 i1 rest ih => simp only [packNibbles, List.length_cons, ih]; omega
  | case2 is h =>
    match is with
    | [] => rfl
    | [_] => simp [packNibbles]
    | i0 :: i1 :: rest => exact absurd rfl (h i0 i1 rest)

/-- Byte `k` of packed nibbles holds indices 2k and 2k + 1 (R71). -/
theorem packNibbles_getElem? (is : List Nat) (k i0 i1 : Nat) (h0 : is[2 * k]? = some i0) (h1 : is[2 * k + 1]? = some i1) :
    (packNibbles is)[k]? = some (BitVec.ofNat 8 (i0 ||| (i1 <<< 4))) := by
  induction is using packNibbles.induct generalizing k with
  | case1 a b rest ih =>
    rw [packNibbles]
    cases k with
    | zero => simp at h0 h1; simp [h0, h1]
    | succ k =>
      rw [show 2 * (k + 1) = 2 * k + 1 + 1 by ring, List.getElem?_cons_succ, List.getElem?_cons_succ] at h0
      rw [show 2 * (k + 1) + 1 = 2 * k + 1 + 1 + 1 by ring, List.getElem?_cons_succ, List.getElem?_cons_succ] at h1
      rw [List.getElem?_cons_succ]
      exact ih k h0 h1
  | case2 is h =>
    match is with
    | [] => simp at h0
    | [_] => rw [List.getElem?_eq_none (by simp)] at h1; cases h1
    | a :: b :: rest => exact absurd rfl (h a b rest)

/-- Two indices below 16 in one byte (R71). -/
theorem nibbles_toNat {i0 i1 : Nat} (h0 : i0 < 16) (h1 : i1 < 16) : (BitVec.ofNat 8 (i0 ||| (i1 <<< 4))).toNat = i0 + 16 * i1 := by
  rw [Nat.or_comm, ← Nat.shiftLeft_add_eq_or_of_lt (by omega), Nat.shiftLeft_eq, BitVec.toNat_ofNat,
    Nat.mod_eq_of_lt (by omega)]
  omega

end Sys2Proof.Machine
end

