-- ==== Sys2Proof/Laws/Exec.lean ====
section
/-! SUPPORT. Once: everything a command can do. The four ways a command ends are errors before any write, a result, an artifact, and
`UnexpectedPaletteIndex`; each with the length it writes and what happens to the quantizer. -/

namespace Sys2Proof.Machine

theorem not_overflowsOut {s : State} {len : Nat} (h : ¬ overflowsOut s len = true) : s.outbase.toNat + len ≤ s.outSize := by
  simpa [overflowsOut] using h

/-- What the checks of a tile command establish (R121 to R124). -/
theorem tilePlan_ok {d : Bpp} {f : TileFlags} {s : State} {p : TilePlan} (h : tilePlan d f s = .ok p) :
    p = tileLayout d f s ∧ s.outbase.toNat + p.len ≤ s.outSize := by
  unfold tilePlan at h
  simp only at h
  iterate 5 (split at h; · cases h)
  split at h
  · cases h
  · rename_i h6
    cases h
    exact ⟨rfl, not_overflowsOut h6⟩

/-- What the checks of a bitmap command establish (R140 to R142). -/
theorem bmpPlan_ok {e : Nat} {f : BmpFlags} {s : State} {r : Region} (h : bmpPlan e f s = .ok r) :
    r = bmpRegion f s ∧ s.outbase.toNat + r.rw * r.rh * e ≤ s.outSize := by
  unfold bmpPlan at h
  simp only at h
  iterate 3 (split at h; · cases h)
  split at h
  · cases h
  · rename_i h6
    cases h
    exact ⟨rfl, not_overflowsOut h6⟩

/-- What the checks of `FONT` establish (R150, R158), and which errors it gives. -/
theorem fontPlan_ok {s : State} {p : FontPart} (h : fontPlan s = .ok p) :
    s.outbase.toNat + (p.headers.length + p.rows.length) ≤ s.outSize := by
  unfold fontPlan at h
  iterate 3 (split at h; · cases h)
  split at h
  · cases h
  split at h
  · cases h
  · rename_i h6
    cases h
    exact not_overflowsOut h6

/-- The tile scan has 64 positions a tile (R125). -/
theorem tilePositions_length (x y : Nat) : (tilePositions x y).length = 64 * (x * y) := by
  rw [tilePositions_eq, List.length_map, List.length_range]

theorem tileLayout_len0_le (d : Bpp) (f : TileFlags) (s : State) : (tileLayout d f s).len0 ≤ (tileLayout d f s).len := by
  unfold tileLayout
  simp only
  split <;> omega

/-- The artifact of a tile command has the length its checks computed (R124). -/
theorem tileBytes_length {d : Bpp} {f : TileFlags} {s : State} (fill : Byte)
    (h : (tileScan d (tileLayout d f s) s).bad = none) :
    (tileBytes d (tileLayout d f s) fill (tileScan d (tileLayout d f s) s).indices).length = (tileLayout d f s).len := by
  have hl := scanPositions_length h
  rw [tilePositions_length] at hl
  have h0 := tileLayout_len0_le d f s
  have hp : (packIndices d (tileScan d (tileLayout d f s) s).indices).length = (tileLayout d f s).len0 := by
    have e : (tileLayout d f s).len0 = (tileLayout d f s).tilesX * (tileLayout d f s).tilesY * recSize d := rfl
    rw [e]
    generalize (tileLayout d f s).tilesX * (tileLayout d f s).tilesY = n at hl
    cases d
    · simp only [packIndices, packNibbles_length, recSize]
      unfold tileScan; omega
    · simp only [packIndices, List.length_map, recSize]
      unfold tileScan; omega
  rw [tileBytes, List.length_append, hp, List.length_replicate]
  omega

theorem paletteBytes_length (pal : Memory Rgb) (n : Nat) : (paletteBytes pal n).length = 2 * n := by
  simp [paletteBytes, List.length_flatMap, Nat.mul_comm]

theorem bmpColours_length (img : Image) (r : Region) : (bmpColours img r).length = r.rw * r.rh * 2 := by
  simp [bmpColours, regionPositions_eq, List.length_flatMap, Function.comp_def]

theorem indexAt_fixed {img : Image} {pad : Byte} {q : Quant} (hm : q.qstate.mode = .nearestFixed) (pos : Nat × Nat) :
    (tileIndex img pad q pos).2 = q := by
  unfold tileIndex
  split
  · rw [classify_fixed _ hm]
  · rfl

theorem tileIndex_ok (img : Image) (pad : Byte) (q : Quant) (pos : Nat × Nat) (h : q.Ok) :
    (tileIndex img pad q pos).2.Ok ∧ (tileIndex img pad q pos).1 < 256 := by
  unfold tileIndex
  split
  · exact classify_ok _ h
  · exact ⟨h, pad.isLt⟩

/-- The command is no constructor of the quantizer. -/
abbrev notConstructor (i : Instr) : Prop := (∀ n, i ≠ .qfix n) ∧ ∀ n, i ≠ .qinc n

/-- A quantizer a command may leave: legal if it was legal, and the same in fixed mode unless the command constructs it. -/
structure QuantAfter (i : Instr) (s : State) (q : Quant) : Prop where
  ok    : s.quant.Ok → q.Ok
  fixed : s.qstate.mode = .nearestFixed → notConstructor i → q = s.quant

theorem quantAfter_self (i : Instr) (s : State) : QuantAfter i s s.quant := ⟨id, fun _ _ => rfl⟩

/-- Everything a command can do. -/
inductive ExecCases (i : Instr) (s : State) : State → Prop where
  /-- An error before any write (R172, R173). -/
  | failed (e : ErrName) (info : Word) (he : e ≠ .unexpectedPaletteIndex) (hf : isFatalError e = true → i = .font)
      (h0 : windowLength i s = 0) :
      ExecCases i s (endWithError e info s)
  /-- A command without an artifact (R171). -/
  | result (q : Quant) (r : Word) (hq : QuantAfter i s q) (h0 : windowLength i s = 0)
      (hr : i ≠ .qcls → i ≠ .cvt15 → r = s.result) (hb : s.quant.Ok → r = s.result ∨ r.toNat < 2 ^ 15) :
      ExecCases i s (complete { s.withQuant q with result := r })
  /-- A command with an artifact (R42, R171). -/
  | artifact (q : Quant) (bs : List Byte) (r0 r1 : Nat) (hq : QuantAfter i s q) (hl : bs.length = windowLength i s)
      (hw : s.outbase.toNat + bs.length ≤ s.outSize) (hi : i ≠ .qcls ∧ i ≠ .cvt15) :
      ExecCases i s (finishArtifact bs r0 r1 (s.withQuant q))
  /-- `UnexpectedPaletteIndex` (R132, R180). -/
  | badIndex (q : Quant) (info : Word) (len : Nat) (hq : QuantAfter i s q) (hl : len = windowLength i s)
      (hw : s.outbase.toNat + len ≤ s.outSize) (hi : i ≠ .qcls ∧ i ≠ .cvt15) :
      ExecCases i s (endWithError .unexpectedPaletteIndex info (havocOut s.outbase.toNat len (s.withQuant q)))

theorem execQfix_cases (n : BitVec 9) (s : State) : ∃ t, execQfix n s = .next t ∧ ExecCases (.qfix n) s t := by
  unfold execQfix
  split
  · exact ⟨_, rfl, .failed _ _ (by decide) (fun h => (by cases h)) rfl⟩
  · rename_i h
    rw [not_or, Nat.not_lt, Nat.not_lt] at h
    obtain ⟨h1, h2⟩ := h
    refine ⟨_, rfl, .result { qstate := { mode := .nearestFixed, count := n, cap := n }, pal := s.pal } s.result
      ⟨fun h => ⟨⟨h1, le_refl _, h2, fun _ => rfl, fun h => (by cases h)⟩, h.wf, h.keys, fun h => (by cases h)⟩, ?_⟩
      rfl (fun _ _ => rfl) fun _ => .inl rfl⟩
    exact fun _ h => absurd rfl (h.1 n)

theorem execQinc_cases (n : BitVec 9) (s : State) : ∃ t, execQinc n s = .next t ∧ ExecCases (.qinc n) s t := by
  unfold execQinc
  split
  · rename_i h
    exact ⟨_, rfl, .failed _ _ (by decide) (fun h => (by cases h)) rfl⟩
  · rename_i h
    rw [not_or, Nat.not_lt, Nat.not_lt] at h
    obtain ⟨h1, h2⟩ := h
    refine ⟨_, rfl, .result
      { qstate := { mode := .incrementalNaive, count := 1#9, cap := n }, pal := Memory.set s.pal 0 { r := 0#8, g := 0#8, b := 0#8 } }
      s.result ⟨fun h => ⟨⟨by simp, by simp; omega, h2, fun h => (by cases h), fun _ => h1⟩, Memory.set_wf h.wf _ _,
        Memory.setBlock_bounded h.keys (.inr (by simp)), fun _ i hi => ?_⟩, ?_⟩
      rfl (fun _ _ => rfl) fun _ => .inl rfl⟩
    · have : i = 0 := by simp at hi; omega
      rw [this, Memory.get?_set]; rfl
    · exact fun _ h => absurd rfl (h.2 n)

theorem execQcls_cases (s : State) : ∃ t, execQcls s = .next t ∧ ExecCases .qcls s t := by
  refine ⟨_, rfl, .result (classify s.quant (pixelOfWord s.pixel)).2 _
    ⟨fun h => (classify_ok _ h).1, fun hm _ => by rw [classify_fixed _ hm]⟩ rfl
    (fun h => absurd rfl h) fun h => .inr ?_⟩
  have := (classify_ok (pixelOfWord s.pixel) h).2
  rw [BitVec.toNat_ofNat, Nat.mod_eq_of_lt (by omega)]
  omega

theorem execCvt15_cases (s : State) : ∃ t, execCvt15 s = .next t ∧ ExecCases .cvt15 s t := by
  refine ⟨_, rfl, .result s.quant _ (quantAfter_self _ s) rfl (fun _ h => absurd rfl h) fun _ => .inr ?_⟩
  have h := to15_toNat (pixelRgb (pixelOfWord s.pixel))
  have h1 := (pixelRgb (pixelOfWord s.pixel)).r.isLt
  have h2 := (pixelRgb (pixelOfWord s.pixel)).g.isLt
  have h3 := (pixelRgb (pixelOfWord s.pixel)).b.isLt
  rw [BitVec.toNat_setWidth, h]
  omega

theorem execPalx_cases (s : State) : ∃ t, execPalx s = .next t ∧ ExecCases .palx s t := by
  unfold execPalx
  split
  · rename_i e h
    refine ⟨_, rfl, .failed _ _ ?_ ?_ (by simp only [windowLength, h])⟩ <;> (unfold palxPlan at h; split at h <;> cases h; decide)
  · rename_i len h
    have hp : len = 2 * s.qstate.count.toNat ∧ s.outbase.toNat + 2 * s.qstate.count.toNat ≤ s.outSize := by
      unfold palxPlan at h
      split at h
      · cases h
      · rename_i h6; cases h; exact ⟨rfl, not_overflowsOut h6⟩
    refine ⟨_, rfl, .artifact s.quant _ _ _ (quantAfter_self _ s) ?_ ?_ ⟨by simp, by simp⟩⟩
    · simp only [windowLength, h, paletteBytes_length, hp.1]
    · rw [paletteBytes_length]; exact hp.2

theorem tilePlan_error {d : Bpp} {f : TileFlags} {s : State} {e : ErrName} (h : tilePlan d f s = .error e) :
    e ≠ .unexpectedPaletteIndex ∧ isFatalError e = false := by
  unfold tilePlan at h
  simp only at h
  iterate 6 (split at h; · cases h; exact ⟨by decide, rfl⟩)
  cases h

theorem bmpPlan_error {n : Nat} {f : BmpFlags} {s : State} {e : ErrName} (h : bmpPlan n f s = .error e) :
    e ≠ .unexpectedPaletteIndex ∧ isFatalError e = false := by
  unfold bmpPlan at h
  simp only at h
  iterate 4 (split at h; · cases h; exact ⟨by decide, rfl⟩)
  cases h

/-- What the two tile commands share, for the command `i` whose window the plan gives. -/
theorem runTile_cases (d : Bpp) (f : TileFlags) (s : State) (i : Instr) (hi : i ≠ .qcls ∧ i ≠ .cvt15)
    (hfoot : ∀ p, tilePlan d f s = .ok p → windowLength i s = p.len)
    (hnone : ∀ e, tilePlan d f s = .error e → windowLength i s = 0) : ExecCases i s (runTile d f s) := by
  unfold runTile
  split
  · rename_i e h
    have := tilePlan_error h
    exact .failed _ _ this.1 (by rw [this.2]; exact fun h => (by cases h)) (hnone e h)
  · rename_i p h
    obtain ⟨rfl, hw⟩ := tilePlan_ok h
    have hq : QuantAfter i s (tileScan d (tileLayout d f s) s).quant :=
      ⟨fun ho => (scanPositions_keeps (P := Quant.Ok) (I := fun n => n < 256) (fun q a h => tileIndex_ok _ _ q a h) _ _ _ ho).1,
       fun hm _ => scanPositions_fixed (fun a => indexAt_fixed hm a) _ _⟩
    simp only
    split
    · exact .badIndex _ _ _ hq (hfoot _ h).symm hw hi
    · rename_i hb
      refine .artifact _ _ _ _ hq ?_ ?_ hi
      · rw [tileBytes_length _ hb, hfoot _ h]
      · rw [tileBytes_length _ hb]; exact hw

theorem execTile4_cases (f : TileFlags) (s : State) : ∃ t, execTile4 f s = .next t ∧ ExecCases (.tile4 f) s t :=
  ⟨_, rfl, runTile_cases .four f s _ ⟨by simp, by simp⟩ (fun p h => by simp only [windowLength, h])
    fun e h => by simp only [windowLength, h]⟩

theorem execTile8_cases (f : TileFlags) (s : State) : ∃ t, execTile8 f s = .next t ∧ ExecCases (.tile8 f) s t :=
  ⟨_, rfl, runTile_cases .eight f s _ ⟨by simp, by simp⟩ (fun p h => by simp only [windowLength, h])
    fun e h => by simp only [windowLength, h]⟩

theorem execBmpi_cases (f : BmpFlags) (s : State) : ∃ t, execBmpi f s = .next t ∧ ExecCases (.bmpi f) s t := by
  unfold execBmpi
  split
  · rename_i e h
    have := bmpPlan_error h
    exact ⟨_, rfl, .failed _ _ this.1 (by rw [this.2]; exact fun h => (by cases h)) (by simp only [windowLength, h])⟩
  · rename_i r h
    obtain ⟨rfl, hw⟩ := bmpPlan_ok h
    have hlen : (bmpScan (bmpRegion f s) s).indices.length = (bmpRegion f s).rw * (bmpRegion f s).rh := by
      have := scanPositions_length (scanPositions_none_bad (fun q pos => classify q (imgPixel s.img pos.1 pos.2))
        (regionPositions (bmpRegion f s)) s.quant)
      rw [regionPositions_eq, List.length_map, List.length_range] at this
      rw [bmpScan, regionPositions_eq]; exact this
    refine ⟨_, rfl, .artifact _ _ _ _ ⟨fun ho => ?_, fun hm _ => ?_⟩ ?_ ?_ ⟨by simp, by simp⟩⟩
    · exact (scanPositions_keeps (P := Quant.Ok) (I := fun n => n < 256) (fun q a h => classify_ok _ h) _ _ _ ho).1
    · exact scanPositions_fixed (fun a => by rw [classify_fixed _ hm]) _ _
    · rw [List.length_map, hlen]; simp only [windowLength, h]
    · rw [List.length_map, hlen]; omega

theorem execBmpc_cases (f : BmpFlags) (s : State) : ∃ t, execBmpc f s = .next t ∧ ExecCases (.bmpc f) s t := by
  unfold execBmpc
  split
  · rename_i e h
    have := bmpPlan_error h
    exact ⟨_, rfl, .failed _ _ this.1 (by rw [this.2]; exact fun h => (by cases h)) (by simp only [windowLength, h])⟩
  · rename_i r h
    obtain ⟨rfl, hw⟩ := bmpPlan_ok h
    refine ⟨_, rfl, .artifact s.quant _ _ _ (quantAfter_self _ s) ?_ ?_ ⟨by simp, by simp⟩⟩
    · rw [bmpColours_length]; simp only [windowLength, h]
    · rw [bmpColours_length]; exact hw

theorem packGlyph_error {img : Image} {cw ch base : Nat} {c : Cell} {e : ErrName × Word}
    (h : packGlyph img cw ch base c = .error e) : e.1 = .fontInvariant ∨ e.1 = .fontOffsetOverflow := by
  unfold packGlyph at h
  split at h
  · cases h
  split at h
  · cases h; exact .inl rfl
  split at h
  · cases h; exact .inr rfl
  · cases h

theorem packGlyphs_error {img : Image} {cw ch base : Nat} {cs : List Cell} {e : ErrName × Word}
    (h : packGlyphs img cw ch base cs = .error e) : e.1 = .fontInvariant ∨ e.1 = .fontOffsetOverflow := by
  induction cs generalizing base with
  | nil => cases h
  | cons c cs ih =>
    rw [packGlyphs] at h
    split at h
    · rename_i e' h'; cases h; exact packGlyph_error h'
    split at h
    · rename_i e' h'; cases h; exact ih h'
    · cases h

theorem fontPlan_error {s : State} {e : ErrName × Word} (h : fontPlan s = .error e) : e.1 ≠ .unexpectedPaletteIndex := by
  unfold fontPlan at h
  iterate 3 (split at h; · cases h; decide)
  split at h
  · rename_i h'
    cases h
    rcases packGlyphs_error h' with h | h <;> rw [h] <;> decide
  split at h
  · cases h; decide
  · cases h

theorem execFont_cases (s : State) : ∃ t, execFont s = .next t ∧ ExecCases .font s t := by
  unfold execFont
  split
  · rename_i e h
    exact ⟨_, rfl, .failed _ _ (fontPlan_error h) (fun _ => rfl) (by simp only [windowLength, h])⟩
  · rename_i p h
    refine ⟨_, rfl, .artifact s.quant _ _ _ (quantAfter_self _ s) ?_ ?_ ⟨by simp, by simp⟩⟩
    · simp only [windowLength, h, List.length_append]
    · rw [List.length_append]; exact fontPlan_ok h

/-- EVERYTHING A COMMAND CAN DO, for every command: it gives a next state, and that is one of the four ways a command ends. -/
theorem exec_cases (i : Instr) (s : State) : ∃ t, exec i s = .next t ∧ ExecCases i s t := by
  cases i with
  | qfix n => exact execQfix_cases n s
  | qinc n => exact execQinc_cases n s
  | qcls => exact execQcls_cases s
  | cvt15 => exact execCvt15_cases s
  | palx => exact execPalx_cases s
  | tile4 f => exact execTile4_cases f s
  | tile8 f => exact execTile8_cases f s
  | bmpi f => exact execBmpi_cases f s
  | bmpc f => exact execBmpc_cases f s
  | font => exact execFont_cases s

end Sys2Proof.Machine
end

