-- ==== Sys2Proof/Laws/Font.lean ====
section
/-! SUPPORT. The font packer: cells by glyph number, the tight box, the packed glyphs and their layout. -/

namespace Sys2Proof.Machine

/-- Blocks laid out one after another, `P k` being where block `k` begins: their length. -/
theorem flatMap_range_length {α : Type} (f : Nat → List α) (P : Nat → Nat) (h0 : P 0 = 0) (hs : ∀ k, P (k+1) = P k + (f k).length) (n : Nat) :
    ((List.range n).flatMap f).length = P n := by
  induction n with
  | zero => simp [h0]
  | succ n ih => rw [List.range_succ, List.flatMap_append, List.length_append, ih, hs]; simp

/-- The same blocks: byte `j` of block `g`. -/
theorem flatMap_range_getElem? {α : Type} (f : Nat → List α) (P : Nat → Nat) (h0 : P 0 = 0) (hs : ∀ k, P (k+1) = P k + (f k).length) (n g j : Nat)
    (hg : g < n) (hj : j < (f g).length) : ((List.range n).flatMap f)[P g + j]? = (f g)[j]? := by
  induction n with
  | zero => omega
  | succ n ih =>
    rw [List.range_succ, List.flatMap_append]
    have hl := flatMap_range_length f P h0 hs n
    rcases Nat.lt_or_ge g n with h | h
    · have hmono : P (g+1) ≤ P n := by
        clear ih hl hg
        obtain ⟨m, rfl⟩ := Nat.exists_eq_add_of_le (show g + 1 ≤ n from h)
        clear h
        induction m with
        | zero => exact le_refl _
        | succ m ih => have := hs (g+1+m); rw [show g + 1 + (m+1) = g+1+m+1 by omega]; omega
      rw [List.getElem?_append_left (by rw [hl]; have := hs g; omega)]; exact ih h
    · obtain rfl : g = n := by omega
      rw [List.getElem?_append_right (by rw [hl]; omega), hl]
      simp

/-- A sum of distinct powers of two has exactly those bits (R155). -/
theorem sum_two_pow_testBit (p : Nat → Bool) (n : Nat) : (((List.range n).map fun i => if p i then 2^i else 0).sum < 2^n) ∧
    ∀ i, (((List.range n).map fun i => if p i then 2^i else 0).sum).testBit i = (decide (i < n) && p i) := by
  induction n with
  | zero => simp
  | succ n ih =>
    obtain ⟨h1, h2⟩ := ih
    rw [List.range_succ, List.map_append, List.sum_append]
    simp only [List.map_cons, List.map_nil, List.sum_cons, List.sum_nil, Nat.add_zero]
    refine ⟨?_, fun i => ?_⟩
    · split <;> rw [Nat.pow_succ] <;> omega
    · by_cases hp : p n = true
      · rw [if_pos hp, Nat.add_comm]
        rcases Nat.lt_trichotomy i n with h | h | h
        · rw [Nat.testBit_two_pow_add_gt h, h2]; simp [h, show i < n + 1 by omega]
        · subst h; rw [Nat.testBit_two_pow_add_eq, h2]; simp [hp]
        · rw [Nat.testBit_lt_two_pow]
          · simp [show ¬ i < n + 1 by omega]
          · have : 2^(n+1) ≤ 2^i := Nat.pow_le_pow_right (by decide) h
            rw [Nat.pow_succ] at this; omega
      · rw [if_neg hp, Nat.add_zero, h2]
        rcases Nat.lt_trichotomy i n with h | h | h
        · simp [h, show i < n + 1 by omega]
        · subst h; simp [hp]
        · simp [show ¬ i < n by omega, show ¬ i < n + 1 by omega]

theorem Box.violates_iff (b : Box) : b.violates = true ↔ 12 < b.w ∨ 12 < b.h ∨ 15 < b.yMin := by
  unfold Box.violates
  rw [Bool.or_eq_true, Bool.or_eq_true, decide_eq_true_eq, decide_eq_true_eq, decide_eq_true_eq, or_assoc]; exact Iff.rfl
theorem rectInside_rectRegion (s : State) : rectInside s (rectRegion s) = true ↔ s.rectX.toNat + s.rectW.toNat ≤ s.img.width.toNat ∧ s.rectY.toNat + s.rectH.toNat ≤ s.img.height.toNat := by
  show (decide _ && decide _) = true ↔ _
  simp only [Bool.and_eq_true, decide_eq_true_eq]; exact Iff.rfl
theorem fontInvariantInfo_eq (g : Nat) (b : Box) : fontInvariantInfo g b = BitVec.ofNat 32 (g % 65536 + 65536 * (if 12 < b.w then 1 else 0)
        + 131072 * (if 12 < b.h then 1 else 0) + 262144 * (if 15 < b.yMin then 1 else 0)) := by
  show BitVec.ofNat 32 (g % 65536 + (if 12 < b.w then 65536 else 0) + (if 12 < b.h then 131072 else 0) + (if 15 < b.yMin then 262144 else 0)) = _
  congr 1
  split <;> split <;> split <;> rfl

/-- The cell of glyph `g` (R151). -/
def glyphCell (s : State) (g : Nat) : Cell := { g := g, cellX := s.rectX.toNat + g % fontCols s * s.cellW.toNat, cellY := s.rectY.toNat + g / fontCols s * s.cellH.toNat }

/-- The cells by glyph number (R151). -/
theorem fontCells_eq (s : State) : fontCells s = (List.range s.glyphCount).map (glyphCell s) := by
  rw [fontCells, flatMap_range_map (fontRows s) (fontCols s) fun i j => ({ g := i * fontCols s + j, cellX := s.rectX.toNat + j * s.cellW.toNat, cellY := s.rectY.toNat + i * s.cellH.toNat } : Cell)]
  rw [show fontRows s * fontCols s = s.glyphCount from Nat.mul_comm _ _]
  refine List.map_congr_left fun k _ => ?_
  simp only [glyphCell, Nat.div_add_mod']

/-- The set pixels of a glyph's cell (R152). -/
theorem mem_setPixels (s : State) (g u v : Nat) : (u, v) ∈ setPixels s.img s.cellW.toNat s.cellH.toNat (glyphCell s g) ↔ s.glyphSet g u v = true := by
  simp only [setPixels, List.mem_flatMap, List.mem_range, List.mem_map, List.mem_filter, Prod.mk.injEq]
  simp only [State.glyphSet, Bool.and_eq_true, decide_eq_true_eq]
  constructor
  · rintro ⟨a, ha, b, ⟨hb, hc⟩, rfl, rfl⟩; exact ⟨⟨hb, ha⟩, hc⟩
  · rintro ⟨⟨hb, ha⟩, hc⟩; exact ⟨v, ha, u, ⟨hb, hc⟩, rfl, rfl⟩

/-- The tight box of a list of pixels (R153). -/
def BoxOfList (l : List (Nat × Nat)) (b : Box) : Prop :=
  (∀ p ∈ l, b.xMin ≤ p.1 ∧ p.1 ≤ b.xMax ∧ b.yMin ≤ p.2 ∧ p.2 ≤ b.yMax) ∧
   (∃ p ∈ l, p.1 = b.xMin) ∧ (∃ p ∈ l, p.1 = b.xMax) ∧ (∃ p ∈ l, p.2 = b.yMin) ∧ (∃ p ∈ l, p.2 = b.yMax)

theorem BoxOfList.snoc {l : List (Nat × Nat)} {b : Box} (h : BoxOfList l b) (p : Nat × Nat) : BoxOfList (l ++ [p]) (b.widen p) := by
  obtain ⟨h1, ⟨a, ha, ea⟩, ⟨c, hc, ec⟩, ⟨d, hd, ed⟩, ⟨e, he, ee⟩⟩ := h
  simp only [Box.widen]
  refine ⟨fun q hq => ?_, ?_, ?_, ?_, ?_⟩
  · rcases List.mem_append.mp hq with hq | hq
    · have := h1 q hq; simp only; omega
    · rw [List.mem_singleton.mp hq]; simp only; omega
  · rcases Nat.le_total b.xMin p.1 with h | h
    · exact ⟨a, by simp [ha], by simp only; omega⟩
    · exact ⟨p, by simp, by simp only; omega⟩
  · rcases Nat.le_total p.1 b.xMax with h | h
    · exact ⟨c, by simp [hc], by simp only; omega⟩
    · exact ⟨p, by simp, by simp only; omega⟩
  · rcases Nat.le_total b.yMin p.2 with h | h
    · exact ⟨d, by simp [hd], by simp only; omega⟩
    · exact ⟨p, by simp, by simp only; omega⟩
  · rcases Nat.le_total p.2 b.yMax with h | h
    · exact ⟨e, by simp [he], by simp only; omega⟩
    · exact ⟨p, by simp, by simp only; omega⟩

theorem BoxOfList.foldl {l l' : List (Nat × Nat)} {b : Box} (h : BoxOfList l b) : BoxOfList (l ++ l') (l'.foldl Box.widen b) := by
  induction l' generalizing l b with
  | nil => simpa using h
  | cons p ps ih => have := ih (h.snoc p); simpa using this

/-- The packer's box is the tight one, and there is none exactly for no pixels (R153). -/
theorem boxOf_spec (l : List (Nat × Nat)) : (l = [] ∧ boxOf l = none) ∨ ∃ b, boxOf l = some b ∧ BoxOfList l b := by
  cases l with
  | nil => exact .inl ⟨rfl, rfl⟩
  | cons p ps =>
    refine .inr ⟨_, rfl, ?_⟩
    have : BoxOfList [p] { xMin := p.1, xMax := p.1, yMin := p.2, yMax := p.2 } := by
      refine ⟨by simp, ?_, ?_, ?_, ?_⟩ <;> exact ⟨p, by simp, rfl⟩
    exact this.foldl (l' := ps)

theorem BoxOfList.unique {l : List (Nat × Nat)} {b b' : Box} (h : BoxOfList l b) (h' : BoxOfList l b') : b = b' := by
  obtain ⟨h1, ⟨a, ha, ea⟩, ⟨c, hc, ec⟩, ⟨d, hd, ed⟩, ⟨e, he, ee⟩⟩ := h
  obtain ⟨g1, ⟨a', ha', ea'⟩, ⟨c', hc', ec'⟩, ⟨d', hd', ed'⟩, ⟨e', he', ee'⟩⟩ := h'
  have := h1 a' ha'; have := h1 c' hc'; have := h1 d' hd'; have := h1 e' he'
  have := g1 a ha; have := g1 c hc; have := g1 d hd; have := g1 e he
  obtain ⟨x1, x2, y1, y2⟩ := b; obtain ⟨x1', x2', y1', y2'⟩ := b'
  simp only [Box.mk.injEq] at *; omega

theorem glyphBox_iff (s : State) (g : Nat) (b : Box) : s.glyphBox g b ↔ BoxOfList (setPixels s.img s.cellW.toNat s.cellH.toNat (glyphCell s g)) b := by
  unfold State.glyphBox BoxOfList
  constructor
  · rintro ⟨h, ⟨a, ha⟩, ⟨c, hc⟩, ⟨d, hd⟩, ⟨e, he⟩⟩
    exact ⟨fun p hp => h _ _ ((mem_setPixels s g _ _).mp hp), ⟨_, (mem_setPixels s g _ _).mpr ha, rfl⟩, ⟨_, (mem_setPixels s g _ _).mpr hc, rfl⟩, ⟨_, (mem_setPixels s g _ _).mpr hd, rfl⟩, ⟨_, (mem_setPixels s g _ _).mpr he, rfl⟩⟩
  · rintro ⟨h, ⟨⟨_, a⟩, ha, rfl⟩, ⟨⟨_, c⟩, hc, e2⟩, ⟨⟨d, _⟩, hd, e3⟩, ⟨⟨e, _⟩, he, e4⟩⟩
    simp only at e2 e3 e4
    subst e2 
    refine ⟨fun u v hu => h (u, v) ((mem_setPixels s g _ _).mpr hu), ⟨_, (mem_setPixels s g _ _).mp ha⟩, ⟨_, (mem_setPixels s g _ _).mp hc⟩, ⟨d, ?_⟩, ⟨e, ?_⟩⟩
    · rw [← e3]; exact (mem_setPixels s g _ _).mp hd
    · rw [← e4]; exact (mem_setPixels s g _ _).mp he

theorem glyphBlank_iff (s : State) (g : Nat) : s.glyphBlank g ↔ setPixels s.img s.cellW.toNat s.cellH.toNat (glyphCell s g) = [] := by
  rw [List.eq_nil_iff_forall_not_mem]
  constructor
  · intro h ⟨u, v⟩ hm
    rw [mem_setPixels] at hm
    exact absurd hm (by rw [h u v]; decide)
  · intro h u v
    have := h (u, v)
    rw [mem_setPixels] at this
    simpa using this

/-- A glyph with a box is not blank (R153). -/
theorem glyphBox_not_blank {s : State} {g : Nat} {b : Box} (h : s.glyphBox g b) : ¬ s.glyphBlank g := by
  obtain ⟨_, ⟨v, h⟩, _⟩ := h
  intro hb
  rw [hb] at h
  cases h

/-- Every glyph is blank or has a bounding box (R153). -/
theorem glyph_blank_or_box (s : State) (g : Nat) : s.glyphBlank g ∨ ∃ b, s.glyphBox g b := by
  rcases boxOf_spec (setPixels s.img s.cellW.toNat s.cellH.toNat (glyphCell s g)) with h | ⟨b, -, h⟩
  · exact .inl ((glyphBlank_iff s g).mpr h.1)
  · exact .inr ⟨b, (glyphBox_iff s g b).mpr h⟩

/-- A glyph has one bounding box (R153). -/
theorem glyphBox_unique {s : State} {g : Nat} {b b' : Box} (h : s.glyphBox g b) (h' : s.glyphBox g b') : b = b' :=
  ((glyphBox_iff s g b).mp h).unique ((glyphBox_iff s g b').mp h')

/-- The box the packer finds is the glyph's box (R153). -/
theorem boxOf_boxes {s : State} {boxes : Nat → Option Box} (h : s.glyphBoxes boxes) {g : Nat} (hg : g < s.glyphCount) :
    boxOf (setPixels s.img s.cellW.toNat s.cellH.toNat (glyphCell s g)) = boxes g := by
  have := h g hg
  cases hb : boxes g with
  | none => rw [hb] at this; rw [(glyphBlank_iff s g).mp this]; rfl
  | some b =>
    rw [hb] at this
    rcases boxOf_spec (setPixels s.img s.cellW.toNat s.cellH.toNat (glyphCell s g)) with h | ⟨b', h', hx⟩
    · exact absurd ((glyphBlank_iff s g).mpr h.1) (glyphBox_not_blank this)
    · rw [h', hx.unique ((glyphBox_iff s g b).mp this)]

/-- The header of glyph `g` (R156). -/
def glyphHeaderBytes (s : State) (boxes : Nat → Option Box) (g : Nat) : List Byte :=
  match boxes g with
  | none => [0#8, 0#8, 0#8, 0#8]
  | some b => glyphHeader b (s.glyphOffset boxes g)
/-- The row data of glyph `g` (R155). -/
def glyphRowData (s : State) (boxes : Nat → Option Box) (g : Nat) : List Byte :=
  match boxes g with
  | none => []
  | some b => glyphRows s.img (glyphCell s g) b

theorem rowBytes_length (b : Box) (v : Nat) : (rowBytes b.w v).length = boxRowSize b := by
  unfold rowBytes boxRowSize; split <;> rfl

theorem glyphRows_length (img : Image) (c : Cell) (b : Box) : (glyphRows img c b).length = b.h * boxRowSize b := by
  rw [glyphRows, flatMap_range_length (fun t => rowBytes b.w (rowValue img c b t)) (fun t => t * boxRowSize b) (by simp) (fun k => by rw [rowBytes_length]; ring)]

theorem glyphRowData_length (s : State) (boxes : Nat → Option Box) (g : Nat) : rowBytesBefore boxes (g+1) = rowBytesBefore boxes g + (glyphRowData s boxes g).length := by
  simp only [rowBytesBefore, glyphRowData]
  cases boxes g with
  | none => rfl
  | some b => simp only [glyphRows_length]

theorem glyphHeaderBytes_length (s : State) (boxes : Nat → Option Box) (g : Nat) : (glyphHeaderBytes s boxes g).length = 4 := by
  unfold glyphHeaderBytes; cases boxes g <;> rfl

/-- A glyph that fits contributes its header and its rows (R155, R156). -/
theorem packGlyph_ok {s : State} {boxes : Nat → Option Box} (h : s.glyphBoxes boxes) {g : Nat} (hg : g < s.glyphCount) (hf : s.glyphFits boxes g) :
    packGlyph s.img s.cellW.toNat s.cellH.toNat (s.glyphOffset boxes g) (glyphCell s g) = .ok { headers := glyphHeaderBytes s boxes g, rows := glyphRowData s boxes g } := by
  unfold packGlyph
  rw [boxOf_boxes h hg]
  cases hb : boxes g with
  | none => simp only [glyphHeaderBytes, glyphRowData, hb]
  | some b =>
    obtain ⟨h1, h2, h3, h4⟩ := hf b hb
    simp only [glyphHeaderBytes, glyphRowData, hb]
    rw [if_neg (by rw [Box.violates_iff]; omega), if_neg (by simp [Config.maxGlyphOffset]; omega)]

theorem glyphOffset_succ (s : State) (boxes : Nat → Option Box) (g : Nat) : s.glyphOffset boxes g + (glyphRowData s boxes g).length = s.glyphOffset boxes (g+1) := by
  unfold State.glyphOffset; rw [glyphRowData_length s boxes g]; omega

/-- Glyphs that all fit (R158). -/
theorem packGlyphs_all {s : State} {boxes : Nat → Option Box} (h : s.glyphBoxes boxes) (n o : Nat) (hn : o + n ≤ s.glyphCount)
   (hf : ∀ g, o ≤ g → g < o + n → s.glyphFits boxes g) :
   packGlyphs s.img s.cellW.toNat s.cellH.toNat (s.glyphOffset boxes o) ((List.range' o n).map (glyphCell s)) =
    .ok { headers := (List.range' o n).flatMap (glyphHeaderBytes s boxes), rows := (List.range' o n).flatMap (glyphRowData s boxes) } := by
  induction n generalizing o with
  | zero => rfl
  | succ n ih =>
    rw [List.range'_succ, List.map_cons, packGlyphs, packGlyph_ok h (by omega) (hf o (by omega) (by omega))]
    simp only
    rw [glyphOffset_succ, ih (o+1) (by omega) (fun g h1 h2 => hf g (by omega) (by omega))]
    simp

/-- The first glyph with an error ends the packing (R154, R157). -/
theorem packGlyphs_error_at {s : State} {boxes : Nat → Option Box} (h : s.glyphBoxes boxes) (n o g : Nat) (e : ErrName × Word) (ho : o ≤ g) (hg : g < o + n) (hn : o + n ≤ s.glyphCount)
   (hf : ∀ g', o ≤ g' → g' < g → s.glyphFits boxes g')
   (he : packGlyph s.img s.cellW.toNat s.cellH.toNat (s.glyphOffset boxes g) (glyphCell s g) = .error e) :
   packGlyphs s.img s.cellW.toNat s.cellH.toNat (s.glyphOffset boxes o) ((List.range' o n).map (glyphCell s)) = .error e := by
  induction n generalizing o with
  | zero => omega
  | succ n ih =>
    rw [List.range'_succ, List.map_cons, packGlyphs]
    rcases Nat.eq_or_lt_of_le ho with rfl | hlt
    · rw [he]
    · rw [packGlyph_ok h (by omega) (hf o (by omega) hlt)]
      simp only
      rw [glyphOffset_succ, ih (o+1) (by omega) (by omega) (by omega) (fun g h1 h2 => hf g (by omega) (by omega))]

theorem glyphOffset_zero (s : State) (boxes : Nat → Option Box) : Config.fontHdrBytes * (fontRows s * fontCols s) = s.glyphOffset boxes 0 := by
  unfold State.glyphOffset State.glyphCount fontRows fontCols Config.fontHdrBytes rowBytesBefore
  rw [Nat.mul_comm (s.rectH.toNat / _)]; rfl

/-- Bit `c` of the bytes of a row is the pixel at column `c` of the box (R155). -/
theorem rowBytes_getLsbD (img : Image) (cc : Cell) (b : Box) (t c : Nat) (hc : c < 8 * boxRowSize b) :
   ∃ v, (rowBytes b.w (rowValue img cc b t))[c / 8]? = some v ∧ v.getLsbD (c % 8) = (decide (c < b.w) && cellSet img cc (b.xMin + c) (b.yMin + t)) := by
  have hb := (sum_two_pow_testBit (fun i => cellSet img cc (b.xMin + i) (b.yMin + t)) b.w).2 c
  have e : (List.map (fun i => if cellSet img cc (b.xMin + i) (b.yMin + t) = true then 2 ^ i else 0) (List.range b.w)).sum = rowValue img cc b t := rfl
  rw [e] at hb
  unfold rowBytes
  unfold boxRowSize at hc
  split at hc
  · rename_i hw
    rw [if_pos hw]
    rcases Nat.lt_or_ge c 8 with h | h
    · refine ⟨_, by rw [show c / 8 = 0 by omega]; rfl, ?_⟩
      rw [show c % 8 = c by omega, ← hb]
      simp [BitVec.getLsbD_ofNat, h]; omega
    · refine ⟨_, by rw [show c / 8 = 1 by omega]; rfl, ?_⟩
      rw [← hb]
      simp [BitVec.getLsbD_ofNat, Nat.mod_lt, show 8 + c % 8 = c by omega]; omega
  · rename_i hw
    rw [if_neg hw]
    refine ⟨_, by rw [show c / 8 = 0 by omega]; rfl, ?_⟩
    rw [← hb, show c % 8 = c by omega]
    simp [BitVec.getLsbD_ofNat]; omega

end Sys2Proof.Machine
end

