-- ==== Sys2Proof/Laws/PerInstr.lean ====
section
/-! SUPPORT. Facts about every command as syntax, one lemma per constructor. -/

namespace Sys2Proof.Laws

/-- The opcode of a command (R63). -/
def opcodeOf : Instr → BitVec 8
  | .qfix _ => 0x01#8
  | .qinc _ => 0x02#8
  | .qcls => 0x03#8
  | .cvt15 => 0x04#8
  | .palx => 0x05#8
  | .tile4 _ => 0x08#8
  | .tile8 _ => 0x08#8
  | .bmpi _ => 0x09#8
  | .bmpc _ => 0x09#8
  | .font => 0x0A#8

/-- The encoded word has reserved bits 0 and the command's opcode (R60, R63, R66). -/
def EncodedOpcode.Statement (i : Instr) : Prop := rsvField (encode i) = 0#7 ∧ opcField (encode i) = opcodeOf i

theorem EncodedOpcode.qfix (n : BitVec 9) : EncodedOpcode.Statement (.qfix n) := ⟨by simp [encode], by simp [encode, opcodeOf]⟩
theorem EncodedOpcode.qinc (n : BitVec 9) : EncodedOpcode.Statement (.qinc n) := ⟨by simp [encode], by simp [encode, opcodeOf]⟩
theorem EncodedOpcode.qcls : EncodedOpcode.Statement .qcls := ⟨by simp [encode], by simp [encode, opcodeOf]⟩
theorem EncodedOpcode.cvt15 : EncodedOpcode.Statement .cvt15 := ⟨by simp [encode], by simp [encode, opcodeOf]⟩
theorem EncodedOpcode.palx : EncodedOpcode.Statement .palx := ⟨by simp [encode], by simp [encode, opcodeOf]⟩
theorem EncodedOpcode.tile4 (f : TileFlags) : EncodedOpcode.Statement (.tile4 f) := ⟨by simp [encode], by simp [encode, opcodeOf]⟩
theorem EncodedOpcode.tile8 (f : TileFlags) : EncodedOpcode.Statement (.tile8 f) := ⟨by simp [encode], by simp [encode, opcodeOf]⟩
theorem EncodedOpcode.bmpi (f : BmpFlags) : EncodedOpcode.Statement (.bmpi f) := ⟨by simp [encode], by simp [encode, opcodeOf]⟩
theorem EncodedOpcode.bmpc (f : BmpFlags) : EncodedOpcode.Statement (.bmpc f) := ⟨by simp [encode], by simp [encode, opcodeOf]⟩
theorem EncodedOpcode.font : EncodedOpcode.Statement .font := ⟨by simp [encode], by simp [encode, opcodeOf]⟩

end Sys2Proof.Laws
end

