-- ==== Sys2Proof/Laws/Tile.lean ====
section
/-! SUPPORT. The tile commands: their checks as one chain, what a plan that passes establishes, and their scan in closed form. -/

namespace Sys2Proof.Machine

/-- The checks of a tile command, in the terms claims use (R121 to R124). -/
theorem tilePlan_eq (d : Bpp) (f : TileFlags) (s : State) : tilePlan d f s =
  if s.img.valid = false then .error .invalidImage
  else if imageEmpty s ∧ f.allowEmpty = false then .error .emptyImage
  else if (s.img.width.toNat % 8 ≠ 0 ∨ s.img.height.toNat % 8 ≠ 0) ∧ f.padDim = false then .error .unexpectedImageSize
  else if 65535 < s.tilesX * s.tilesY then .error .imageTooLarge
  else if f.fitEn = true ∧ s.tilearg.fitBlk.toNat * blkTiles d < s.tilesX * s.tilesY then .error .tooManyTiles
  else if overflowsOut s (s.tileLength f (recSize d)) then .error .outputOverflow
  else .ok (tileLayout d f s) := rfl

/-- A tile command whose operands pass every check has its plan. -/
theorem tilePlan_of_checks (d : Bpp) (f : TileFlags) (s : State) (h1 : s.tileImageOk f) (h2 : s.tileCountOk f (blkTiles d))
    (h3 : s.outbase.toNat + s.tileLength f (recSize d) ≤ s.outSize) : tilePlan d f s = .ok (tileLayout d f s) := by
  obtain ⟨a1, a2, a3⟩ := h1
  obtain ⟨b1, b2⟩ := h2
  rw [tilePlan_eq]
  rw [if_neg (by simp [a1]), if_neg (by simp [imageEmpty]; exact a2), if_neg (by rintro ⟨h, h'⟩; rw [a3 h] at h'; cases h'),
    if_neg (by omega), if_neg (by rintro ⟨h, h'⟩; have := b2 h; omega), if_neg (by simp [overflowsOut]; omega)]

/-- A plan means that every check passed. -/
theorem tilePlan_ok_checks {d : Bpp} {f : TileFlags} {s : State} {p : TilePlan} (h : tilePlan d f s = .ok p) :
   s.tileImageOk f ∧ s.tileCountOk f (blkTiles d) ∧ s.outbase.toNat + s.tileLength f (recSize d) ≤ s.outSize := by
  rw [tilePlan_eq] at h
  by_cases c1 : s.img.valid = false
  · rw [if_pos c1] at h; cases h
  rw [if_neg c1] at h
  by_cases c2 : imageEmpty s = true ∧ f.allowEmpty = false
  · rw [if_pos c2] at h; cases h
  rw [if_neg c2] at h
  by_cases c3 : (s.img.width.toNat % 8 ≠ 0 ∨ s.img.height.toNat % 8 ≠ 0) ∧ f.padDim = false
  · rw [if_pos c3] at h; cases h
  rw [if_neg c3] at h
  by_cases c4 : 65535 < s.tilesX * s.tilesY
  · rw [if_pos c4] at h; cases h
  rw [if_neg c4] at h
  by_cases c5 : f.fitEn = true ∧ s.tilearg.fitBlk.toNat * blkTiles d < s.tilesX * s.tilesY
  · rw [if_pos c5] at h; cases h
  rw [if_neg c5] at h
  by_cases c6 : overflowsOut s (s.tileLength f (recSize d)) = true
  · rw [if_pos c6] at h; cases h
  refine ⟨⟨by simpa using c1, fun he => ?_, fun he => ?_⟩, ⟨by omega, fun he => ?_⟩, not_overflowsOut c6⟩
  · by_contra hc; exact c2 ⟨by simpa [imageEmpty] using he, by simpa using hc⟩
  · by_contra hc; exact c3 ⟨he, by simpa using hc⟩
  · by_contra hc; exact c5 ⟨he, by omega⟩

/-- The scan of a tile command none of whose indices is out of range (R125 to R127). -/
theorem tileScan_complete (d : Bpp) (f : TileFlags) (s : State) (h : ∀ k < 64 * (s.tilesX * s.tilesY), overLimit (indexLimit d) (s.tileIdx k) = false) :
    tileScan d (tileLayout d f s) s = { indices := (List.range (64 * (s.tilesX * s.tilesY))).map s.tileIdx, quant := s.tileQuant (64 * (s.tilesX * s.tilesY)), bad := none } := by
  have := scanPositions_complete (f := tileIndex s.img s.tilearg.padIdx) (limit := indexLimit d) (qs := s.tileQuant)
    (pos := tilePos s.tilesX) (64 * (s.tilesX * s.tilesY)) 0 (fun k _ _ => rfl) (fun k _ hk => h k (by omega))
  rw [← List.range_eq_range', Nat.zero_add] at this
  rw [tileScan, tilePositions_eq]; exact this

/-- The scan of `TILE4` stops at the first index that is not below 16, after that call (R126). -/
theorem tileScan_stops (f : TileFlags) (s : State) {k : Nat} (hk : k < 64 * (s.tilesX * s.tilesY)) (hbad : 16 ≤ s.tileIdx k)
    (hpre : ∀ j < k, s.tileIdx j < 16) :
    (tileScan .four (tileLayout .four f s) s).bad = some (s.tileIdx k) ∧
      (tileScan .four (tileLayout .four f s) s).quant = s.tileQuant (k + 1) := by
  have hs := scanPositions_stops (f := tileIndex s.img s.tilearg.padIdx) (limit := indexLimit .four) (qs := s.tileQuant)
    (pos := tilePos s.tilesX) (64 * (s.tilesX * s.tilesY)) 0 k (by omega) (by omega) (fun k _ _ => rfl)
    (fun j _ hj => by
      show overLimit (indexLimit .four) (s.tileIdx j) = false
      simpa [overLimit, indexLimit, Config.palMax4] using hpre j hj)
    (by
      show overLimit (indexLimit .four) (s.tileIdx k) = true
      simpa [overLimit, indexLimit, Config.palMax4] using hbad)
  rw [← List.range_eq_range', ← tilePositions_eq] at hs
  exact hs

/-- The artifact is at least its records (R124). -/
theorem tileLength_ge (s : State) (f : TileFlags) (r : Nat) : s.tilesX * s.tilesY * r ≤ s.tileLength f r := by
  unfold State.tileLength; split <;> omega

theorem tileQuant_legal (s : State) (h : QState.legal s.qstate) (k : Nat) : QState.legal (s.tileQuant k).qstate := by
  induction k with
  | zero => exact h
  | succ k ih =>
    show QState.legal (s.indexAt (s.tileQuant k) _).2.qstate
    unfold State.indexAt
    split
    · exact (classify_legal _ ih).1
    · exact ih

/-- Every index of the scan is below 256 (R95, R127). -/
theorem tileIdx_lt (s : State) (h : QState.legal s.qstate) (k : Nat) : s.tileIdx k < 256 := by
  unfold State.tileIdx State.indexAt
  split
  · exact (classify_legal _ (tileQuant_legal s h k)).2
  · exact s.tilearg.padIdx.isLt

end Sys2Proof.Machine
end

