-- ==== Sys2Proof/Tests/Slice0.lean ====
section
/-! SUPPORT. The model's own tests. Expected values come from the spec: the encodings of R60 to R67, the tables of
95_test_vectors.md (named V-…, §2.7, P1 to P5), or a hand calculation named in the comment. The theorems `witness_…` give, for an
obligation with hypotheses, a state and operands that meet them. -/

namespace Sys2Proof.Tests

open Sys2Proof Sys2Proof.Machine

/-! ## Helpers -/

/-- The state a command leaves, or the state before it where it gives none. -/
def after (i : Instr) (s : State) : State :=
  match exec i s with
  | .next t => t
  | .fault _ => s
  | .refused _ => s

/-- The state after a number of steps. -/
def steps (n : Nat) (s : State) : State :=
  match Sys2Proof.core.run n s with
  | .next t => t
  | .fault _ => s
  | .refused _ => s

/-- An image of one colour, and of listed pixels over one colour. -/
def imageOf (w h : Word) (bg : Pixel) (cells : Memory Pixel) : Image :=
  { valid := true, width := w, height := h, bg := bg, cells := cells }

def opaqueRgb (r g b : Byte) : Pixel := { r := r, g := g, b := b, a := 255#8 }

def white : Pixel := opaqueRgb 255#8 255#8 255#8
def black : Pixel := opaqueRgb 0#8 0#8 0#8
def red : Pixel := opaqueRgb 255#8 0#8 0#8

/-- `PALETTE5` of 95_test_vectors.md after `QFIX 5`. -/
def palette5 : State :=
  { State.reset with
    pal := [(0, ⟨0#8, 0#8, 0#8⟩), (1, ⟨255#8, 255#8, 255#8⟩), (2, ⟨255#8, 0#8, 0#8⟩), (3, ⟨0#8, 255#8, 0#8⟩),
      (4, ⟨0#8, 255#8, 255#8⟩)]
    qstate := { mode := .nearestFixed, count := 5#9, cap := 5#9 } }

/-- A state in which a command is in progress. -/
def busyWith (w : Word) (agenda : List Event) : State := { acceptCommand w State.reset with agenda := agenda }

/-- A state after a fatal font violation. -/
def fatalState (agenda : List Event) : State :=
  { State.reset with status := fatalStatus .fontInvariant, errinfo := 0x00010000#32, cmd := 0x0000000A#32, agenda := agenda }

def noTileFlags : TileFlags := { allowEmpty := false, padDim := false, fitEn := false, padFit := false }

/-! ## Well-formedness -/

theorem test_wellFormed_refuses_tile4_padFit_alone :
    (Instr.tile4 { noTileFlags with padFit := true }).wellFormed = false := by decide

theorem test_wellFormed_refuses_tile8_padFit_alone :
    (Instr.tile8 { noTileFlags with padFit := true }).wellFormed = false := by decide

/-! ## Decoding: words written out from R60 to R65, and the tables of R67 and §2.7 -/

/-- RSV 0000000, IMM9 000000101, FLG 00000000, OPC 00000001. -/
theorem test_decode_qfix : decode 0b00000000000001010000000000000001#32 = .ok (.qfix 5#9) := by decide
/-- IMM9 100000000: the greatest legal size. -/
theorem test_decode_qinc : decode 0b00000001000000000000000000000010#32 = .ok (.qinc 256#9) := by decide
theorem test_decode_qcls : decode 0b00000000000000000000000000000011#32 = .ok .qcls := by decide
theorem test_decode_cvt15 : decode 0b00000000000000000000000000000100#32 = .ok .cvt15 := by decide
theorem test_decode_palx : decode 0b00000000000000000000000000000101#32 = .ok .palx := by decide
/-- FLG 00011100: PAD_DIM, FIT_EN, PAD_FIT; OPC 00001000. -/
theorem test_decode_tile4 : decode 0b00000000000000000001110000001000#32 =
    .ok (.tile4 { allowEmpty := false, padDim := true, fitEn := true, padFit := true }) := by decide
/-- FLG 00000011: BPP8, ALLOW_EMPTY. -/
theorem test_decode_tile8 : decode 0b00000000000000000000001100001000#32 =
    .ok (.tile8 { noTileFlags with allowEmpty := true }) := by decide
/-- FLG 00000010: ALLOW_EMPTY; OPC 00001001. -/
theorem test_decode_bmpi : decode 0b00000000000000000000001000001001#32 =
    .ok (.bmpi { allowEmpty := true, useRect := false }) := by decide
/-- FLG 00000101: COLOR, USE_RECT. -/
theorem test_decode_bmpc : decode 0b00000000000000000000010100001001#32 =
    .ok (.bmpc { allowEmpty := false, useRect := true }) := by decide
theorem test_decode_font : decode 0b00000000000000000000000000001010#32 = .ok .font := by decide

/-- The illegal words of §2.7. -/
theorem test_decode_refuses :
    [0x00000000#32, 0x00000006#32, 0x00000007#32, 0x0000000B#32, 0x000000FF#32].map decode =
      List.replicate 5 (.error .unknownOpcode) ∧
    decode 0x02000003#32 = .error .reservedBits ∧ decode 0x00000103#32 = .error .flagsNotZero ∧
    decode 0x00010003#32 = .error .immediateNotZero ∧ decode 0x00050101#32 = .error .flagsNotZero ∧
    decode 0x00002008#32 = .error .reservedFlags ∧ decode 0x00000809#32 = .error .reservedFlags ∧
    decode 0x00001008#32 = .error .padFitWithoutFitEn := by decide

theorem test_decodeTableWord : decodeTableWord 32 0x00100002 = some (.qinc 16#9) ∧ decodeTableWord 32 0x0000000B = none := by decide

theorem test_withFetchWord_runs : (steps 1 (State.reset.withFetchWord 32 0x00050001)).qstate =
    { mode := .nearestFixed, count := 5#9, cap := 5#9 } := by decide

/-! ## Quantizer -/

/-- V-QFIX-14, V-QFIX-15. -/
theorem test_qfix_refuses_sizes :
    statusWord (after (.qfix 0#9) State.reset).status = 0x00000B06#32 ∧ (after (.qfix 257#9) State.reset).errinfo = 0x101#32 := by
  decide
/-- V-QFIX-16. -/
theorem test_qfix_256 : qstateWord (after (.qfix 256#9) State.reset).qstate = 0x01000100#32 := by decide
/-- R97: after `QINC 16`. V-QINC-6: `QINC 1`. -/
theorem test_qinc : qstateWord (after (.qinc 16#9) State.reset).qstate = 0x80100001#32 ∧
    palGet (after (.qinc 16#9) State.reset).pal 0 = ⟨0#8, 0#8, 0#8⟩ ∧
    (after (.qinc 1#9) State.reset).errinfo = 1#32 := by decide
/-- V-QFIX-1 and V-QFIX-3, the tie. -/
theorem test_qcls_fixed : (after .qcls { palette5 with pixel := 0xFF0000FF#32 }).result = 2#32 ∧
    (after .qcls { palette5 with pixel := 0xFF000000#32 }).result = 2#32 := by decide
/-- V-QINC-1. -/
theorem test_qcls_incremental :
    (qclsStream [0xFF1E140A#32, 0xFF0000C8#32, 0xFF1E140A#32, 0x80000000#32, 0xFFFA0000#32, 0xFF0A0ABE#32]
      (after (.qinc 4#9) State.reset)).map (fun r => (r.1, qstateWord r.2.qstate)) =
      some ([1#32, 2#32, 1#32, 0#32, 3#32, 2#32], 0x80040004#32) := by decide

/-! ## Depth converter and palette export -/

/-- V-CVT-6 and V-CVT-8. -/
theorem test_cvt15 : (after .cvt15 { State.reset with pixel := 0xFF181008#32 }).result = 0x00000C41#32 ∧
    (after .cvt15 { State.reset with pixel := 0x003264C8#32 }).result = 0x00001999#32 := by decide
/-- R112: the example, at `OUTBASE` = 1. -/
theorem test_palx :
    let t := after .palx { palette5 with outbase := 1#32, qstate := { mode := .nearestFixed, count := 3#9, cap := 3#9 } };
    t.out = [(1, 0#8), (2, 0#8), (3, 0xFF#8), (4, 0x7F#8), (5, 0x1F#8), (6, 0#8)] ∧ t.outlen = 6#32 ∧ t.res0 = 3#32 := by decide
/-- V-PALX-3. -/
theorem test_palx_overflow :
    statusWord (after .palx { State.reset with outTop := 15, outbase := 15#32 }).status = 0x00000C06#32 := by decide

/-! ## Tile encoder -/

/-- R130: an image whose only pixel classifies to 2, the rest of the tile being the pad index 5. -/
theorem test_tile4_pads :
    let t := after (.tile4 { noTileFlags with padDim := true })
      { palette5 with img := imageOf 1#32 1#32 red [], tilearg := { padIdx := 5#8, fill := 0#8, fitBlk := 0#8 } };
    t.out.take 2 = [(0, 0x52#8), (1, 0x55#8)] ∧ t.outlen = 32#32 ∧ t.res0 = 1#32 := by decide
/-- V-TILE-PAD, `PADIDX` = 16. -/
theorem test_tile4_raises :
    let t := after (.tile4 { noTileFlags with padDim := true })
      { palette5 with img := imageOf 9#32 1#32 red [], tilearg := { padIdx := 16#8, fill := 0#8, fitBlk := 0#8 } };
    statusWord t.status = 0x00000706#32 ∧ t.errinfo = 0x10#32 ∧ t.outlen = 0#32 := by decide
/-- V-TILE-PAD, `TILE8`: the pixel, then the pad index, at `OUT[0]` and `OUT[8]`. -/
theorem test_tile8_pads :
    let t := after (.tile8 { noTileFlags with padDim := true })
      { palette5 with img := imageOf 8#32 1#32 red [], tilearg := { padIdx := 16#8, fill := 0#8, fitBlk := 0#8 } };
    outGet t.out 0 = 2#8 ∧ outGet t.out 8 = 16#8 ∧ t.outlen = 64#32 := by decide
/-- V-TILE-LIMITS. -/
theorem test_tile_limits :
    statusWord (after (.tile4 noTileFlags) { State.reset with img := imageOf 8#32 524288#32 red [] }).status = 0x00000506#32 ∧
    statusWord (after (.tile4 { noTileFlags with allowEmpty := true })
      { State.reset with img := imageOf 0#32 5#32 red [] }).status = 0x00000406#32 := by decide

/-! ## Bitmap encoder -/

/-- Image `B32` of §2.5. -/
def b32 : Image :=
  imageOf 3#32 2#32 white
    [(0, red), (1, opaqueRgb 0#8 255#8 0#8), (2, ⟨0#8, 0#8, 255#8, 0#8⟩), (4294967297, black),
      (4294967298, opaqueRgb 8#8 16#8 24#8)]

/-- V-BMP-1. -/
theorem test_bmpi : (after (.bmpi { allowEmpty := false, useRect := false }) { palette5 with img := b32 }).out =
    [(0, 2#8), (1, 3#8), (2, 0#8), (3, 1#8), (4, 2#8), (5, 3#8)] := by decide
/-- V-BMP-3. -/
theorem test_bmpi_rect :
    let t := after (.bmpi { allowEmpty := false, useRect := true })
      { palette5 with img := b32, rectX := 1#32, rectW := 2#32, rectH := 2#32 };
    t.out = [(0, 3#8), (1, 0#8), (2, 2#8), (3, 3#8)] ∧ t.res0 = 2#32 := by decide
/-- V-BMP-4. -/
theorem test_bmpc_rect :
    let t := after (.bmpc { allowEmpty := false, useRect := true })
      { State.reset with img := b32, rectX := 2#32, rectY := 1#32, rectW := 1#32, rectH := 1#32, outbase := 16#32 };
    t.out = [(16, 0x41#8), (17, 0x0C#8)] ∧ t.outlen = 2#32 ∧ t.res1 = 1#32 := by decide
/-- V-BMP-9. -/
theorem test_bmpc_no_wrap :
    statusWord (after (.bmpc { allowEmpty := false, useRect := true })
      { State.reset with img := b32, rectX := 0xFFFFFFFF#32, rectW := 2#32, rectH := 1#32 }).status = 0x00000306#32 := by decide

/-! ## Font packer -/

/-- V-FONT-3. -/
theorem test_font_set_predicate :
    (after .font { State.reset with
      img := imageOf 4#32 1#32 black [(0, ⟨255#8, 255#8, 255#8, 254#8⟩), (2, opaqueRgb 0#8 0#8 1#8), (3, ⟨0#8, 0#8, 0#8, 0#8⟩)]
      cellW := 4#32, cellH := 1#32, rectW := 4#32, rectH := 1#32 }).out =
      [(0, 0x11#8), (1, 0#8), (2, 4#8), (3, 0#8), (4, 1#8)] := by decide
/-- V-FONT-4, the first row. -/
theorem test_font_fatal :
    let t := after .font { State.reset with
      img := imageOf 13#32 1#32 white [], cellW := 13#32, cellH := 1#32, rectW := 13#32, rectH := 1#32 }
    statusWord t.status = 0x0000080E#32 ∧ t.errinfo = 0x00010000#32 ∧ t.out = [] := by decide

/-! ## Host accesses and reset -/

/-- P1: `WRPAL 2, 255,0,0`, read back. -/
theorem test_pal_write_read :
    (steps 2 { State.reset with agenda := [.hostWrite 0x408 4 0xAB0000FF#32, .hostRead 0x408 4] }).rdata = .word 0xFF#32 := by decide
/-- §2.7: `IllegalCommand` for the all-zero word, as the host reads it. -/
theorem test_illegal_command_status :
    (steps 3 { State.reset with agenda := [.hostWrite 0 4 0#32, .blockTurn, .hostRead 4 4] }).rdata = .word 0x00000A06#32 := by
  decide
/-- P5: a `CMD` write to a fatal block is dropped; reset returns the block to service. -/
theorem test_fatal_until_reset :
    (steps 1 (fatalState [.hostWrite 0 4 3#32])).cmd = 0x0000000A#32 ∧
    statusWord (steps 2 (fatalState [.reset true, .reset false])).status = 0#32 := by decide

/-! ## Witnesses -/

theorem witness_DecodeOfEncodeIsTheCommand :
    (Instr.tile4 { noTileFlags with fitEn := true, padFit := true }).wellFormed = true := by decide

theorem witness_EncodeOfDecodeIsTheWord : decode 0x00000709#32 = .ok (.bmpc { allowEmpty := true, useRect := true }) := by decide

theorem witness_IllegalWordsRaiseIllegalCommand :
    let s := { State.reset with agenda := [.hostWrite 0 4 0x00001008#32, .blockTurn] };
    decode 0x00001008#32 = .error .padFitWithoutFitEn ∧ s.idle ∧ s.rst = false ∧
      s.agenda = .hostWrite 0 4 0x00001008#32 :: .blockTurn :: [] := by decide

theorem witness_StepRunsTheDecodedCommand :
    (busyWith 3#32 []).status.busy = true ∧ (busyWith 3#32 []).rst = false ∧ decode (busyWith 3#32 []).cmd = .ok .qcls ∧
      (busyWith 3#32 []).agenda = [] ∧ (busyWith 3#32 [.blockTurn]).agenda = .blockTurn :: [] := by decide

theorem witness_PlacedWordRunsNext : (Instr.tile8 noTileFlags).wellFormed = true := by decide

theorem witness_IdleBlockWaits :
    State.reset.status.busy = false ∧ State.reset.agenda = [] ∧
      ({ busyWith 3#32 [.blockTurn] with rst := true }).rst = true := by decide

theorem witness_CmdWriteAcceptsWhenIdle :
    let s := { State.reset with agenda := [.hostWrite 0 4 3#32] };
    s.idle ∧ s.rst = false ∧ s.agenda = .hostWrite 0 4 3#32 :: [] := by decide

/-- Busy, at a register and at the last palette entry; fatal, at `CMD`; held in reset, at either window. -/
theorem witness_DroppedWritesChangeNothing :
    (busyWith 3#32 [.hostWrite 0x0C 4 1#32]).status.busy = true ∧ (busyWith 3#32 [.hostWrite 0x7FC 4 1#32]).status.busy = true ∧
      0x7FC % 4 = 0 ∧ (fatalState [.hostWrite 0 4 3#32]).status.fatal = true ∧
      (fatalState [.hostWrite 0 4 3#32]).rst = false ∧
      (∀ e ∈ [Event.hostWrite 0 4 3#32, .hostWrite 6 2 1#32, .outWrite 65536 [1#8]],
        ({ State.reset with rst := true, agenda := [e] }).rst = true ∧
          ({ State.reset with rst := true, agenda := [e] }).agenda = e :: []) := by decide

/-- The first and the last operand register, `TILEARG`, and the first and the last palette entry; a fatal block too. -/
theorem witness_OperandWritesReadBack :
    let s := fun off => fatalState [.hostWrite off 4 5#32, .hostRead off 4];
    (∀ off ∈ [0x0C, 0x30, 0x2C, 0x400, 0x7FC], (s off).status.busy = false ∧ (s off).rst = false ∧
      (s off).agenda = .hostWrite off 4 5#32 :: .hostRead off 4 :: []) ∧
    0x0C ∈ [0x0C, 0x14, 0x18, 0x1C, 0x20, 0x24, 0x28, 0x30] ∧ 0x30 ∈ [0x0C, 0x14, 0x18, 0x1C, 0x20, 0x24, 0x28, 0x30] ∧
    (0x400 ≤ 0x400 ∧ 0x400 < 0x800 ∧ 0x400 % 4 = 0) ∧ 0x400 ≤ 0x7FC ∧ 0x7FC < 0x800 ∧ 0x7FC % 4 = 0 := by decide

theorem witness_OperandWritesAreLocal :
    let s := fun off => { State.reset with agenda := [.hostWrite off 4 5#32] };
    ∀ off ∈ [0x0C, 0x14, 0x18, 0x1C, 0x20, 0x24, 0x28, 0x2C, 0x30, 0x400 + 4 * 0, 0x400 + 4 * 255],
      (s off).status.busy = false ∧ (s off).rst = false ∧ (s off).agenda = .hostWrite off 4 5#32 :: [] := by decide

theorem witness_UnassignedOffsetsReadZero :
    State.reset.rst = false ∧ (∀ off ∈ [0x44, 0x3FC, 0x800], off % 4 = 0 ∧ ((0x44 ≤ off ∧ off ≤ 0x3FC) ∨ 0x800 ≤ off)) := by
  decide

theorem witness_ReadOnlyRegistersIgnoreWrites :
    let s := { State.reset with agenda := [.hostWrite 0x40 4 5#32] };
    s.rst = false ∧ 0x40 ∈ [0x04, 0x08, 0x10, 0x34, 0x38, 0x3C, 0x40] ∧ s.agenda = .hostWrite 0x40 4 5#32 :: [] := by decide

theorem witness_RegisterReadsReturnTheRegister :
    ∀ off ∈ [0x00, 0x04, 0x08, 0x0C, 0x10, 0x14, 0x18, 0x1C, 0x20, 0x24, 0x28, 0x2C, 0x30, 0x34, 0x38, 0x3C, 0x40, 0x400 + 4 * 0,
        0x400 + 4 * 255],
      (fatalState [.hostRead off 4]).rst = false ∧ (fatalState [.hostRead off 4]).status.busy = false ∧
        (fatalState [.hostRead off 4]).agenda = .hostRead off 4 :: [] := by decide

theorem witness_ReadsHaveNoSideEffect :
    (∃ t, step (busyWith 3#32 [.hostRead 0x0C 4]) = .next t) ∧ (∃ t, step (busyWith 3#32 [.outRead 0 2]) = .next t) ∧
      ∃ t, step (busyWith 3#32 [.outWrite 0 [1#8]]) = .next t := ⟨⟨_, rfl⟩, ⟨_, rfl⟩, ⟨_, rfl⟩⟩

/-- The last bytes of `OUT`, and one byte too many. -/
theorem witness_OutReadReturnsTheBytes :
    let s := fun n => { State.reset with agenda := [.outRead 65534 n] };
    (s 2).status.busy = false ∧ (s 2).rst = false ∧ (s 2).agenda = .outRead 65534 2 :: [] ∧ 65534 + 2 ≤ (s 2).outSize ∧
      (s 3).status.busy = false ∧ (s 3).rst = false ∧ (s 3).agenda = .outRead 65534 3 :: [] ∧ (s 3).outSize < 65534 + 3 := by
  decide

theorem witness_UnalignedAccessIsRefused :
    let s := fun e => { State.reset with agenda := [e] };
    (s (.hostRead 4 2)).rst = false ∧ (s (.hostRead 4 2)).agenda = .hostRead 4 2 :: [] ∧ 2 ≠ 4 ∧
      (s (.hostWrite 6 4 0#32)).agenda = .hostWrite 6 4 0#32 :: [] ∧ 6 % 4 ≠ 0 := by decide

theorem witness_ImageChangesOnlyWhenNotBusy :
    ({ State.reset with agenda := [.present b32] }).status.busy = false ∧
      (busyWith 3#32 [.present b32]).status.busy = true ∧ b32 ≠ (busyWith 3#32 [.present b32]).img := by decide

theorem witness_ResetReleaseGivesResetRegisters :
    let s := { palette5 with rst := true, agenda := [.reset false] };
    s.rst = true ∧ s.agenda = .reset false :: [] := by decide

theorem witness_ResetWhenNotBusyKeepsMemories :
    (fatalState [.reset true]).status.busy = false ∧ (fatalState [.reset true]).agenda = .reset true :: [] := by decide

theorem witness_ResetAbandonsTheCommandInProgress :
    (busyWith 5#32 [.reset true]).status.busy = true ∧ (busyWith 5#32 [.reset true]).agenda = .reset true :: [] ∧
      decode (busyWith 5#32 [.reset true]).cmd = .ok .palx ∧ (busyWith 0#32 [.reset true]).status.busy = true ∧
      (busyWith 0#32 [.reset true]).agenda = .reset true :: [] ∧
      decode (busyWith 0#32 [.reset true]).cmd = .error .unknownOpcode := by decide

theorem witness_FatalIsLeftOnlyByReset :
    let s := fatalState [.hostWrite 0 4 3#32];
    s.status.fatal = true ∧ s.status.busy = false ∧ s.rst = false ∧ (∀ rest, s.agenda ≠ .reset true :: rest) ∧
      ∃ t, step s = .next t :=
  ⟨rfl, rfl, rfl, fun _ h => Event.noConfusion (List.cons.inj h).1, _, rfl⟩

/-- One state for each change of condition. -/
theorem witness_ConditionsChangeOnlyByTheirEvents :
    (∃ t, step { State.reset with agenda := [.hostWrite 0 4 3#32] } = .next t ∧ t.status.busy = true) ∧
    (∃ t, step (busyWith 3#32 []) = .next t ∧ t.status.busy = false) ∧
    (∃ t, step { busyWith 0x0000000A#32 [] with
      img := imageOf 13#32 1#32 white [], cellW := 13#32, cellH := 1#32, rectW := 13#32, rectH := 1#32 } = .next t ∧
        t.status.fatal = true) ∧
    ∃ t, step (fatalState [.reset true]) = .next t ∧ t.status.fatal = false :=
  ⟨⟨_, rfl, rfl⟩, ⟨_, rfl, rfl⟩, ⟨_, rfl, rfl⟩, ⟨_, rfl, rfl⟩⟩

theorem witness_EveryStepKeepsTheInvariant : State.Inv State.reset ∧ ∃ t, step State.reset = .next t :=
  ⟨⟨by decide, by decide, ⟨by decide, by decide, by decide, by decide⟩, by decide, by decide, by decide⟩, _, rfl⟩

theorem witness_CommandsWriteOnlyTheirWindow : ∃ t, exec .palx palette5 = .next t := ⟨_, rfl⟩

theorem witness_FailedCommandsLeaveMemoriesAlone :
    palette5.status.err = false ∧ ∃ t, exec (.qfix 0#9) palette5 = .next t ∧ t.status.err = true ∧ t.status.errcode ≠ 7#4 :=
  ⟨rfl, _, rfl, rfl, by decide⟩

theorem witness_FixedQuantizerIsStateless :
    palette5.qstate.mode = .nearestFixed ∧ (∀ n, Instr.qcls ≠ .qfix n) ∧ (∀ n, Instr.qcls ≠ .qinc n) ∧
      ∃ t, exec .qcls palette5 = .next t := ⟨rfl, by simp, by simp, _, rfl⟩

theorem witness_OnlyFontIsFatal :
    let s := { State.reset with img := imageOf 13#32 1#32 white [], cellW := 13#32, cellH := 1#32, rectW := 13#32, rectH := 1#32 };
    s.status.fatal = false ∧ ∃ t, exec .font s = .next t ∧ t.status.fatal = true := ⟨rfl, _, rfl, rfl⟩

/-- Opaque black, with black at entry 2 (S9). -/
theorem witness_TransparencyIsByAlphaAlone :
    let q : Quant := { qstate := { mode := .nearestFixed, count := 3#9, cap := 3#9 }, pal := [(1, ⟨9#8, 9#8, 9#8⟩), (2, ⟨0#8, 0#8, 0#8⟩)] };
    black.a = 255#8 ∧ 2 ≤ q.qstate.count.toNat ∧ palGet q.pal 2 = { r := 0#8, g := 0#8, b := 0#8 } ∧
      pixelRgb black = { r := 0#8, g := 0#8, b := 0#8 } ∧ (⟨0#8, 0#8, 0#8, 254#8⟩ : Pixel).a ≠ 255#8 := by decide

theorem witness_FixedClassifyIsNearestAndStateless :
    palette5.quant.qstate.mode = .nearestFixed ∧ 2 ≤ palette5.quant.qstate.count.toNat ∧
      State.reset.quant.qstate.mode = .nearestFixed ∧ State.reset.quant.qstate.count.toNat ≤ 1 ∧ red.a = 255#8 := by decide

/-- The ends of the legal ranges and the numbers beyond them. -/
theorem witness_QfixConstructsFixedQuantizer :
    (1 ≤ (1#9).toNat ∧ (1#9).toNat ≤ 256) ∧ (1 ≤ (256#9).toNat ∧ (256#9).toNat ≤ 256) ∧ (0#9).toNat < 1 ∧ 256 < (257#9).toNat := by
  decide

theorem witness_QincConstructsIncrementalQuantizer :
    (2 ≤ (2#9).toNat ∧ (2#9).toNat ≤ 256) ∧ (2 ≤ (256#9).toNat ∧ (256#9).toNat ≤ 256) ∧ (1#9).toNat < 2 ∧ 256 < (257#9).toNat := by
  decide

theorem witness_QclsTransparentPixelIsZero : (pixelOfWord { palette5 with pixel := 0xFE0000FF#32 }.pixel).a ≠ 255#8 := by decide

/-- Also meets `QclsExactMatchGivesLeastEntry` with entry 2. -/
theorem witness_QclsFixedGivesNearestEntry :
    let s := { palette5 with pixel := 0xFF0000FF#32 };
    (pixelOfWord s.pixel).a = 255#8 ∧ s.qstate.mode = .nearestFixed ∧ 2 ≤ s.qstate.count.toNat ∧
      palGet s.pal 2 = pixelRgb (pixelOfWord s.pixel) ∧ ∀ j < 2, 1 ≤ j → palGet s.pal j ≠ pixelRgb (pixelOfWord s.pixel) := by
  decide

theorem witness_QclsExactMatchGivesLeastEntry :
    let s := { palette5 with pixel := 0xFF0000FF#32 };
    (pixelOfWord s.pixel).a = 255#8 ∧ s.qstate.mode = .nearestFixed ∧ 1 ≤ 2 ∧ 2 < s.qstate.count.toNat ∧
      palGet s.pal 2 = pixelRgb (pixelOfWord s.pixel) ∧ ∀ j < 2, 1 ≤ j → palGet s.pal j ≠ pixelRgb (pixelOfWord s.pixel) := by
  decide

theorem witness_QclsOneEntryPaletteGivesZero :
    let s := { State.reset with pixel := 0xFF030201#32 };
    (pixelOfWord s.pixel).a = 255#8 ∧ s.qstate.mode = .nearestFixed ∧ s.qstate.count.toNat = 1 := by decide

/-- An incremental quantizer with the colours `cA` and `cB` of §2.2 recorded. -/
def twoRecorded (cap : BitVec 9) (px : Word) : State :=
  { State.reset with
    pixel := px
    pal := [(0, ⟨0#8, 0#8, 0#8⟩), (1, ⟨10#8, 20#8, 30#8⟩), (2, ⟨200#8, 0#8, 0#8⟩)]
    qstate := { mode := .incrementalNaive, count := 3#9, cap := cap } }

/-- Bootstrap; an exact match; a full palette; a new colour with room. -/
theorem witness_QclsIncrementalRecordsOrMatches :
    (let s := { after (.qinc 4#9) State.reset with pixel := 0xFF1E140A#32 };
      (pixelOfWord s.pixel).a = 255#8 ∧ s.qstate.mode = .incrementalNaive ∧ s.qstate.count.toNat < 2) ∧
    (let s := twoRecorded 4#9 0xFF1E140A#32;
      (pixelOfWord s.pixel).a = 255#8 ∧ s.qstate.mode = .incrementalNaive ∧ 2 ≤ s.qstate.count.toNat ∧
        dist2 (pixelOfWord s.pixel) (palGet s.pal 1) = 0) ∧
    (let s := twoRecorded 3#9 0xFFFA0000#32;
      (pixelOfWord s.pixel).a = 255#8 ∧ s.qstate.count = s.qstate.cap) ∧
    (let s := twoRecorded 4#9 0xFFFA0000#32;
      (pixelOfWord s.pixel).a = 255#8 ∧ s.qstate.count ≠ s.qstate.cap ∧
        ∀ i ∈ [1, 2], dist2 (pixelOfWord s.pixel) (palGet s.pal i) ≠ 0) := by decide

/-- Two colours and capacity 3: K = n − 1. -/
theorem witness_IncrementalStreamIsBijective :
    let ws := [0xFF1E140A#32, 0xFF0000C8#32, 0xFF1E140A#32, 0x80000000#32];
    2 ≤ (3#9).toNat ∧ (3#9).toNat ≤ 256 ∧ (∃ s0, exec (.qinc 3#9) State.reset = .next s0) ∧
      ((((ws.map pixelOfWord).filter fun p => p.a = 255#8).map pixelRgb).reverse.dedup.reverse).length + 1 ≤ (3#9).toNat :=
  ⟨by decide, by decide, ⟨_, rfl⟩, by decide⟩

/-- `OUT` of exactly 10 bytes, and of 9. -/
theorem witness_PalxExportsThePalette :
    { palette5 with outTop := 9 }.outbase.toNat + 2 * 5 ≤ { palette5 with outTop := 9 }.outSize ∧
      { palette5 with outTop := 8 }.outSize < { palette5 with outTop := 8 }.outbase.toNat + 2 * 5 := by decide

/-- A state whose image is `w` by `h` and red, with `FITBLK` blocks and `PALETTE5`. -/
def tileState (w h : Word) (fitBlk : Byte) (outTop : Fin 4294967296) : State :=
  { palette5 with img := imageOf w h red [], outTop := outTop, tilearg := { padIdx := 5#8, fill := 0xEE#8, fitBlk := fitBlk } }

/-- Clause by clause: no image; empty; 9 columns; 65536 tiles; 65535 tiles against 127 blocks; 32 bytes in 31. -/
theorem witness_TileChecksInOrder :
    State.reset.img.valid = false ∧
    ((tileState 0#32 8#32 0#8 31).img.valid = true ∧ (tileState 0#32 8#32 0#8 31).img.width = 0#32) ∧
    ((tileState 9#32 8#32 0#8 31).img.valid = true ∧ (tileState 9#32 8#32 0#8 31).img.width.toNat % 8 ≠ 0 ∧
      (tileState 9#32 8#32 0#8 31).img.width ≠ 0#32 ∧ (tileState 9#32 8#32 0#8 31).img.height ≠ 0#32) ∧
    ((tileState 8#32 524288#32 0#8 31).tileImageOk noTileFlags ∧
      65535 < (tileState 8#32 524288#32 0#8 31).tilesX * (tileState 8#32 524288#32 0#8 31).tilesY) ∧
    (let s := tileState 8#32 524280#32 127#8 31;
      s.tileImageOk { noTileFlags with fitEn := true } ∧ s.tilesX * s.tilesY ≤ 65535 ∧
        s.tilearg.fitBlk.toNat * 512 < s.tilesX * s.tilesY) ∧
    (let s := tileState 8#32 8#32 0#8 30;
      s.tileImageOk noTileFlags ∧ s.tileCountOk noTileFlags 512 ∧ s.outSize < s.outbase.toNat + s.tileLength noTileFlags 32) := by
  unfold State.tileImageOk State.tileCountOk
  decide

/-- An image of one tile in `OUT` of exactly the record's size. -/
theorem witness_Tile8WritesIndices :
    let s := tileState 8#32 8#32 0#8 63;
    s.tileImageOk noTileFlags ∧ s.tileCountOk noTileFlags 256 ∧ s.outbase.toNat + s.tileLength noTileFlags 64 ≤ s.outSize := by
  unfold State.tileImageOk State.tileCountOk
  decide

/-- No index out of range; and the first position outside the image, number 1, with a pad index of 16. -/
theorem witness_Tile4PacksNibblesOrRaises :
    let f := { noTileFlags with padDim := true };
    (let s := tileState 1#32 1#32 0#8 31;
      (s.tileImageOk f ∧ s.tileCountOk f 512 ∧ s.outbase.toNat + s.tileLength f 32 ≤ s.outSize) ∧
        ∀ k < 64 * (s.tilesX * s.tilesY), s.tileIdx k < 16) ∧
    (let s := { tileState 1#32 1#32 0#8 31 with tilearg := { padIdx := 16#8, fill := 0#8, fitBlk := 0#8 } };
      (s.tileImageOk f ∧ s.tileCountOk f 512 ∧ s.outbase.toNat + s.tileLength f 32 ≤ s.outSize) ∧
        1 < 64 * (s.tilesX * s.tilesY) ∧ 16 ≤ s.tileIdx 1 ∧ ∀ j < 1, s.tileIdx j < 16) := by
  unfold State.tileImageOk State.tileCountOk
  decide

/-- Sixteen entries and the pad index 15. -/
theorem witness_Tile4CompletesWithSmallPalette :
    let f := { noTileFlags with padDim := true };
    let s := { tileState 1#32 1#32 0#8 31 with
      tilearg := { padIdx := 15#8, fill := 0#8, fitBlk := 0#8 }, qstate := { mode := .nearestFixed, count := 16#9, cap := 16#9 } }
    (s.tileImageOk f ∧ s.tileCountOk f 512 ∧ s.outbase.toNat + s.tileLength f 32 ≤ s.outSize) ∧
      s.qstate.mode = .nearestFixed ∧ s.qstate.count.toNat ≤ 16 ∧ s.tilearg.padIdx.toNat < 16 := by
  unfold State.tileImageOk State.tileCountOk
  decide

/-- The last position of the second tile of a 16 by 8 image. -/
theorem witness_TileBinaryRoundTrips :
    let s := tileState 16#32 8#32 0#8 127;
    s.status.err = false ∧ 1 < s.tilesX ∧ 0 < s.tilesY ∧ QState.legal s.qstate ∧
      (∃ t, exec (.tile4 noTileFlags) s = .next t ∧ t.status.err = false) ∧
      ∃ t, exec (.tile8 noTileFlags) s = .next t ∧ t.status.err = false :=
  ⟨by decide, by decide, by decide, by decide, ⟨_, rfl, by decide⟩, _, rfl, by decide⟩

theorem witness_TileIgnoresOtherOperands : ∃ t, exec (.tile4 noTileFlags) State.reset = .next t := ⟨_, rfl⟩

/-- Clause by clause: no image; empty; one column too many; one byte too few. -/
theorem witness_BitmapChecksInOrder :
    State.reset.img.valid = false ∧
    (let s := tileState 0#32 7#32 0#8 31;
      s.img.valid = true ∧ s.img.width = 0#32) ∧
    (let s := { tileState 3#32 2#32 0#8 31 with rectX := 2#32, rectW := 2#32, rectH := 1#32 };
      s.img.valid = true ∧ s.img.width ≠ 0#32 ∧ s.img.height ≠ 0#32 ∧
        s.img.width.toNat < (s.bmpRect { allowEmpty := false, useRect := true }).rx + (s.bmpRect { allowEmpty := false, useRect := true }).rw) ∧
    (let s := tileState 3#32 2#32 0#8 4;
      s.bmpOk { allowEmpty := false, useRect := false } ∧ s.outSize < s.outbase.toNat + 3 * 2 * 1) := by
  unfold State.bmpOk
  decide

/-- A rectangle that touches the right edge, in `OUT` of exactly its size; and an empty one at the corner (V-BMP-7). -/
theorem witness_BmpiWritesIndices :
    let f : BmpFlags := { allowEmpty := false, useRect := true };
    (let s := { tileState 3#32 2#32 0#8 1 with rectX := 2#32, rectW := 1#32, rectH := 2#32 };
      s.bmpOk f ∧ s.outbase.toNat + 1 * 2 ≤ s.outSize ∧ (s.bmpRect f).rw = 1 ∧ (s.bmpRect f).rh = 2) ∧
    (let s := { tileState 3#32 2#32 0#8 1 with rectX := 3#32, rectY := 2#32 };
      s.bmpOk f) := by
  unfold State.bmpOk
  decide

theorem witness_BmpcWritesColours :
    let f : BmpFlags := { allowEmpty := false, useRect := true };
    let s := { tileState 3#32 2#32 0#8 3 with rectX := 2#32, rectW := 1#32, rectH := 2#32 };
    s.bmpOk f ∧ s.outbase.toNat + 2 * (1 * 2) ≤ s.outSize ∧ (s.bmpRect f).rw = 1 ∧ (s.bmpRect f).rh = 2 := by
  unfold State.bmpOk
  decide

theorem witness_BmpcIgnoresTheQuantizer :
    ∃ t, exec (.bmpc { allowEmpty := false, useRect := false }) State.reset = .next t := ⟨_, rfl⟩

/-- A font sheet in one colour `bg`, all of it the source rectangle. -/
def fontState (w h cw ch : Word) (bg : Pixel) (cells : Memory Pixel) (outTop : Fin 4294967296) : State :=
  { State.reset with
    img := imageOf w h bg cells, rectW := w, rectH := h, cellW := cw, cellH := ch, outTop := outTop }

/-- No image; a zero cell; one column too many. -/
theorem witness_FontChecksInOrder :
    State.reset.img.valid = false ∧
    ((fontState 1#32 1#32 0#32 1#32 white [] 9).img.valid = true ∧ (fontState 1#32 1#32 0#32 1#32 white [] 9).cellW = 0#32) ∧
    (let s := { fontState 1#32 1#32 1#32 1#32 white [] 9 with rectW := 2#32 };
      s.img.valid = true ∧ s.cellW ≠ 0#32 ∧ s.cellH ≠ 0#32 ∧ s.img.width.toNat < s.rectX.toNat + s.rectW.toNat) := by decide

/-- In a sheet of one set colour the box of every glyph is its whole cell. -/
theorem glyphBox_of_uniform {w h cw ch : Word} {outTop : Fin 4294967296} (g : Nat) (hw : 0 < cw.toNat) (hh : 0 < ch.toNat) :
    (fontState w h cw ch white [] outTop).glyphBox g { xMin := 0, xMax := cw.toNat - 1, yMin := 0, yMax := ch.toNat - 1 } := by
  have key : ∀ u v, (fontState w h cw ch white [] outTop).glyphSet g u v = (decide (u < cw.toNat) && decide (v < ch.toNat)) :=
    fun u v => Bool.and_true _
  refine ⟨fun u v hs => ?_, ⟨0, ?_⟩, ⟨0, ?_⟩, ⟨0, ?_⟩, ⟨0, ?_⟩⟩
  · rw [key] at hs
    simp only [Bool.and_eq_true, decide_eq_true_eq] at hs
    simp only
    omega
  all_goals rw [key]; simp; omega

/-- The premises for a sheet of one set colour. -/
theorem uniform_premises {w h cw ch : Word} {outTop : Fin 4294967296} (hw : 0 < cw.toNat) (hh : 0 < ch.toNat) :
    (fontState w h cw ch white [] outTop).fontOk ∧ (fontState w h cw ch white [] outTop).glyphBoxes
      fun _ => some { xMin := 0, xMax := cw.toNat - 1, yMin := 0, yMax := ch.toNat - 1 } := by
  have nz : ∀ x : Word, 0 < x.toNat → x ≠ 0#32 := fun x hx he => by rw [he] at hx; exact absurd hx (by decide)
  refine ⟨⟨rfl, nz cw hw, nz ch hh, ?_, ?_⟩, fun g _ => glyphBox_of_uniform g hw hh⟩
  · show 0 + w.toNat ≤ w.toNat; omega
  · show 0 + h.toNat ≤ h.toNat; omega

/-- Width 13; height 13; and, with 16384 cells of one pixel, an offset of 65536. Glyph 0 is the first. -/
theorem witness_FontViolationIsFatal :
    ((fontState 13#32 1#32 13#32 1#32 white [] 9).fontOk ∧
      (fontState 13#32 1#32 13#32 1#32 white [] 9).glyphBoxes (fun _ => some { xMin := 0, xMax := 12, yMin := 0, yMax := 0 }) ∧
      0 < (fontState 13#32 1#32 13#32 1#32 white [] 9).glyphCount ∧ 12 < Box.w { xMin := 0, xMax := 12, yMin := 0, yMax := 0 }) ∧
    ((fontState 1#32 13#32 1#32 13#32 white [] 9).fontOk ∧
      (fontState 1#32 13#32 1#32 13#32 white [] 9).glyphBoxes (fun _ => some { xMin := 0, xMax := 0, yMin := 0, yMax := 12 }) ∧
      0 < (fontState 1#32 13#32 1#32 13#32 white [] 9).glyphCount ∧ 12 < Box.h { xMin := 0, xMax := 0, yMin := 0, yMax := 12 }) ∧
    (let s := fontState 16384#32 1#32 1#32 1#32 white [] 9;
      let boxes : Nat → Option Box := fun _ => some { xMin := 0, xMax := 0, yMin := 0, yMax := 0 };
      s.fontOk ∧ s.glyphBoxes boxes ∧ 0 < s.glyphCount ∧ 65535 < s.glyphOffset boxes 0) :=
  ⟨⟨(uniform_premises (by decide) (by decide)).1, (uniform_premises (by decide) (by decide)).2, by decide, by decide⟩,
    ⟨(uniform_premises (by decide) (by decide)).1, (uniform_premises (by decide) (by decide)).2, by decide, by decide⟩,
    (uniform_premises (by decide) (by decide)).1, (uniform_premises (by decide) (by decide)).2, by decide, by decide⟩

/-- A glyph that starts in row 16 of its cell: the third violation. -/
theorem witness_FontViolationIsFatal_offset :
    let s := fontState 1#32 17#32 1#32 17#32 black [(68719476736, white)] 9;
    let b : Box := { xMin := 0, xMax := 0, yMin := 16, yMax := 16 };
    s.fontOk ∧ s.glyphBoxes (fun _ => some b) ∧ 0 < s.glyphCount ∧ 15 < b.yMin := by
  refine ⟨⟨rfl, by decide, by decide, by decide, by decide⟩, fun g hg => ?_, by decide, by decide⟩
  have hg : g = 0 := by
    have : g < 1 := hg
    omega
  subst hg
  refine ⟨fun u v hs => ?_, ⟨16, by decide⟩, ⟨16, by decide⟩, ⟨0, by decide⟩, ⟨0, by decide⟩⟩
  have hu : u < 1 ∧ v < 17 := by
    simp only [State.glyphSet, Bool.and_eq_true, decide_eq_true_eq] at hs
    exact hs.1
  obtain ⟨hu, hv⟩ := hu
  obtain rfl : u = 0 := by omega
  have all : ∀ v < 17, (fontState 1#32 17#32 1#32 17#32 black [(68719476736, white)] 9).glyphSet 0 0 v = true → v = 16 := by decide
  have := all v hv hs
  simp only
  omega

/-- A glyph of one pixel: 5 bytes, in `OUT` of exactly 5 bytes and of 4. Offset 4, width 1. -/
theorem witness_FontWritesTheArtifact :
    let boxes : Nat → Option Box := fun _ => some { xMin := 0, xMax := 0, yMin := 0, yMax := 0 };
    (let s := fontState 1#32 1#32 1#32 1#32 white [] 4;
      s.fontOk ∧ s.glyphBoxes boxes ∧ (∀ g < s.glyphCount, s.glyphFits boxes g) ∧
        s.outbase.toNat + (4 * s.glyphCount + rowBytesBefore boxes s.glyphCount) ≤ s.outSize) ∧
    (let s := fontState 1#32 1#32 1#32 1#32 white [] 3;
      s.fontOk ∧ s.glyphBoxes boxes ∧ (∀ g < s.glyphCount, s.glyphFits boxes g) ∧
        s.outSize < s.outbase.toNat + (4 * s.glyphCount + rowBytesBefore boxes s.glyphCount)) := by
  have fits : ∀ outTop, ∀ g < (fontState 1#32 1#32 1#32 1#32 white [] outTop).glyphCount,
      (fontState 1#32 1#32 1#32 1#32 white [] outTop).glyphFits
        (fun _ => some { xMin := 0, xMax := 0, yMin := 0, yMax := 0 }) g := by
    intro outTop g hg b hb
    have : g < 1 := by simpa [State.glyphCount, fontState] using hg
    obtain rfl : g = 0 := by omega
    cases hb
    exact ⟨by decide, by decide, by decide, by simp [State.glyphOffset, State.glyphCount, fontState, rowBytesBefore]⟩
  exact ⟨⟨(uniform_premises (by decide) (by decide)).1, (uniform_premises (by decide) (by decide)).2, fits 4, by decide⟩,
    (uniform_premises (by decide) (by decide)).1, (uniform_premises (by decide) (by decide)).2, fits 3, by decide⟩

/-- A set cell, with its box, and a blank one. -/
theorem witness_EveryGlyphHasItsBox :
    let c : Cell := { g := 1, cellX := 1, cellY := 0 };
    let set := fontState 2#32 1#32 1#32 1#32 white [] 9;
    let blank := fontState 2#32 1#32 1#32 1#32 black [] 9;
    (fontCells set)[1]? = some c ∧ boxOf (setPixels set.img 1 1 c) = some { xMin := 0, xMax := 0, yMin := 0, yMax := 0 } ∧
      (fontCells blank)[1]? = some c ∧ boxOf (setPixels blank.img 1 1 c) = none := by decide

end Sys2Proof.Tests
end

section
/-! SUPPORT. What a step is, by the agenda, and what the block does on its turn (R9, R12; log 1). -/

namespace Sys2Proof.Machine

/-- With an empty agenda the step is the block's turn (log 1). -/
theorem step_of_agenda_nil {s : State} (ha : s.agenda = []) : step s = takeBlockTurn s := by
  simp only [step, takeTurn, ha]

/-- With events on the agenda the step is the first of them, on the state without it (log 1). -/
theorem step_of_agenda_cons {s : State} {e : Event} {rest : List Event} (ha : s.agenda = e :: rest) :
    step s = takeEvent e { s with agenda := rest } := by
  simp only [step, takeTurn, ha]

@[simp] theorem takeEvent_blockTurn (s : State) : takeEvent .blockTurn s = takeBlockTurn s := rfl

/-- The command in progress is run on the block's turn, unless the block is held in reset (R9). -/
theorem takeBlockTurn_of_busy {s : State} (hb : s.status.busy = true) (hr : s.rst = false) :
    takeBlockTurn s = runCommand s :=
  if_pos ⟨hb, hr⟩

/-- A legal command is completed by its meaning (R12). -/
theorem runCommand_of_decode_ok {s : State} {i : Instr} (hd : decode s.cmd = .ok i) : runCommand s = exec i s := by
  simp only [runCommand, hd]

/-- The block's turn with a legal command in progress is the command's meaning (R9, R12). -/
theorem takeBlockTurn_eq_exec {s : State} {i : Instr} (hb : s.status.busy = true) (hr : s.rst = false)
    (hd : decode s.cmd = .ok i) : takeBlockTurn s = exec i s :=
  (takeBlockTurn_of_busy hb hr).trans (runCommand_of_decode_ok hd)

/-- Settles O6: both forms of the agenda give the block its turn, and taking the turn off the agenda leaves the premises of
`takeBlockTurn_eq_exec` as they are. -/
theorem stepRunsTheDecodedCommand : Obligations.StepRunsTheDecodedCommand := by
  intro s i hb hr hd
  constructor
  · intro ha
    calc step s = takeBlockTurn s := step_of_agenda_nil ha
      _ = exec i s := takeBlockTurn_eq_exec hb hr hd
  · intro rest ha
    calc step s = takeEvent .blockTurn { s with agenda := rest } := step_of_agenda_cons ha
      _ = takeBlockTurn { s with agenda := rest } := takeEvent_blockTurn _
      _ = exec i { s with agenda := rest } := takeBlockTurn_eq_exec hb hr hd

end Sys2Proof.Machine
end

section
/-! SUPPORT. The invariant is kept by every event and by every command (R12, R13, R23 to R25, R94, R170 to R173). -/

namespace Sys2Proof.Machine

/-! ## The fields that the invariant does not read -/

theorem State.Inv.withAgenda {s : State} (h : s.Inv) (rest : List Event) : State.Inv { s with agenda := rest } :=
  ⟨h.qstate, h.status, h.memories, h.paletteWritten, h.results, h.reset⟩

theorem State.Inv.withReadData {s : State} (h : s.Inv) (rd : ReadData) (k : Nat) :
    State.Inv { s with rdata := rd, freeCtr := k } :=
  ⟨h.qstate, h.status, h.memories, h.paletteWritten, h.results, h.reset⟩

theorem State.Inv.withImage {s : State} (h : s.Inv) (img : Image) : State.Inv { s with img := img } :=
  ⟨h.qstate, h.status, h.memories, h.paletteWritten, h.results, h.reset⟩

theorem State.Inv.withOperands {s : State} (h : s.Inv) (px rx ry rw rh cw ch : Word) (ta : TileArg) (ob : Word) :
    State.Inv { s with pixel := px, rectX := rx, rectY := ry, rectW := rw, rectH := rh, cellW := cw, cellH := ch,
                       tilearg := ta, outbase := ob } :=
  ⟨h.qstate, h.status, h.memories, h.paletteWritten, h.results, h.reset⟩

/-! ## A busy block -/

/-- While busy `STATUS` is as acceptance left it (R12, R13). -/
theorem State.Inv.status_of_busy {s : State} (h : s.Inv) (hb : s.status.busy = true) : s.status = acceptedStatus := by
  obtain ⟨hbusy, _, hcode, _, hfatal⟩ := h.status
  obtain ⟨hdone, herr⟩ := hbusy hb
  have hzero := hcode herr
  have hnot : s.status.fatal = false := by
    rw [hzero] at hfatal
    exact Bool.eq_false_iff.mpr fun hf => absurd (hfatal.mp hf) (by decide)
  calc s.status = ⟨s.status.busy, s.status.done, s.status.err, s.status.fatal, s.status.errcode⟩ := rfl
    _ = acceptedStatus := by rw [hb, hdone, herr, hnot, hzero]; rfl

/-! ## Memories, quantizer and `RESULT` -/

theorem havocOut_memoriesLegal {s : State} (h : s.memoriesLegal) {base len : Nat} (hw : len = 0 ∨ base + len ≤ s.outSize) :
    (havocOut base len s).memoriesLegal := by
  obtain ⟨hpal, hkeys, hout, haddr⟩ := h
  refine ⟨hpal, hkeys, Memory.setBlock_wf hout _ _, Memory.setBlock_bounded haddr ?_⟩
  rcases hw with rfl | hw
  · exact .inl rfl
  · exact .inr (by rwa [freeBytes_length])

theorem havocPal_memoriesLegal {s : State} (h : s.memoriesLegal) {base n : Nat} (hw : base + n ≤ 256) :
    (havocPal base n s).memoriesLegal := by
  obtain ⟨hpal, hkeys, hout, haddr⟩ := h
  exact ⟨Memory.setBlock_wf hpal _ _, Memory.setBlock_bounded hkeys (.inr (by simpa using hw)), hout, haddr⟩

theorem State.Inv.havocOut {s : State} (h : s.Inv) {base len : Nat} (hw : len = 0 ∨ base + len ≤ s.outSize) :
    (havocOut base len s).Inv :=
  ⟨h.qstate, h.status, havocOut_memoriesLegal h.memories hw, h.paletteWritten, h.results, h.reset⟩

theorem State.Inv.withQuant {s : State} (h : s.Inv) {q : Quant} (hq : q.Ok) : (s.withQuant q).Inv := by
  obtain ⟨_, _, hout, haddr⟩ := h.memories
  exact ⟨hq.legal, h.status, ⟨hq.wf, hq.keys, hout, haddr⟩, hq.written, h.results, h.reset⟩

theorem State.Inv.withResult {s : State} (h : s.Inv) {r : Word} (hr : r.toNat < 2 ^ 15) : State.Inv { s with result := r } := by
  obtain ⟨hzero, hinfo, _⟩ := h.results
  exact ⟨h.qstate, h.status, h.memories, h.paletteWritten, ⟨hzero, hinfo, hr⟩, h.reset⟩

/-- A host write of a palette entry takes no entry in use away (R24, R94). -/
theorem State.Inv.setPal {s : State} (h : s.Inv) {k : Nat} (hk : k < 256) (c : Rgb) :
    State.Inv { s with pal := Memory.set s.pal k c } := by
  obtain ⟨hpal, hkeys, hout, haddr⟩ := h.memories
  have hmem : State.memoriesLegal { s with pal := Memory.set s.pal k c } :=
    ⟨Memory.set_wf hpal k c, Memory.setBlock_bounded hkeys (.inr (by simpa using hk)), hout, haddr⟩
  refine ⟨h.qstate, h.status, hmem, fun hm i hi => ?_, h.results, h.reset⟩
  rw [Memory.get?_set]
  split
  · rfl
  · exact h.paletteWritten hm i hi

/-! ## Acceptance and completion -/

/-- Acceptance (R12) needs `RST` released, since a block held in reset is not busy. -/
theorem State.Inv.acceptCommand {s : State} (h : s.Inv) (hr : s.rst = false) (w : Word) : (acceptCommand w s).Inv := by
  obtain ⟨_, _, hres⟩ := h.results
  have hst : Status.legal acceptedStatus := by decide
  exact ⟨h.qstate, hst, h.memories, h.paletteWritten, ⟨fun _ => ⟨rfl, rfl, rfl⟩, fun _ => rfl, hres⟩,
    fun hrst => absurd (hr.symm.trans hrst) (by decide)⟩

theorem endWithError_busy (e : ErrName) (info : Word) (s : State) : (endWithError e info s).status.busy = false := by
  rw [endWithError_status]; split <;> rfl

theorem endWithError_err (e : ErrName) (info : Word) (s : State) : (endWithError e info s).status.err = true := by
  rw [endWithError_status]; split <;> rfl

/-- Either way of ending a running command with an error leaves legal flags: `FATAL` for codes 8 and 9 alone (R170 to R173). -/
theorem errorStatus_legal (e : ErrName) :
    Status.legal (if isFatalError e then fatalStatus e else raisedStatus e acceptedStatus) := by
  cases e <;> decide

theorem State.Inv.endWithError {s : State} (h : s.Inv) (hb : s.status.busy = true) (e : ErrName) (info : Word) :
    (endWithError e info s).Inv := by
  obtain ⟨hzero, _, hres⟩ := h.results
  have hst : Status.legal (Machine.endWithError e info s).status := by
    rw [endWithError_status, h.status_of_busy hb]
    exact errorStatus_legal e
  have herr := endWithError_err e info s
  exact ⟨h.qstate, hst, h.memories, h.paletteWritten,
    ⟨fun _ => hzero (.inl hb), fun hno => absurd (herr.symm.trans hno) (by decide), hres⟩, fun _ => endWithError_busy e info s⟩

/-- Completion without error (R171) frees the artifact registers and `OUT` from the clauses of a running command. -/
theorem State.Inv.completeWith {s : State} (h : s.Inv) (hb : s.status.busy = true) {out : List Host.Cell}
    (outlen res0 res1 : Word) (hwf : Memory.wf out) (haddr : ∀ x ∈ out, x.1 < s.outSize) :
    (complete { s with out := out, outlen := outlen, res0 := res0, res1 := res1 }).Inv := by
  obtain ⟨hpal, hkeys, _, _⟩ := h.memories
  obtain ⟨_, hinfo, hres⟩ := h.results
  have hst : completedStatus s.status = completedStatus acceptedStatus := by rw [h.status_of_busy hb]
  have hnot : ¬ ((completedStatus s.status).busy = true ∨ (completedStatus s.status).err = true) := by rw [hst]; decide
  refine ⟨h.qstate, ?_, ⟨hpal, hkeys, hwf, haddr⟩, h.paletteWritten, ⟨fun hbe => absurd hbe hnot, hinfo, hres⟩, fun _ => rfl⟩
  rw [complete_status, hst]
  decide

theorem State.Inv.complete {s : State} (h : s.Inv) (hb : s.status.busy = true) : (complete s).Inv := by
  obtain ⟨_, _, hout, haddr⟩ := h.memories
  exact h.completeWith hb s.outlen s.res0 s.res1 hout haddr

theorem State.Inv.finishArtifact {s : State} (h : s.Inv) (hb : s.status.busy = true) {bs : List Byte} (r0 r1 : Nat)
    (hw : s.outbase.toNat + bs.length ≤ s.outSize) : (finishArtifact bs r0 r1 s).Inv := by
  obtain ⟨_, _, hout, haddr⟩ := h.memories
  exact h.completeWith hb _ _ _ (Memory.setBlock_wf hout _ _) (Memory.setBlock_bounded haddr (.inr hw))

/-! ## Commands -/

/-- What a command answered is one of the ways a command ends. -/
theorem execCases_of_exec {i : Instr} {s t : State} (h : exec i s = .next t) : ExecCases i s t := by
  obtain ⟨u, hu, hc⟩ := exec_cases i s
  rw [hu] at h
  cases h
  exact hc

/-- A command in progress keeps the invariant in each of the four ways it can end (R171 to R173, R180). -/
theorem exec_inv {i : Instr} {s t : State} (h : s.Inv) (hb : s.status.busy = true) (he : exec i s = .next t) : t.Inv := by
  cases execCases_of_exec he with
  | failed e info => exact h.endWithError hb e info
  | result q r hq _ _ hr =>
    have hres : r.toNat < 2 ^ 15 := by
      obtain ⟨_, _, hold⟩ := h.results
      rcases hr h.quantOk with rfl | hlt
      · exact hold
      · exact hlt
    exact ((h.withQuant (hq.ok h.quantOk)).withResult hres).complete hb
  | artifact q bs r0 r1 hq _ hw => exact (h.withQuant (hq.ok h.quantOk)).finishArtifact hb r0 r1 hw
  | badIndex q info len hq _ hw =>
    exact ((h.withQuant (hq.ok h.quantOk)).havocOut (.inr hw)).endWithError hb .unexpectedPaletteIndex info

theorem takeBlockTurn_inv {s t : State} (h : s.Inv) (ht : takeBlockTurn s = .next t) : t.Inv := by
  rcases takeBlockTurn_cases ht with rfl | ⟨hb, _, ⟨i, _, he⟩ | ⟨_, rfl⟩⟩
  · exact h
  · exact exec_inv h hb he
  · exact h.endWithError hb .illegalCommand s.cmd

/-! ## Host writes -/

theorem writeRegister_inv {s : State} (h : s.Inv) (hr : s.rst = false) (off : Nat) (w : Word) : (writeRegister off w s).Inv := by
  rcases writeRegister_cases off w s with he | ⟨_, _, _, he⟩ | ⟨_, px, rx, ry, rw, rh, cw, ch, ta, ob, he⟩ | ⟨_, hlo, hhi, he⟩
  · rwa [he]
  · rw [he]; exact h.acceptCommand hr w
  · rw [he]; exact h.withOperands px rx ry rw rh cw ch ta ob
  · rw [he]; exact h.setPal (by omega) _

/-! ## Reset -/

/-- The window of a command lies in `OUT` (R42, R51). -/
theorem windowLength_fits (i : Instr) (s : State) :
    windowLength i s = 0 ∨ s.outbase.toNat + windowLength i s ≤ s.outSize := by
  obtain ⟨t, _, hc⟩ := exec_cases i s
  cases hc with
  | failed _ _ _ _ h0 => exact .inl h0
  | result _ _ _ h0 => exact .inl h0
  | artifact _ _ _ _ _ hl hw => exact .inr (hl ▸ hw)
  | badIndex _ _ _ _ hl hw => exact .inr (hl ▸ hw)

theorem lowestEntryAtRisk_le_one (i : Instr) : lowestEntryAtRisk i ≤ 1 := by
  cases i with
  | qinc n => simp only [lowestEntryAtRisk]; split <;> omega
  | _ => exact le_refl 1

theorem entriesAtRiskEnd_bounds (m : QMode) : 1 ≤ entriesAtRiskEnd m ∧ entriesAtRiskEnd m ≤ 256 := by
  cases m <;> decide

/-- What a command in progress might have been writing lies in `OUT` and in `PAL` (R190, U6). -/
theorem inProgress_fits (s : State) :
    ((inProgress s).outLen = 0 ∨ s.outbase.toNat + (inProgress s).outLen ≤ s.outSize) ∧
      (inProgress s).palBase + (inProgress s).palLen ≤ 256 := by
  have hend := entriesAtRiskEnd_bounds s.qstate.mode
  cases hb : s.status.busy with
  | false => rw [inProgress_of_not_busy hb]; exact ⟨.inl rfl, by decide⟩
  | true =>
    cases hd : decode s.cmd with
    | ok i =>
      rw [inProgress_of_command hb hd]
      have hlow := lowestEntryAtRisk_le_one i
      exact ⟨windowLength_fits i s, by simp only [footprint]; omega⟩
    | error e => rw [inProgress_of_illegal hb hd]; exact ⟨.inl rfl, by simp only; omega⟩

theorem abandon_memoriesLegal {s : State} (h : s.memoriesLegal) : (abandon s).memoriesLegal := by
  obtain ⟨hout, hpal⟩ := inProgress_fits s
  exact havocPal_memoriesLegal (havocOut_memoriesLegal h hout) hpal

/-- Whatever the registers held, their reset values meet the invariant (R29). -/
theorem resetRegisters_inv {s : State} (h : s.memoriesLegal) (level : Bool) :
    State.Inv { resetRegisters s with rst := level } where
  qstate := (by decide : QState.legal QState.reset)
  status := (by decide : Status.legal Status.reset)
  memories := h
  paletteWritten := fun hm => nomatch hm
  results := ⟨fun _ => ⟨rfl, rfl, rfl⟩, fun _ => rfl, (by decide : (0#32).toNat < 2 ^ 15)⟩
  reset := fun _ => rfl

theorem resetEvent_inv {s : State} (h : s.Inv) (level : Bool) : (resetEvent level s).Inv := by
  unfold resetEvent
  split
  · exact resetRegisters_inv (abandon_memoriesLegal h.memories) true
  split
  · exact resetRegisters_inv h.memories false
  · exact h

/-! ## Every step -/

theorem takeEvent_inv {e : Event} {s t : State} (h : s.Inv) (ht : takeEvent e s = .next t) : t.Inv := by
  rcases takeEvent_cases ht with ⟨rd, k, rfl⟩ | ⟨off, v, _, hr, _, rfl⟩ | ⟨img, _, _, rfl⟩ | ⟨level, _, rfl⟩ | ⟨_, hturn⟩
  · exact h.withReadData rd k
  · exact writeRegister_inv h hr off v
  · exact h.withImage img
  · exact resetEvent_inv h level
  · exact takeBlockTurn_inv h hturn

/-- Settles O27: the step is the block's turn or an event on the state without it, and both keep the invariant. -/
theorem everyStepKeepsTheInvariant : Obligations.EveryStepKeepsTheInvariant := by
  intro s t h hs
  rcases step_cases hs with ⟨_, hturn⟩ | ⟨e, rest, _, hevent⟩
  · exact takeBlockTurn_inv h hturn
  · exact takeEvent_inv (h.withAgenda rest) hevent

/-- Settles O26: the state after reset is its own register reset, on memories that hold nothing yet. -/
theorem invariantHoldsAtReset : Obligations.InvariantHoldsAtReset :=
  have hmem : State.reset.memoriesLegal := by decide
  resetRegisters_inv hmem false

end Sys2Proof.Machine
end

section
/-! SUPPORT. What a host access does, offset by offset (R11, R12, R24, R25, R30 to R32, R43). -/

namespace Sys2Proof.Machine

/-! ## Accesses by the agenda -/

theorem step_hostWrite {s : State} {off : Nat} {w : Word} {rest : List Event} (hr : s.rst = false) (ho : off % 4 = 0)
    (ha : s.agenda = .hostWrite off 4 w :: rest) : step s = .next (writeRegister off w { s with agenda := rest }) := by
  rw [step_of_agenda_cons ha]
  simp [takeEvent, hostWriteEvent, accessAligned, hr, ho]

theorem step_hostRead {s : State} {off : Nat} {rest : List Event} (hr : s.rst = false) (ho : off % 4 = 0)
    (ha : s.agenda = .hostRead off 4 :: rest) : step s = .next (readRegister off { s with agenda := rest }) := by
  rw [step_of_agenda_cons ha]
  simp [takeEvent, hostReadEvent, accessAligned, hr, ho]

/-! ## Writes of a register -/

theorem writeRegister_of_busy {s : State} (hb : s.status.busy = true) (off : Nat) (w : Word) : writeRegister off w s = s :=
  if_pos hb

theorem writeRegister_cmd_of_idle {s : State} (hi : s.idle) (w : Word) : writeRegister 0x00 w s = acceptCommand w s := by
  obtain ⟨hb, hf⟩ := hi
  simp [writeRegister, writeCmd, hb, hf]

theorem writeRegister_cmd_of_fatal {s : State} (hf : s.status.fatal = true) (w : Word) : writeRegister 0x00 w s = s := by
  simp [writeRegister, writeCmd, hf]

section NotBusy

variable {s : State} (hb : s.status.busy = false) (w : Word)
include hb

theorem writeRegister_pixel : writeRegister 0x0C w s = { s with pixel := w } := by simp [writeRegister, hb]
theorem writeRegister_rectX : writeRegister 0x14 w s = { s with rectX := w } := by simp [writeRegister, hb]
theorem writeRegister_rectY : writeRegister 0x18 w s = { s with rectY := w } := by simp [writeRegister, hb]
theorem writeRegister_rectW : writeRegister 0x1C w s = { s with rectW := w } := by simp [writeRegister, hb]
theorem writeRegister_rectH : writeRegister 0x20 w s = { s with rectH := w } := by simp [writeRegister, hb]
theorem writeRegister_cellW : writeRegister 0x24 w s = { s with cellW := w } := by simp [writeRegister, hb]
theorem writeRegister_cellH : writeRegister 0x28 w s = { s with cellH := w } := by simp [writeRegister, hb]
theorem writeRegister_tilearg : writeRegister 0x2C w s = { s with tilearg := tileArgOfWord w } := by simp [writeRegister, hb]
theorem writeRegister_outbase : writeRegister 0x30 w s = { s with outbase := w } := by simp [writeRegister, hb]

/-- Entry `i` of the palette stands at offset 0x400 + 4·i (R24). -/
theorem writeRegister_pal {i : Nat} (hi : i < 256) :
    writeRegister (0x400 + 4 * i) w s = { s with pal := Memory.set s.pal i (rgbOfWord w) } := by
  have hslot : (0x400 + 4 * i - 0x400) / 4 = i := by omega
  rw [writeRegister, if_neg (by simp [hb])]
  iterate 10 rw [if_neg (by omega)]
  rw [if_pos (by omega), hslot]

end NotBusy

/-- The offsets of the registers a host can write (R11). -/
def writableOffsets : List Nat := [0x00, 0x0C, 0x14, 0x18, 0x1C, 0x20, 0x24, 0x28, 0x2C, 0x30]

/-- Any other offset outside the palette ignores a write (R31, R32). -/
theorem writeRegister_ignored {off : Nat} (hreg : off ∉ writableOffsets) (hpal : ¬ (0x400 ≤ off ∧ off < 0x800)) (w : Word)
    (s : State) : writeRegister off w s = s := by
  simp only [writableOffsets, List.mem_cons, List.not_mem_nil, or_false, not_or] at hreg
  simp [writeRegister, hreg, hpal]

/-! What no write of a register changes. -/

theorem writeRegister_keepsTurns (off : Nat) (w : Word) (s : State) :
    (writeRegister off w s).agenda = s.agenda ∧ (writeRegister off w s).rst = s.rst := by
  rcases writeRegister_cases off w s with h | ⟨_, _, _, h⟩ | ⟨_, _, _, _, _, _, _, _, _, _, h⟩ | ⟨_, _, _, h⟩
  · rw [h]; exact ⟨rfl, rfl⟩
  · rw [h]; exact ⟨acceptCommand_agenda w s, acceptCommand_rst w s⟩
  · rw [h]; exact ⟨rfl, rfl⟩
  · rw [h]; exact ⟨rfl, rfl⟩

/-- Only a write of `CMD` writes `STATUS` (R12). -/
theorem writeRegister_status {off : Nat} (ho : off ≠ 0) (w : Word) (s : State) :
    (writeRegister off w s).status = s.status := by
  rcases writeRegister_cases off w s with h | ⟨_, _, h0, _⟩ | ⟨_, _, _, _, _, _, _, _, _, _, h⟩ | ⟨_, _, _, h⟩
  · rw [h]
  · exact absurd h0 ho
  · rw [h]
  · rw [h]

/-! ## Reads of a register -/

/-- A read returns the register while the block is not busy, and for `CMD`, `STATUS` and the offsets that hold nothing always
(R30, R32). -/
theorem readRegister_of_readable {s : State} {off : Nat}
    (h : s.status.busy = false ∨ off = 0x00 ∨ off = 0x04 ∨ offsetHeld off = false) :
    readRegister off s = { s with rdata := .word (registerWord s off) } := by
  refine if_neg fun ⟨hb, h0, h4, hheld⟩ => ?_
  rcases h with h | h | h | h
  · exact absurd (hb.symm.trans h) (by decide)
  · exact h0 h
  · exact h4 h
  · exact absurd (hheld.symm.trans h) (by decide)

theorem step_hostRead_of_readable {s : State} {off : Nat} {rest : List Event} (hr : s.rst = false) (ho : off % 4 = 0)
    (ha : s.agenda = .hostRead off 4 :: rest)
    (h : s.status.busy = false ∨ off = 0x00 ∨ off = 0x04 ∨ offsetHeld off = false) :
    step s = .next { s with agenda := rest, rdata := .word (registerWord s off) } := by
  rw [step_hostRead hr ho ha, readRegister_of_readable (s := { s with agenda := rest }) h]
  rfl

theorem registerWord_pal (s : State) {i : Nat} (hi : i < 256) : registerWord s (0x400 + 4 * i) = rgbWord (palGet s.pal i) := by
  have hslot : (0x400 + 4 * i - 0x400) / 4 = i := by omega
  unfold registerWord
  iterate 17 rw [if_neg (by omega)]
  rw [if_pos (by omega), hslot]

/-- An offset that holds nothing reads 0 (R32). -/
theorem registerWord_unassigned (s : State) {off : Nat} (hlo : 0x44 ≤ off) (hpal : ¬ (0x400 ≤ off ∧ off < 0x800)) :
    registerWord s off = 0#32 := by
  unfold registerWord
  iterate 17 rw [if_neg (by omega)]
  rw [if_neg hpal]

theorem offsetHeld_unassigned {off : Nat} (hlo : 0x44 ≤ off) (hpal : ¬ (0x400 ≤ off ∧ off < 0x800)) :
    offsetHeld off = false := by
  simp only [offsetHeld, Bool.or_eq_false_iff, Bool.and_eq_false_iff, decide_eq_false_iff_not]
  omega

end Sys2Proof.Machine
end

section
/-! SUPPORT. The statements about host accesses (R11 to R32, R43). -/

namespace Sys2Proof.Machine

/-! ## Writes -/

/-- Settles O9: an idle block accepts the word, and acceptance writes what R12 lists. -/
theorem cmdWriteAcceptsWhenIdle : Obligations.CmdWriteAcceptsWhenIdle := by
  intro s w rest hi hr ha
  calc step s = .next (writeRegister 0x00 w { s with agenda := rest }) := step_hostWrite hr rfl ha
    _ = .next (acceptCommand w { s with agenda := rest }) :=
        congrArg _ (writeRegister_cmd_of_idle (s := { s with agenda := rest }) hi w)

/-- Settles O10: a block that is busy or fatal drops the write in the register itself, a block held in reset drops the event. -/
theorem droppedWritesChangeNothing : Obligations.DroppedWritesChangeNothing := by
  constructor
  · intro s off w rest hr ha ho hdrop
    refine (step_hostWrite hr ho ha).trans (congrArg _ ?_)
    rcases hdrop with hb | ⟨hf, rfl⟩
    · exact writeRegister_of_busy (s := { s with agenda := rest }) hb off w
    · exact writeRegister_cmd_of_fatal (s := { s with agenda := rest }) hf w
  · rintro s rest hr (⟨off, n, w, ha⟩ | ⟨addr, bs, ha⟩)
    · rw [step_of_agenda_cons ha]
      exact if_pos hr
    · rw [step_of_agenda_cons ha]
      exact if_pos hr

/-- Settles O12: one reasoning rule per operand register. -/
theorem operandWritesAreLocal : Obligations.OperandWritesAreLocal := by
  intro s w rest hidle hr
  have hb : ({ s with agenda := rest } : State).status.busy = false := hidle
  have write : ∀ {off t}, off % 4 = 0 → writeRegister off w { s with agenda := rest } = t →
      s.agenda = .hostWrite off 4 w :: rest → step s = .next t :=
    fun ho ht ha => (step_hostWrite hr ho ha).trans (congrArg _ ht)
  refine ⟨write rfl (writeRegister_pixel hb w), write rfl (writeRegister_rectX hb w), write rfl (writeRegister_rectY hb w),
    write rfl (writeRegister_rectW hb w), write rfl (writeRegister_rectH hb w), write rfl (writeRegister_cellW hb w),
    write rfl (writeRegister_cellH hb w), ?_, write rfl (writeRegister_outbase hb w), ?_⟩
  · rw [← tileArgOfWord_eq]
    exact write rfl (writeRegister_tilearg hb w)
  · intro i hi ha
    refine ⟨_, write (by omega) (writeRegister_pal hb w hi) ha, fun j hj => ?_⟩
    rw [palGet_set, if_neg hj]

/-- Settles O14: no read-only register is among the writable offsets. -/
theorem readOnlyRegistersIgnoreWrites : Obligations.ReadOnlyRegistersIgnoreWrites := by
  intro s off w rest hr hoff ha
  have hro : off % 4 = 0 ∧ off ∉ writableOffsets ∧ ¬ (0x400 ≤ off ∧ off < 0x800) := by
    clear ha
    revert off
    decide
  obtain ⟨ho, hreg, hpal⟩ := hro
  rw [step_hostWrite hr ho ha, writeRegister_ignored hreg hpal]

/-- Settles O13: these offsets lie past the registers and outside the palette. -/
theorem unassignedOffsetsReadZero : Obligations.UnassignedOffsetsReadZero := by
  intro s off w rest hr ho hoff
  have hlo : 0x44 ≤ off := by omega
  have hpal : ¬ (0x400 ≤ off ∧ off < 0x800) := by omega
  constructor
  · intro ha
    rw [step_hostRead_of_readable hr ho ha (.inr (.inr (.inr (offsetHeld_unassigned hlo hpal)))),
      registerWord_unassigned s hlo hpal]
  · intro ha
    have hreg : off ∉ writableOffsets := by
      simp only [writableOffsets, List.mem_cons, List.not_mem_nil, or_false]
      omega
    rw [step_hostWrite hr ho ha, writeRegister_ignored hreg hpal]

/-! ## A write, then a read of the same offset -/

theorem run_two {s t u : State} (h : step s = .next t) (h' : step t = .next u) : Sys2Proof.core.run 2 s = .next u := by
  simp only [Host.Core.run, core, h, h']

/-- A word written to a register other than `CMD`, then read, comes back as the register then holds it. -/
theorem run_write_read {s : State} {off : Nat} {w : Word} {rest : List Event} (hb : s.status.busy = false) (hr : s.rst = false)
    (ho : off % 4 = 0) (h0 : off ≠ 0) (ha : s.agenda = .hostWrite off 4 w :: .hostRead off 4 :: rest) :
    ∃ t, Sys2Proof.core.run 2 s = .next t ∧
      t.rdata = .word (registerWord (writeRegister off w { s with agenda := .hostRead off 4 :: rest }) off) := by
  have hwrite := step_hostWrite hr ho ha
  obtain ⟨hagenda, hrst⟩ := writeRegister_keepsTurns off w { s with agenda := .hostRead off 4 :: rest }
  have hstatus := writeRegister_status h0 w { s with agenda := .hostRead off 4 :: rest }
  have hread := step_hostRead_of_readable (hrst.trans hr) ho hagenda (.inl (by rw [hstatus]; exact hb))
  exact ⟨_, run_two hwrite hread, rfl⟩

theorem registerWord_writeRegister_operand {s : State} (hb : s.status.busy = false) (w : Word) {off : Nat}
    (ho : off ∈ [0x0C, 0x14, 0x18, 0x1C, 0x20, 0x24, 0x28, 0x30]) : registerWord (writeRegister off w s) off = w := by
  simp only [List.mem_cons, List.not_mem_nil, or_false] at ho
  rcases ho with rfl | rfl | rfl | rfl | rfl | rfl | rfl | rfl
  · rw [writeRegister_pixel hb]; rfl
  · rw [writeRegister_rectX hb]; rfl
  · rw [writeRegister_rectY hb]; rfl
  · rw [writeRegister_rectW hb]; rfl
  · rw [writeRegister_rectH hb]; rfl
  · rw [writeRegister_cellW hb]; rfl
  · rw [writeRegister_cellH hb]; rfl
  · rw [writeRegister_outbase hb]; rfl

theorem registerWord_writeRegister_tilearg {s : State} (hb : s.status.busy = false) (w : Word) :
    registerWord (writeRegister 0x2C w s) 0x2C = w &&& 0x00FFFFFF#32 := by
  rw [writeRegister_tilearg hb]
  exact tileArgWord_tileArgOfWord w

theorem registerWord_writeRegister_pal {s : State} (hb : s.status.busy = false) (w : Word) {i : Nat} (hi : i < 256) :
    registerWord (writeRegister (0x400 + 4 * i) w s) (0x400 + 4 * i) = w &&& 0x00FFFFFF#32 := by
  rw [writeRegister_pal hb w hi, registerWord_pal _ hi, palGet_set, if_pos rfl]
  exact rgbWord_rgbOfWord w

/-- Settles O11: the write is local to the register or entry that the read then returns. -/
theorem operandWritesReadBack : Obligations.OperandWritesReadBack := by
  intro s off w rest hidle hr ha
  have hb : ({ s with agenda := .hostRead off 4 :: rest } : State).status.busy = false := hidle
  constructor
  · intro hoff
    have hword : off % 4 = 0 ∧ off ≠ 0 := by
      clear hb ha
      revert off
      decide
    obtain ⟨t, hrun, hread⟩ := run_write_read hidle hr hword.1 hword.2 ha
    exact ⟨t, hrun, by rw [hread, registerWord_writeRegister_operand hb w hoff]⟩
  · rintro (rfl | ⟨hlo, hhi, ho⟩)
    · obtain ⟨t, hrun, hread⟩ := run_write_read hidle hr rfl (by decide) ha
      exact ⟨t, hrun, by rw [hread, registerWord_writeRegister_tilearg hb w]⟩
    · obtain ⟨i, hi, rfl⟩ : ∃ i < 256, off = 0x400 + 4 * i := ⟨(off - 0x400) / 4, by omega, by omega⟩
      obtain ⟨t, hrun, hread⟩ := run_write_read hidle hr ho (by omega) ha
      exact ⟨t, hrun, by rw [hread, registerWord_writeRegister_pal hb w hi]⟩

/-! ## Reads -/

/-- Settles O15: `CMD` and `STATUS` are readable always, the rest while the block is not busy. -/
theorem registerReadsReturnTheRegister : Obligations.RegisterReadsReturnTheRegister := by
  intro s off rest hr ha
  refine ⟨?_, ?_, fun hb => ?_⟩
  · rintro rfl
    exact step_hostRead_of_readable hr rfl ha (.inr (.inl rfl))
  · rintro rfl
    exact ⟨_, step_hostRead_of_readable hr rfl ha (.inr (.inr (.inl rfl))), statusWord_toNat s.status⟩
  have reads : ∀ {o : Nat} {v : Word}, o % 4 = 0 → registerWord s o = v → off = o →
      step s = .next { s with agenda := rest, rdata := .word v } := by
    rintro o v ho rfl rfl
    exact step_hostRead_of_readable hr ho ha (.inl hb)
  exact ⟨reads rfl rfl, reads rfl rfl, reads rfl rfl, reads rfl rfl, reads rfl rfl, reads rfl rfl, reads rfl rfl, reads rfl rfl,
    reads rfl rfl, reads rfl rfl, reads rfl rfl, reads rfl rfl, reads rfl rfl,
    fun ho => ⟨_, reads rfl rfl ho, tileArgWord_toNat s.tilearg⟩,
    fun ho => ⟨_, reads rfl rfl ho, qstateWord_toNat s.qstate⟩,
    fun i hi ho => ⟨_, reads (by omega) (registerWord_pal s hi) ho, rgbWord_toNat (palGet s.pal i)⟩⟩

/-- Settles O16: only host writes of the register window, `present`, `reset` and the block's turn write the block. -/
theorem readsHaveNoSideEffect : Obligations.ReadsHaveNoSideEffect := by
  intro s t e rest ha hs he
  rw [step_of_agenda_cons ha] at hs
  rcases takeEvent_cases hs with ⟨rd, k, rfl⟩ | ⟨off, v, rfl, _⟩ | ⟨img, rfl, _⟩ | ⟨level, rfl, _⟩ | ⟨rfl, _⟩
  · rfl
  all_goals simp at he

/-- The bytes of `OUT` in address order (R25, R43). -/
theorem outReadEvent_of_fits {s : State} {addr n : Nat} (hb : s.status.busy = false) (hr : s.rst = false)
    (h : addr + n ≤ s.outSize) :
    outReadEvent addr n s = .next { s with rdata := .bytes ((List.range n).map fun k => outGet s.out (addr + k)) } := by
  simp [outReadEvent, hb, hr, Nat.not_lt.mpr h]

theorem outReadEvent_of_beyond {s : State} {addr n : Nat} (hr : s.rst = false) (h : s.outSize < addr + n) :
    outReadEvent addr n s = .fault (.outAddressAbsent addr) := by
  simp [outReadEvent, hr, h]

/-- Settles O17: by the two outcomes of an `OUT` read of a block that is not busy. -/
theorem outReadReturnsTheBytes : Obligations.OutReadReturnsTheBytes := by
  intro s addr n rest hb hr ha
  rw [step_of_agenda_cons ha]
  constructor
  · intro hfit
    exact ⟨_, outReadEvent_of_fits (s := { s with agenda := rest }) hb hr hfit, by simp, fun k hk => by simp [hk]⟩
  · intro hover
    exact outReadEvent_of_beyond (s := { s with agenda := rest }) hr hover

/-- Settles O19: by the one test of `presentEvent`. -/
theorem imageChangesOnlyWhenNotBusy : Obligations.ImageChangesOnlyWhenNotBusy := by
  intro s img rest ha
  rw [step_of_agenda_cons ha]
  constructor
  · intro hb
    exact if_neg fun ⟨hbusy, _⟩ => absurd (hbusy.symm.trans hb) (by decide)
  · intro hb himg
    exact if_pos ⟨hb, himg⟩

/-- Settles O20: seventeen reads of one state. -/
theorem resetRegistersHoldSpecValues : Obligations.ResetRegistersHoldSpecValues := by
  unfold Obligations.ResetRegistersHoldSpecValues
  decide

/-! ## A placed command -/

theorem decode_encode {i : Instr} (h : i.wellFormed = true) : decode (encode i) = .ok i := by
  rw [decode_eq_ok_iff]
  cases i with
  | tile4 f => simpa [encode, Instr.wellFormed, -BitVec.getLsbD_eq_getElem] using h
  | tile8 f => simpa [encode, Instr.wellFormed, -BitVec.getLsbD_eq_getElem] using h
  | _ => simp [encode, -BitVec.getLsbD_eq_getElem]

@[simp] theorem tableWord_toNat (w : Word) : tableWord 32 w.toNat = w := by
  rw [tableWord, Nat.mod_eq_of_lt w.isLt, BitVec.ofNat_toNat, BitVec.setWidth_eq]

/-- Settles O7: the placed word is in progress, on an empty agenda, with `RST` released. -/
theorem placedWordRunsNext : Obligations.PlacedWordRunsNext := by
  intro s i hi
  have hcmd : (s.withFetchWord 32 (encode i).toNat).cmd = encode i := tableWord_toNat (encode i)
  refine ⟨?_, hcmd, rfl⟩
  calc step (s.withFetchWord 32 (encode i).toNat)
      = takeBlockTurn (s.withFetchWord 32 (encode i).toNat) := step_of_agenda_nil rfl
    _ = exec i (s.withFetchWord 32 (encode i).toNat) := takeBlockTurn_eq_exec rfl rfl (by rw [hcmd, decode_encode hi])

end Sys2Proof.Machine
end

section
/-! SUPPORT. What `FATAL` means for a block, and how it rises (R13, R170, R173); the fixed quantizer (R33, R93). -/

namespace Sys2Proof.Machine

/-- What a fatal block keeps until reset: flags, cause, results, quantizer state and `OUT`, and the level of `RST` (R173). -/
structure State.SameOutcome (s t : State) : Prop where
  status  : t.status = s.status
  errinfo : t.errinfo = s.errinfo
  cmd     : t.cmd = s.cmd
  result  : t.result = s.result
  outlen  : t.outlen = s.outlen
  res0    : t.res0 = s.res0
  res1    : t.res1 = s.res1
  qstate  : t.qstate = s.qstate
  out     : t.out = s.out
  rst     : t.rst = s.rst

/-- Taking an event off the agenda is no part of the outcome. -/
theorem State.SameOutcome.of_withAgenda {s t : State} {rest : List Event}
    (h : State.SameOutcome { s with agenda := rest } t) : s.SameOutcome t :=
  ⟨h.status, h.errinfo, h.cmd, h.result, h.outlen, h.res0, h.res1, h.qstate, h.out, h.rst⟩

theorem State.SameOutcome.refl (s : State) : s.SameOutcome s := ⟨rfl, rfl, rfl, rfl, rfl, rfl, rfl, rfl, rfl, rfl⟩

/-- A host write to a fatal block writes operand registers or the palette, or is dropped (R173). -/
theorem writeRegister_of_fatal {s : State} (hf : s.status.fatal = true) (off : Nat) (w : Word) :
    s.SameOutcome (writeRegister off w s) := by
  rcases writeRegister_cases off w s with h | ⟨_, hnf, _, _⟩ | ⟨_, _, _, _, _, _, _, _, _, _, h⟩ | ⟨_, _, _, h⟩
  · rw [h]; exact .refl s
  · exact absurd (hf.symm.trans hnf) (by decide)
  · rw [h]; exact ⟨rfl, rfl, rfl, rfl, rfl, rfl, rfl, rfl, rfl, rfl⟩
  · rw [h]; exact ⟨rfl, rfl, rfl, rfl, rfl, rfl, rfl, rfl, rfl, rfl⟩

/-- The block's turn changes nothing while it is not busy (R186). -/
theorem takeBlockTurn_of_not_busy {s : State} (hb : s.status.busy = false) : takeBlockTurn s = .next s :=
  if_neg fun ⟨hbusy, _⟩ => absurd (hbusy.symm.trans hb) (by decide)

theorem resetEvent_release_of_released {s : State} (hr : s.rst = false) : resetEvent false s = s := by
  simp [resetEvent, hr]

/-- No event but the assertion of `RST` ends a fatal state (R173, R182). -/
theorem takeEvent_of_fatal {e : Event} {s t : State} (hf : s.status.fatal = true) (hb : s.status.busy = false)
    (hr : s.rst = false) (he : e ≠ .reset true) (h : takeEvent e s = .next t) : s.SameOutcome t := by
  rcases takeEvent_cases h with ⟨rd, k, rfl⟩ | ⟨off, v, _, _, _, rfl⟩ | ⟨img, _, _, rfl⟩ | ⟨level, rfl, rfl⟩ | ⟨_, hturn⟩
  · exact ⟨rfl, rfl, rfl, rfl, rfl, rfl, rfl, rfl, rfl, rfl⟩
  · exact writeRegister_of_fatal hf off v
  · exact ⟨rfl, rfl, rfl, rfl, rfl, rfl, rfl, rfl, rfl, rfl⟩
  · cases level with
    | true => exact absurd rfl he
    | false => rw [resetEvent_release_of_released hr]; exact .refl s
  · rw [takeBlockTurn_of_not_busy hb] at hturn
    cases hturn
    exact .refl s

/-- Settles O24: the block's turn waits, and no event but the assertion of `RST` touches the outcome. -/
theorem fatalIsLeftOnlyByReset : Obligations.FatalIsLeftOnlyByReset := by
  intro s t hf hb hr hassert hs
  have hsame : s.SameOutcome t := by
    rcases step_cases hs with ⟨_, hturn⟩ | ⟨e, rest, ha, hevent⟩
    · rw [takeBlockTurn_of_not_busy hb] at hturn
      cases hturn
      exact .refl s
    · have he : e ≠ .reset true := fun he => hassert rest (he ▸ ha)
      exact (takeEvent_of_fatal (s := { s with agenda := rest }) hf hb hr he hevent).of_withAgenda
  exact ⟨hsame.status, hsame.errinfo, hsame.cmd, hsame.result, hsame.outlen, hsame.res0, hsame.res1, hsame.qstate, hsame.out,
    hsame.rst.trans hr⟩

/-- Settles O31: the quantizer a command leaves in fixed mode is the one it found. -/
theorem fixedQuantizerIsStateless : Obligations.FixedQuantizerIsStateless := by
  intro i s t hm hfix hinc he
  have same : ∀ {q}, QuantAfter i s q → q = s.quant := fun hq => hq.fixed hm ⟨hfix, hinc⟩
  cases execCases_of_exec he with
  | failed => exact ⟨rfl, rfl⟩
  | result q r hq => rw [same hq]; exact ⟨rfl, rfl⟩
  | artifact q bs r0 r1 hq => rw [same hq]; exact ⟨rfl, rfl⟩
  | badIndex q info len hq => rw [same hq]; exact ⟨rfl, rfl⟩

/-- The errors that end a command by `fatal` are those with code 8 or 9 (R170, R173). -/
theorem errCode_of_isFatalError {e : ErrName} (h : isFatalError e = true) : errCode e = 8#4 ∨ errCode e = 9#4 := by
  cases e with
  | fontInvariant => exact .inl rfl
  | fontOffsetOverflow => exact .inr rfl
  | _ => cases h

/-- Settles O32: of the ways a command ends only an error of class (c) writes `FATAL`, and only `FONT` gives one. -/
theorem onlyFontIsFatal : Obligations.OnlyFontIsFatal := by
  intro i s t hf he ht
  have hno : s.status.fatal ≠ true := by rw [hf]; decide
  cases execCases_of_exec he with
  | failed e info _ hfont =>
    rw [endWithError_status] at ht ⊢
    split at ht
    · next hfatal =>
      rw [if_pos hfatal]
      exact ⟨hfont hfatal, errCode_of_isFatalError hfatal⟩
    · exact absurd ht hno
  | result => exact absurd ht hno
  | artifact => exact absurd ht hno
  | badIndex => exact absurd ht hno

end Sys2Proof.Machine
end

section
/-! SUPPORT. A command's window of `OUT` (R42, R51, R180), and the register accesses that the model refuses (R43, U4). -/

namespace Sys2Proof.Machine

/-! ## The window of a command -/

/-- An artifact changes no byte of `OUT` outside the bytes it takes from `OUTBASE` on (R42). -/
theorem outGet_finishArtifact_outside {s : State} {bs : List Byte} (r0 r1 : Nat) {a : Nat}
    (h : a < s.outbase.toNat ∨ s.outbase.toNat + bs.length ≤ a) :
    outGet (finishArtifact bs r0 r1 s).out a = outGet s.out a := by
  rw [finishArtifact_out, outGet_setBlock_outside h]

/-- Free values change no byte of `OUT` outside the bytes they are drawn for (U5, U6). -/
theorem outGet_havocOut_outside {s : State} {base len a : Nat} (h : a < base ∨ base + len ≤ a) :
    outGet (havocOut base len s).out a = outGet s.out a := by
  rw [havocOut_out, outGet_setBlock_outside (by rwa [freeBytes_length])]

/-- Whichever way a command ends, `OUT` is as before outside the command's window: only an artifact and the free values of
`UnexpectedPaletteIndex` write it, and both fill exactly the window (R42, R172, R173, R180). -/
theorem ExecCases.outGet_outside {i : Instr} {s t : State} (h : ExecCases i s t) {a : Nat}
    (ha : a < s.outbase.toNat ∨ s.outbase.toNat + windowLength i s ≤ a) : outGet t.out a = outGet s.out a := by
  cases h with
  | failed e info => rfl
  | result q r => rfl
  | artifact q bs r0 r1 _ hl => exact outGet_finishArtifact_outside (s := s.withQuant q) r0 r1 (hl ▸ ha)
  | badIndex q info len _ hl => exact outGet_havocOut_outside (s := s.withQuant q) (hl ▸ ha)

/-- Settles O29: the frame by the ways a command ends, and the bound by its checks (`windowLength_fits`). -/
theorem commandsWriteOnlyTheirWindow : Obligations.CommandsWriteOnlyTheirWindow := by
  intro i s t he
  exact ⟨fun a ha => (execCases_of_exec he).outGet_outside ha, (windowLength_fits i s).resolve_left⟩

/-! ## Refused accesses -/

/-- The register window supports no access of another width or alignment (R43). -/
theorem accessAligned_eq_false {off n : Nat} (h : n ≠ 4 ∨ off % 4 ≠ 0) : accessAligned off n = false := by
  rcases h with hn | ho
  · simp [accessAligned, hn]
  · simp [accessAligned, ho]

theorem hostReadEvent_refused {s : State} {off n : Nat} (hr : s.rst = false) (h : accessAligned off n = false) :
    hostReadEvent off n s = .refused (.hostAccessUnsupported off n) := by
  simp [hostReadEvent, hr, h]

theorem hostWriteEvent_refused {s : State} {off n : Nat} (w : Word) (hr : s.rst = false) (h : accessAligned off n = false) :
    hostWriteEvent off n w s = .refused (.hostAccessUnsupported off n) := by
  simp [hostWriteEvent, hr, h]

/-- Settles O18: both accesses test the width and the alignment before anything else, once `RST` is released. -/
theorem unalignedAccessIsRefused : Obligations.UnalignedAccessIsRefused := by
  intro s off n w rest hr h
  have hunaligned := accessAligned_eq_false h
  constructor
  · intro ha
    rw [step_of_agenda_cons ha]
    exact hostReadEvent_refused (s := { s with agenda := rest }) hr hunaligned
  · intro ha
    rw [step_of_agenda_cons ha]
    exact hostWriteEvent_refused (s := { s with agenda := rest }) w hr hunaligned

end Sys2Proof.Machine
end

section
/-! SUPPORT. The command word as its four fields: a legal word is rebuilt from the command it decodes to, the rows of the opcode
table are tests on fields, and so is legality (R60 to R66). -/

namespace Sys2Proof

/-! ## A word and its fields -/

theorem append_eq_append_iff {m n : Nat} {x x' : BitVec m} {y y' : BitVec n} : x ++ y = x' ++ y' ↔ x = x' ∧ y = y' := by
  constructor
  · intro h
    have hy : y = y' := by simpa only [BitVec.extractLsb'_append_eq_right] using congrArg (BitVec.extractLsb' 0 n) h
    subst hy
    exact ⟨(BitVec.append_left_inj y).mp h, rfl⟩
  · rintro ⟨rfl, rfl⟩
    rfl

/-- Every word is its four fields, side by side (R60). -/
theorem fields_append (w : Word) : rsvField w ++ immField w ++ flgField w ++ opcField w = w := by
  have himm : rsvField w ++ immField w = w.extractLsb' 16 16 := BitVec.extractLsb'_append_extractLsb'_eq_extractLsb' rfl
  have hflg : w.extractLsb' 16 16 ++ flgField w = w.extractLsb' 8 24 := BitVec.extractLsb'_append_extractLsb'_eq_extractLsb' rfl
  have hopc : w.extractLsb' 8 24 ++ opcField w = w.extractLsb' 0 32 := BitVec.extractLsb'_append_extractLsb'_eq_extractLsb' rfl
  rw [himm, hflg, hopc, BitVec.extractLsb'_eq_self]

/-- A word with these fields and `RSV` = 0 is the word they make. -/
theorem wordOfFields_of_fields {w : Word} {imm : BitVec 9} {flg opc : BitVec 8} (hrsv : rsvField w = 0#7)
    (himm : immField w = imm) (hflg : flgField w = flg) (hopc : opcField w = opc) : wordOfFields imm flg opc = w := by
  rw [← himm, ← hflg, ← hopc, wordOfFields_fields hrsv]

/-- A mask that takes in all of `RSV` and `OPC` tests each field by itself. -/
theorem and_mask_eq_iff (w : Word) (immMask imm : BitVec 9) (flgMask flg opc : BitVec 8) :
    w &&& (127#7 ++ immMask ++ flgMask ++ 255#8) = wordOfFields imm flg opc ↔
      rsvField w = 0#7 ∧ opcField w = opc ∧ flgField w &&& flgMask = flg ∧ immField w &&& immMask = imm := by
  have hrsv : rsvField w &&& 127#7 = rsvField w := BitVec.and_allOnes
  have hopc : opcField w &&& 255#8 = opcField w := BitVec.and_allOnes
  conv_lhs => rw [← fields_append w]
  rw [wordOfFields, BitVec.and_append, BitVec.and_append, BitVec.and_append, hrsv, hopc]
  rw [append_eq_append_iff, append_eq_append_iff, append_eq_append_iff]
  constructor
  · rintro ⟨⟨⟨hr, hi⟩, hf⟩, ho⟩
    exact ⟨hr, ho, hf, hi⟩
  · rintro ⟨hr, ho, hf, hi⟩
    exact ⟨⟨⟨hr, hi⟩, hf⟩, ho⟩

/-! ## A legal word is the encoding of its command -/

theorem wellFormed_of_decode {w : Word} {i : Instr} (h : decode w = .ok i) : i.wellFormed = true := by
  rw [decode_eq_ok_iff] at h
  cases i with
  | tile4 f =>
    obtain ⟨-, -, -, -, hwf, -, hf⟩ := h
    exact hf ▸ hwf
  | tile8 f =>
    obtain ⟨-, -, -, -, hwf, -, hf⟩ := h
    exact hf ▸ hwf
  | _ => rfl

theorem encode_of_decode {w : Word} {i : Instr} (h : decode w = .ok i) : encode i = w := by
  rw [decode_eq_ok_iff] at h
  obtain ⟨hrsv, h⟩ := h
  cases i with
  | qfix n | qinc n | qcls | cvt15 | palx | font =>
    obtain ⟨hopc, hflg, himm⟩ := h
    exact wordOfFields_of_fields hrsv himm hflg hopc
  | tile4 f | tile8 f =>
    obtain ⟨hopc, himm, hres, -, hlow, rfl⟩ := h
    exact wordOfFields_of_fields hrsv himm (by rw [← tileFlg_tileFlagsOf _ hres, hlow, tileFlagsOf_tileFlg]) hopc
  | bmpi f | bmpc f =>
    obtain ⟨hopc, himm, hres, hlow, rfl⟩ := h
    exact wordOfFields_of_fields hrsv himm (by rw [← bmpFlg_bmpFlagsOf _ hres, hlow, bmpFlagsOf_bmpFlg]) hopc

/-- Settles O1: the fields of an encoded word are the ones the decoder asks for (`decode_encode`). -/
theorem decodeOfEncodeIsTheCommand : Obligations.DecodeOfEncodeIsTheCommand :=
  fun _ hi => Machine.decode_encode hi

/-- Settles O2: a legal word has the fields its command is encoded with, and a word is made of its fields. -/
theorem encodeOfDecodeIsTheWord : Obligations.EncodeOfDecodeIsTheWord :=
  fun _ _ h => ⟨wellFormed_of_decode h, encode_of_decode h⟩

/-- Settles O5: twelve fixed words, by evaluation. -/
theorem exampleWordsDecode : Obligations.ExampleWordsDecode := by
  unfold Obligations.ExampleWordsDecode
  decide

/-! ## The rows of the opcode table -/

/-- A format N row: `IMM9` is free (R61, R63). -/
theorem and_maskN_iff (w : Word) (opc : BitVec 8) : w &&& 0xFE00FFFF#32 = wordOfFields 0#9 0#8 opc ↔
    rsvField w = 0#7 ∧ opcField w = opc ∧ flgField w = 0#8 := by
  have himm : immField w &&& 0#9 = 0#9 := BitVec.and_zero
  have hflg : flgField w &&& 255#8 = flgField w := BitVec.and_allOnes
  have h := and_mask_eq_iff w 0#9 0#9 255#8 0#8 opc
  simp only [hflg, himm, and_true] at h
  exact h

/-- A format F row without flags: nothing is free (R61, R63). -/
theorem and_maskF_iff (w : Word) (opc : BitVec 8) : w &&& 0xFFFFFFFF#32 = wordOfFields 0#9 0#8 opc ↔
    rsvField w = 0#7 ∧ opcField w = opc ∧ flgField w = 0#8 ∧ immField w = 0#9 := by
  have himm : immField w &&& 511#9 = immField w := BitVec.and_allOnes
  have hflg : flgField w &&& 255#8 = flgField w := BitVec.and_allOnes
  have h := and_mask_eq_iff w 511#9 0#9 255#8 0#8 opc
  rw [hflg, himm] at h
  exact h

theorem tileMask_flg : ∀ (flg : BitVec 8) (bpp8 : Bool),
    flg &&& 0xE1#8 = 0#7 ++ BitVec.ofBool bpp8 ↔ flg.extractLsb' 5 3 = 0#3 ∧ flg.getLsbD 0 = bpp8 := by decide

theorem bmpMask_flg : ∀ (flg : BitVec 8) (color : Bool),
    flg &&& 0xF9#8 = 0#7 ++ BitVec.ofBool color ↔ flg.extractLsb' 3 5 = 0#5 ∧ flg.getLsbD 0 = color := by decide

/-- Bits 12 and 11 of a word are `PAD_FIT` and `FIT_EN` of the flags it holds (R64). -/
theorem tileFlagsOf_wellFormed_iff (w : Word) :
    (tileFlagsOf (flgField w)).wellFormed = true ↔ ¬ (w.getLsbD 12 = true ∧ w.getLsbD 11 = false) := by
  have h12 : (flgField w).getLsbD 4 = w.getLsbD 12 := by simp [flgField]
  have h11 : (flgField w).getLsbD 3 = w.getLsbD 11 := by simp [flgField]
  rw [tileFlagsOf, TileFlags.wellFormed, h12, h11]
  cases w.getLsbD 12 <;> cases w.getLsbD 11 <;> simp

/-- The row of `TILE4` (`bpp8` = false) or of `TILE8`: the flags but `BPP8` are free, with a constraint on two (R63, R64). -/
theorem and_maskTile_iff (w : Word) (bpp8 : Bool) :
    w &&& 0xFFFFE1FF#32 = wordOfFields 0#9 (0#7 ++ BitVec.ofBool bpp8) 0x08#8 ∧
        ¬ (w.getLsbD 12 = true ∧ w.getLsbD 11 = false) ↔
      rsvField w = 0#7 ∧ opcField w = 0x08#8 ∧ immField w = 0#9 ∧ (flgField w).extractLsb' 5 3 = 0#3 ∧
        (tileFlagsOf (flgField w)).wellFormed = true ∧ (flgField w).getLsbD 0 = bpp8 := by
  have himm : immField w &&& 511#9 = immField w := BitVec.and_allOnes
  have h := and_mask_eq_iff w 511#9 0#9 0xE1#8 (0#7 ++ BitVec.ofBool bpp8) 0x08#8
  rw [himm, tileMask_flg] at h
  rw [tileFlagsOf_wellFormed_iff]
  constructor
  · rintro ⟨hw, hfit⟩
    obtain ⟨hr, ho, ⟨hres, hlow⟩, hi⟩ := h.mp hw
    exact ⟨hr, ho, hi, hres, hfit, hlow⟩
  · rintro ⟨hr, ho, hi, hres, hfit, hlow⟩
    exact ⟨h.mpr ⟨hr, ho, ⟨hres, hlow⟩, hi⟩, hfit⟩

/-- The row of `BMPI` (`color` = false) or of `BMPC`: the flags but `COLOR` are free (R63, R65). -/
theorem and_maskBmp_iff (w : Word) (color : Bool) :
    w &&& 0xFFFFF9FF#32 = wordOfFields 0#9 (0#7 ++ BitVec.ofBool color) 0x09#8 ↔
      rsvField w = 0#7 ∧ opcField w = 0x09#8 ∧ immField w = 0#9 ∧ (flgField w).extractLsb' 3 5 = 0#5 ∧
        (flgField w).getLsbD 0 = color := by
  have himm : immField w &&& 511#9 = immField w := BitVec.and_allOnes
  have h := and_mask_eq_iff w 511#9 0#9 0xF9#8 (0#7 ++ BitVec.ofBool color) 0x09#8
  rw [himm, bmpMask_flg] at h
  constructor
  · intro hw
    obtain ⟨hr, ho, ⟨hres, hlow⟩, hi⟩ := h.mp hw
    exact ⟨hr, ho, hi, hres, hlow⟩
  · rintro ⟨hr, ho, hi, hres, hlow⟩
    exact h.mpr ⟨hr, ho, ⟨hres, hlow⟩, hi⟩

/-- Settles O3: each row is its mask read field by field, and the fields select the command (`decode_eq_ok_iff`). -/
theorem tableRowsSelectCommands : Obligations.TableRowsSelectCommands := by
  intro w
  simp only [decode_eq_ok_iff, exists_and_left, exists_eq', and_true]
  exact ⟨(and_maskN_iff w 1#8).symm, (and_maskN_iff w 2#8).symm, (and_maskF_iff w 3#8).symm, (and_maskF_iff w 4#8).symm,
    (and_maskF_iff w 5#8).symm, (and_maskTile_iff w false).symm, (and_maskTile_iff w true).symm,
    (and_maskBmp_iff w false).symm, (and_maskBmp_iff w true).symm, (and_maskF_iff w 10#8).symm⟩

/-! ## Illegal words -/

/-- The legal words by format (R61, R63 to R66): format N, format F without flags, the tile commands, the bitmap commands. -/
theorem exists_decode_eq_ok_iff (w : Word) : (∃ i, decode w = .ok i) ↔ rsvField w = 0#7 ∧
    ((opcField w = 1#8 ∨ opcField w = 2#8) ∧ flgField w = 0#8 ∨
      (opcField w = 3#8 ∨ opcField w = 4#8 ∨ opcField w = 5#8 ∨ opcField w = 10#8) ∧ flgField w = 0#8 ∧
        immField w = 0#9 ∨
      opcField w = 8#8 ∧ immField w = 0#9 ∧ (flgField w).extractLsb' 5 3 = 0#3 ∧
        (tileFlagsOf (flgField w)).wellFormed = true ∨
      opcField w = 9#8 ∧ immField w = 0#9 ∧ (flgField w).extractLsb' 3 5 = 0#5) := by
  simp only [decode_eq_ok_iff]
  constructor
  · rintro ⟨i, hr, h⟩
    refine ⟨hr, ?_⟩
    cases i with
    | tile4 f | tile8 f =>
      obtain ⟨ho, hi, hres, hwf, -⟩ := h
      exact .inr (.inr (.inl ⟨ho, hi, hres, hwf⟩))
    | bmpi f | bmpc f =>
      obtain ⟨ho, hi, hres, -⟩ := h
      exact .inr (.inr (.inr ⟨ho, hi, hres⟩))
    | _ => simp [h]
  · rintro ⟨hr, ⟨ho | ho, hf⟩ | ⟨ho | ho | ho | ho, hf, hi⟩ | ⟨ho, hi, hres, hwf⟩ | ⟨ho, hi, hres⟩⟩
    · exact ⟨.qfix _, hr, ho, hf, rfl⟩
    · exact ⟨.qinc _, hr, ho, hf, rfl⟩
    · exact ⟨.qcls, hr, ho, hf, hi⟩
    · exact ⟨.cvt15, hr, ho, hf, hi⟩
    · exact ⟨.palx, hr, ho, hf, hi⟩
    · exact ⟨.font, hr, ho, hf, hi⟩
    · rcases Bool.eq_false_or_eq_true ((flgField w).getLsbD 0) with hlow | hlow
      · exact ⟨.tile8 _, hr, ho, hi, hres, hwf, hlow, rfl⟩
      · exact ⟨.tile4 _, hr, ho, hi, hres, hwf, hlow, rfl⟩
    · rcases Bool.eq_false_or_eq_true ((flgField w).getLsbD 0) with hlow | hlow
      · exact ⟨.bmpc _, hr, ho, hi, hres, hlow, rfl⟩
      · exact ⟨.bmpi _, hr, ho, hi, hres, hlow, rfl⟩

theorem exists_decode_eq_error_iff (w : Word) : (∃ e, decode w = .error e) ↔ ¬ ∃ i, decode w = .ok i := by
  cases decode w <;> simp

/-! The fields as numbers (R60). -/

theorem opcField_toNat (w : Word) : (opcField w).toNat = w.toNat % 256 := by
  simp [opcField, BitVec.extractLsb'_toNat]

theorem flgField_toNat (w : Word) : (flgField w).toNat = w.toNat / 256 % 256 := by
  simp [flgField, BitVec.extractLsb'_toNat, Nat.shiftRight_eq_div_pow]

theorem immField_toNat (w : Word) : (immField w).toNat = w.toNat / 65536 % 512 := by
  simp [immField, BitVec.extractLsb'_toNat, Nat.shiftRight_eq_div_pow]

theorem rsvField_toNat (w : Word) : (rsvField w).toNat = w.toNat / 33554432 := by
  have := w.isLt
  simp only [rsvField, BitVec.extractLsb'_toNat, Nat.shiftRight_eq_div_pow]
  omega

theorem tileFlg_reserved_iff : ∀ flg : BitVec 8, flg.extractLsb' 5 3 = 0#3 ↔ flg.toNat / 32 = 0 := by decide

theorem bmpFlg_reserved_iff : ∀ flg : BitVec 8, flg.extractLsb' 3 5 = 0#5 ↔ flg.toNat / 8 = 0 := by decide

theorem tileFlg_wellFormed_iff : ∀ flg : BitVec 8,
    (tileFlagsOf flg).wellFormed = true ↔ ¬ (flg.toNat / 16 % 2 = 1 ∧ flg.toNat / 8 % 2 = 0) := by decide

/-- The legal words by the numbers in their fields (R61, R63 to R66). -/
def LegalFields (rsv imm flg opc : Nat) : Prop :=
  rsv = 0 ∧
    ((opc = 1 ∨ opc = 2) ∧ flg = 0 ∨ (opc = 3 ∨ opc = 4 ∨ opc = 5 ∨ opc = 10) ∧ flg = 0 ∧ imm = 0 ∨
      opc = 8 ∧ imm = 0 ∧ flg / 32 = 0 ∧ ¬ (flg / 16 % 2 = 1 ∧ flg / 8 % 2 = 0) ∨ opc = 9 ∧ imm = 0 ∧ flg / 8 = 0)

theorem exists_decode_eq_ok_iff_legalFields (w : Word) : (∃ i, decode w = .ok i) ↔
    LegalFields (w.toNat / 33554432) (w.toNat / 65536 % 512) (w.toNat / 256 % 256) (w.toNat % 256) := by
  rw [exists_decode_eq_ok_iff, tileFlg_reserved_iff, bmpFlg_reserved_iff, tileFlg_wellFormed_iff]
  simp only [← BitVec.toNat_inj, opcField_toNat, flgField_toNat, immField_toNat, rsvField_toNat, BitVec.toNat_ofNat,
    LegalFields]

/-- Legality has the eight illegality conditions of R66 as its complement: for each opcode, those that can apply to it. -/
theorem not_legalFields_iff (rsv imm flg opc : Nat) : ¬ LegalFields rsv imm flg opc ↔
    rsv ≠ 0 ∨ opc ∉ [1, 2, 3, 4, 5, 8, 9, 10] ∨ (opc ∈ [1, 2] ∧ flg ≠ 0) ∨ (opc ∈ [3, 4, 5, 8, 9, 10] ∧ imm ≠ 0) ∨
      (opc ∈ [3, 4, 5, 10] ∧ flg ≠ 0) ∨ (opc = 8 ∧ flg / 32 ≠ 0) ∨
      (opc = 8 ∧ flg / 16 % 2 = 1 ∧ flg / 8 % 2 = 0) ∨ (opc = 9 ∧ flg / 8 ≠ 0) := by
  simp only [LegalFields, List.mem_cons, List.not_mem_nil, or_false]
  by_cases hopc : opc = 1 ∨ opc = 2 ∨ opc = 3 ∨ opc = 4 ∨ opc = 5 ∨ opc = 8 ∨ opc = 9 ∨ opc = 10
  · rcases hopc with rfl | rfl | rfl | rfl | rfl | rfl | rfl | rfl <;> simp <;> omega
  · simp only [hopc, not_false_eq_true, true_or, or_true, iff_true]
    omega

end Sys2Proof

namespace Sys2Proof.Machine

/-- The block's turn with an illegal word in progress (R66). -/
theorem takeBlockTurn_of_illegal {s : State} {e : DecodeError} (hb : s.status.busy = true) (hr : s.rst = false)
    (hd : decode s.cmd = .error e) : takeBlockTurn s = .next (endWithError .illegalCommand s.cmd s) := by
  rw [takeBlockTurn_of_busy hb hr]
  simp only [runCommand, hd]

/-- Settles O4: legality by fields, complemented as arithmetic on the fields; then acceptance and the block's turn. -/
theorem illegalWordsRaiseIllegalCommand : Obligations.IllegalWordsRaiseIllegalCommand := by
  refine ⟨fun w => ?_, fun w e s rest hd hi hr ha => ?_, ⟨.unknownOpcode, by decide⟩, fun w => ?_⟩
  · rw [exists_decode_eq_error_iff, exists_decode_eq_ok_iff_legalFields]
    exact not_legalFields_iff _ _ _ _
  · have haccept : step s = .next (acceptCommand w { s with agenda := .blockTurn :: rest }) :=
      cmdWriteAcceptsWhenIdle s w (.blockTurn :: rest) hi hr ha
    refine run_two haccept ?_
    rw [step_of_agenda_cons rfl]
    exact takeBlockTurn_of_illegal (s := { acceptCommand w s with agenda := rest }) rfl hr hd
  · cases hd : decode w with
    | ok i => exact .inl ⟨i, rfl⟩
    | error e => exact .inr ⟨e, rfl⟩

end Sys2Proof.Machine
end

section
/-! SUPPORT. The tile binary read back: a tile command that ends without error has scanned every position, and its records hold the
indices of the scan (R71, R72, R79, R125, R126, R133). -/

namespace Sys2Proof.Machine

/-! ## A tile command without error -/

/-- `TILE4` admits the indices below 16 (R126). -/
theorem overLimit_four_eq_false_iff (i : Nat) : overLimit (indexLimit .four) i = false ↔ i < 16 := by
  simp [overLimit, indexLimit, Config.palMax4]

/-- A scan that did not stop met no index out of range (R126). -/
theorem tileIdx_inRange_of_bad_none (d : Bpp) (f : TileFlags) (s : State) (h : (tileScan d (tileLayout d f s) s).bad = none)
    (k : Nat) (hk : k < 64 * (s.tilesX * s.tilesY)) : overLimit (indexLimit d) (s.tileIdx k) = false := by
  cases d with
  | eight => rfl
  | four =>
    rw [overLimit_four_eq_false_iff]
    induction k using Nat.strong_induction_on with
    | h k ih =>
      by_contra hbad
      obtain ⟨hstop, -⟩ := tileScan_stops f s hk (by omega) fun j hj => ih j hj (by omega)
      exact absurd (hstop.symm.trans h) (by simp)

/-- A tile command that ends without error passed its checks, and its scan gave every index (R125, R129). -/
theorem runTile_of_err_false {d : Bpp} {f : TileFlags} {s : State} (h : (runTile d f s).status.err = false) :
    (∀ k < 64 * (s.tilesX * s.tilesY), overLimit (indexLimit d) (s.tileIdx k) = false) ∧
      ∃ q : Quant, runTile d f s =
        finishArtifact (tileBytes d (tileLayout d f s) s.tilearg.fill ((List.range (64 * (s.tilesX * s.tilesY))).map s.tileIdx))
          (tileLayout d f s).tileCount 0 (s.withQuant q) := by
  cases hplan : tilePlan d f s with
  | error e =>
    rw [runTile, hplan] at h
    exact absurd ((endWithError_err _ _ _).symm.trans h) (by decide)
  | ok p =>
    obtain ⟨rfl, -⟩ := tilePlan_ok hplan
    cases hbad : (tileScan d (tileLayout d f s) s).bad with
    | some i =>
      rw [runTile, hplan] at h
      simp only [hbad] at h
      exact absurd ((endWithError_err _ _ _).symm.trans h) (by decide)
    | none =>
      have hrange := tileIdx_inRange_of_bad_none d f s hbad
      refine ⟨hrange, s.tileQuant (64 * (s.tilesX * s.tilesY)), ?_⟩
      rw [runTile, hplan]
      simp only [tileScan_complete d f s hrange]

/-- Byte `j` of the records is read back at `OUTBASE + j`: the filler comes after them (R128). -/
theorem outGet_runTile {d : Bpp} {f : TileFlags} {s : State} (h : (runTile d f s).status.err = false) {j : Nat} {v : Byte}
    (hv : (packIndices d ((List.range (64 * (s.tilesX * s.tilesY))).map s.tileIdx))[j]? = some v) :
    outGet (runTile d f s).out (s.outbase.toNat + j) = v := by
  obtain ⟨-, q, hq⟩ := runTile_of_err_false h
  obtain ⟨hj, -⟩ := List.getElem?_eq_some_iff.mp hv
  rw [hq, finishArtifact_out]
  exact outGet_setBlock_of_getElem? (by rw [tileBytes, List.getElem?_append_left hj, hv])

/-! ## The records as numbers -/

/-- A byte of a `TILE8` record is an index (R72). -/
theorem outGet_runTile_eight {f : TileFlags} {s : State} (h : (runTile .eight f s).status.err = false)
    (hq : QState.legal s.qstate) {k : Nat} (hk : k < 64 * (s.tilesX * s.tilesY)) :
    (outGet (runTile .eight f s).out (s.outbase.toNat + k)).toNat = s.tileIdx k := by
  rw [outGet_runTile h (v := BitVec.ofNat 8 (s.tileIdx k)) (by simp [packIndices, hk]), BitVec.toNat_ofNat]
  exact Nat.mod_eq_of_lt (tileIdx_lt s hq k)

/-- `TILE4` ends without error only when every index is below 16 (R126). -/
theorem tileIdx_lt_sixteen {f : TileFlags} {s : State} (h : (runTile .four f s).status.err = false) {k : Nat}
    (hk : k < 64 * (s.tilesX * s.tilesY)) : s.tileIdx k < 16 :=
  (overLimit_four_eq_false_iff _).mp ((runTile_of_err_false h).1 k hk)

/-- A byte of a `TILE4` record holds two indices, the first in the low nibble (R71). -/
theorem outGet_runTile_four {f : TileFlags} {s : State} (h : (runTile .four f s).status.err = false) {m : Nat}
    (hm : m < 32 * (s.tilesX * s.tilesY)) :
    (outGet (runTile .four f s).out (s.outbase.toNat + m)).toNat = s.tileIdx (2 * m) + 16 * s.tileIdx (2 * m + 1) := by
  have hidx : ∀ k < 64 * (s.tilesX * s.tilesY),
      ((List.range (64 * (s.tilesX * s.tilesY))).map s.tileIdx)[k]? = some (s.tileIdx k) := fun k hk => by simp [hk]
  rw [outGet_runTile h (packNibbles_getElem? _ m _ _ (hidx _ (by omega)) (hidx _ (by omega)))]
  exact nibbles_toNat (tileIdx_lt_sixteen h (by omega)) (tileIdx_lt_sixteen h (by omega))

/-- The nibble of column `px` in the byte that holds it (R79). -/
theorem tileIdx_eq_nibble {f : TileFlags} {s : State} (h : (runTile .four f s).status.err = false) {k : Nat}
    (hk : k < 64 * (s.tilesX * s.tilesY)) :
    (outGet (runTile .four f s).out (s.outbase.toNat + k / 2)).toNat / (if k % 2 = 0 then 1 else 16) % 16 = s.tileIdx k := by
  rw [outGet_runTile_four h (by omega)]
  have h0 := tileIdx_lt_sixteen h (k := 2 * (k / 2)) (by omega)
  have h1 := tileIdx_lt_sixteen h (k := 2 * (k / 2) + 1) (by omega)
  split
  · rw [show 2 * (k / 2) = k by omega] at h0 ⊢
    omega
  · rw [show 2 * (k / 2) + 1 = k by omega] at h1 ⊢
    omega

/-! ## The scan position of a pixel of a tile -/

/-- Tile (`tx`, `ty`) is in the grid. -/
theorem tileNumber_lt {tx ty tilesX tilesY : Nat} (hx : tx < tilesX) (hy : ty < tilesY) :
    ty * tilesX + tx < tilesX * tilesY := by
  have := Nat.mul_le_mul_right tilesX (show ty + 1 ≤ tilesY from hy)
  rw [Nat.succ_mul, Nat.mul_comm tilesY] at this
  omega

/-- Row `py`, column `px` of tile (`tx`, `ty`), by its number in scan order (R79, R125). -/
theorem tilePos_of_tile {tx tilesX px py : Nat} (ty : Nat) (hx : tx < tilesX) (hpx : px < 8) (hpy : py < 8) :
    tilePos tilesX (64 * (ty * tilesX + tx) + 8 * py + px) = (8 * tx + px, 8 * ty + py) := by
  have htile : (64 * (ty * tilesX + tx) + 8 * py + px) / 64 = ty * tilesX + tx := by omega
  have hcol : (ty * tilesX + tx) % tilesX = tx := Nat.mul_add_mod_of_lt hx
  have hrow : (ty * tilesX + tx) / tilesX = ty := by
    rw [Nat.add_comm, Nat.add_mul_div_right _ _ (by omega), Nat.div_eq_of_lt hx, Nat.zero_add]
  rw [tilePos, htile, hcol, hrow]
  congr 1 <;> omega

/-- Settles O50: the position's number gives its record, row and column (`tilePos_of_tile`), and the byte there the index. -/
theorem tileBinaryRoundTrips : Obligations.TileBinaryRoundTrips := by
  intro f s t tx ty px py _ htx hty hpx hpy tile k
  have htile : tile < s.tilesX * s.tilesY := tileNumber_lt htx hty
  have hk : k < 64 * (s.tilesX * s.tilesY) := by omega
  refine ⟨tilePos_of_tile ty htx hpx hpy, fun he herr => ?_, fun he herr hq => ?_⟩
  · obtain rfl : runTile .four f s = t := Host.Outcome.next.inj he
    have h := tileIdx_eq_nibble herr hk
    rwa [show k / 2 = 32 * tile + 4 * py + px / 2 by omega, show k % 2 = px % 2 by omega, ← Nat.add_assoc,
      ← Nat.add_assoc] at h
  · obtain rfl : runTile .eight f s = t := Host.Outcome.next.inj he
    have h := outGet_runTile_eight herr hq hk
    rwa [show k = 64 * tile + 8 * py + px from rfl, ← Nat.add_assoc, ← Nat.add_assoc] at h

end Sys2Proof.Machine
end

section
/-! SUPPORT. The bitmap commands past their checks: the scan of the region in closed form, and the bytes of the two artifacts (R74,
R110, R140 to R144). -/

namespace Sys2Proof.Machine

/-- An artifact's completion in the terms claims use (R21, R22, R42, R171). -/
theorem finishArtifact_eq_wroteArtifact (bs : List Byte) (r0 r1 : Nat) (s : State) :
    finishArtifact bs r0 r1 s = s.wroteArtifact (Memory.setBlock s.out s.outbase.toNat bs) bs.length r0 r1 := rfl

/-- A bitmap command whose operands pass every check has its region (R140 to R142). -/
theorem bmpPlan_of_checks {e : Nat} {f : BmpFlags} {s : State} (h : s.bmpOk f)
    (hfit : s.outbase.toNat + (s.bmpRect f).rw * (s.bmpRect f).rh * e ≤ s.outSize) : bmpPlan e f s = .ok (s.bmpRect f) := by
  obtain ⟨hvalid, hempty, hx, hy⟩ := h
  have hregion : bmpRegion f s = s.bmpRect f := rfl
  have hinside : rectInside s (s.bmpRect f) = true := by simp [rectInside, hx, hy]
  rw [bmpPlan, hregion]
  rw [if_neg (by simp [hvalid]), if_neg (by simpa [imageEmpty] using hempty), if_neg (by simp [hinside]),
    if_neg (by simpa [overflowsOut] using hfit)]

/-! ## `BMPI` -/

/-- The scan of a region gives an index for each of its elements (R142, R143). -/
theorem bmpScan_eq (r : Region) (s : State) :
    bmpScan r s =
      { indices := (List.range (r.rw * r.rh)).map fun k => (classify (s.bmpQuant r k) (s.bmpPixel r k)).1
        quant := s.bmpQuant r (r.rw * r.rh), bad := none } := by
  have h := scanPositions_complete (f := fun q pos => classify q (imgPixel s.img pos.1 pos.2)) (limit := none)
    (qs := s.bmpQuant r) (pos := fun k => (r.rx + k % r.rw, r.ry + k / r.rw)) (r.rw * r.rh) 0 (fun _ _ _ => rfl)
    fun _ _ _ => rfl
  rw [← List.range_eq_range', Nat.zero_add] at h
  rw [bmpScan, regionPositions_eq]
  exact h

/-- Settles O53: past the checks the artifact is the scan in closed form (`bmpScan_eq`), read back byte by byte. -/
theorem bmpiWritesIndices : Obligations.BmpiWritesIndices := by
  intro f s r len hok hfit
  have hplan : bmpPlan 1 f s = .ok r := bmpPlan_of_checks hok (by rwa [Nat.mul_one])
  have hlen : ((bmpScan r s).indices.map (BitVec.ofNat 8)).length = len := by simp [bmpScan_eq, len]
  refine ⟨Memory.setBlock s.out s.outbase.toNat ((bmpScan r s).indices.map (BitVec.ofNat 8)), ?_, fun k hk => ?_,
    fun a ha => outGet_setBlock_outside (by rwa [hlen])⟩
  · show execBmpi f s = _
    rw [execBmpi, hplan]
    simp only [finishArtifact_eq_wroteArtifact, hlen]
    rw [bmpScan_eq]
    rfl
  · refine outGet_setBlock_of_getElem? ?_
    rw [bmpScan_eq]
    simp [len, hk]

/-! ## `BMPC` -/

/-- The colours of a region, element by element (R142, R144). -/
theorem bmpColours_eq (s : State) (r : Region) :
    bmpColours s.img r = (List.range (r.rw * r.rh)).flatMap fun k => le16 (to15 (pixelRgb (s.bmpPixel r k))) := by
  rw [bmpColours, regionPositions_eq, List.flatMap_map]
  rfl

/-- Settles O54: element k stands at bytes 2k and 2k + 1 (`flatMap_le16_getElem?`), and the two bytes are its colour. -/
theorem bmpcWritesColours : Obligations.BmpcWritesColours := by
  intro f s r len hok hfit
  have hplan : bmpPlan 2 f s = .ok r := bmpPlan_of_checks hok (by rwa [Nat.mul_comm])
  have hlen : (bmpColours s.img r).length = 2 * len := by rw [bmpColours_length, Nat.mul_comm]
  refine ⟨Memory.setBlock s.out s.outbase.toNat (bmpColours s.img r), ?_, fun k hk => ?_,
    fun a ha => outGet_setBlock_outside (by rwa [hlen])⟩
  · show execBmpc f s = _
    rw [execBmpc, hplan]
    simp only [finishArtifact_eq_wroteArtifact, hlen]
  · obtain ⟨hlow, hhigh⟩ := flatMap_le16_getElem? len (s.bmpPixel r) (fun p => to15 (pixelRgb p)) k hk
    rw [bmpColours_eq, Nat.add_assoc, outGet_setBlock_of_getElem? hlow, outGet_setBlock_of_getElem? hhigh, le16_toNat, to15_toNat]
    rfl

end Sys2Proof.Machine
end

section
/-! SUPPORT. The font artifact: what `FONT` writes when every glyph fits its format, and its bytes read back glyph by glyph (R76 to
R78, R151 to R159). -/

namespace Sys2Proof.Machine

/-! ## The artifact and its layout -/

/-- The header table and the row data of all glyphs (R76 to R78, R158). -/
def fontArtifact (s : State) (boxes : Nat → Option Box) : FontPart :=
  { headers := (List.range s.glyphCount).flatMap (glyphHeaderBytes s boxes)
    rows := (List.range s.glyphCount).flatMap (glyphRowData s boxes) }

theorem glyphHeaderBytes_of_blank (s : State) {boxes : Nat → Option Box} {g : Nat} (h : boxes g = none) :
    glyphHeaderBytes s boxes g = [0#8, 0#8, 0#8, 0#8] := by
  simp only [glyphHeaderBytes, h]

theorem glyphHeaderBytes_of_box (s : State) {boxes : Nat → Option Box} {g : Nat} {b : Box} (h : boxes g = some b) :
    glyphHeaderBytes s boxes g = glyphHeader b (s.glyphOffset boxes g) := by
  simp only [glyphHeaderBytes, h]

theorem glyphRowData_of_box (s : State) {boxes : Nat → Option Box} {g : Nat} {b : Box} (h : boxes g = some b) :
    glyphRowData s boxes g = glyphRows s.img (glyphCell s g) b := by
  simp only [glyphRowData, h]

theorem fontArtifact_headers_length (s : State) (boxes : Nat → Option Box) :
    (fontArtifact s boxes).headers.length = 4 * s.glyphCount :=
  flatMap_range_length (glyphHeaderBytes s boxes) (fun k => 4 * k) rfl
    (fun k => by rw [glyphHeaderBytes_length, Nat.mul_succ]) _

theorem fontArtifact_rows_length (s : State) (boxes : Nat → Option Box) :
    (fontArtifact s boxes).rows.length = rowBytesBefore boxes s.glyphCount :=
  flatMap_range_length (glyphRowData s boxes) (rowBytesBefore boxes) rfl (glyphRowData_length s boxes) _

/-- The bytes of the artifact, in the order `FONT` writes them. -/
def fontBytes (s : State) (boxes : Nat → Option Box) : List Byte :=
  (fontArtifact s boxes).headers ++ (fontArtifact s boxes).rows

theorem fontBytes_length (s : State) (boxes : Nat → Option Box) :
    (fontBytes s boxes).length = 4 * s.glyphCount + rowBytesBefore boxes s.glyphCount := by
  rw [fontBytes, List.length_append, fontArtifact_headers_length, fontArtifact_rows_length]

/-- Headers have 4 bytes each and come first (R76). -/
theorem fontBytes_header (s : State) (boxes : Nat → Option Box) {g j : Nat} (hg : g < s.glyphCount) (hj : j < 4) :
    (fontBytes s boxes)[4 * g + j]? = (glyphHeaderBytes s boxes g)[j]? := by
  rw [fontBytes, List.getElem?_append_left (by rw [fontArtifact_headers_length]; omega)]
  exact flatMap_range_getElem? (glyphHeaderBytes s boxes) (fun k => 4 * k) rfl
    (fun k => by rw [glyphHeaderBytes_length, Nat.mul_succ]) _ g j hg (by rwa [glyphHeaderBytes_length])

/-- The row data of a glyph begins at the glyph's offset (R77, R156). -/
theorem fontBytes_rows (s : State) (boxes : Nat → Option Box) {g j : Nat} (hg : g < s.glyphCount)
    (hj : j < (glyphRowData s boxes g).length) :
    (fontBytes s boxes)[s.glyphOffset boxes g + j]? = (glyphRowData s boxes g)[j]? := by
  rw [fontBytes, State.glyphOffset, Nat.add_assoc, ← fontArtifact_headers_length s boxes,
    List.getElem?_append_right (Nat.le_add_right _ _), Nat.add_sub_cancel_left]
  exact flatMap_range_getElem? (glyphRowData s boxes) (rowBytesBefore boxes) rfl (glyphRowData_length s boxes) _ g j hg hj

/-! ## The outcome of the command -/

/-- Past the checks of R150, with every glyph fitting, only the window test of R158 is left. -/
theorem fontPlan_of_glyphsFit {s : State} {boxes : Nat → Option Box} (hok : s.fontOk) (hb : s.glyphBoxes boxes)
    (hfits : ∀ g < s.glyphCount, s.glyphFits boxes g) :
    fontPlan s = if overflowsOut s (fontBytes s boxes).length then .error (.outputOverflow, 0#32)
      else .ok (fontArtifact s boxes) := by
  obtain ⟨hvalid, hcw, hch, hx, hy⟩ := hok
  have hinside : rectInside s (rectRegion s) = true := (rectInside_rectRegion s).mpr ⟨hx, hy⟩
  have hpack := packGlyphs_all hb s.glyphCount 0 (by omega) fun g _ hg => hfits g (by omega)
  rw [← List.range_eq_range'] at hpack
  rw [fontPlan, if_neg (by simp [hvalid]), if_neg (by simp [hcw, hch]), if_neg (by simp [hinside]), glyphOffset_zero s boxes,
    fontCells_eq, hpack, fontBytes, List.length_append]
  rfl

theorem execFont_of_no_room {s : State} {boxes : Nat → Option Box} (hok : s.fontOk) (hb : s.glyphBoxes boxes)
    (hfits : ∀ g < s.glyphCount, s.glyphFits boxes g) (h : s.outSize < s.outbase.toNat + (fontBytes s boxes).length) :
    execFont s = .next (s.raised 12#4 0#32) := by
  rw [execFont, fontPlan_of_glyphsFit hok hb hfits, if_pos (by simpa [overflowsOut] using h)]
  rfl

theorem execFont_of_room {s : State} {boxes : Nat → Option Box} (hok : s.fontOk) (hb : s.glyphBoxes boxes)
    (hfits : ∀ g < s.glyphCount, s.glyphFits boxes g) (h : s.outbase.toNat + (fontBytes s boxes).length ≤ s.outSize) :
    execFont s = .next (s.wroteArtifact (Memory.setBlock s.out s.outbase.toNat (fontBytes s boxes)) (fontBytes s boxes).length
      s.glyphCount (rowBytesBefore boxes s.glyphCount)) := by
  have hcount : fontRows s * fontCols s = s.glyphCount := Nat.mul_comm _ _
  rw [execFont, fontPlan_of_glyphsFit hok hb hfits, if_neg (by simpa [overflowsOut] using h)]
  simp only [fontArtifact_rows_length, hcount]
  rfl

/-! ## The bytes of a glyph -/

/-- The header of a non-blank glyph as numbers: its width and height in one byte, its vertical offset, its offset (R76, R156). -/
theorem glyphHeader_spec {b : Box} {off : Nat} (hw : b.w ≤ 12) (hh : b.h ≤ 12) (hv : b.yMin ≤ 15) (ho : off ≤ 65535) :
    ∃ wh v lo hi, glyphHeader b off = [wh, v, lo, hi] ∧ wh.toNat = b.w + 16 * b.h ∧ v.toNat = b.yMin ∧
      lo.toNat + 256 * hi.toNat = off := by
  refine ⟨_, _, _, _, rfl, nibbles_toNat (by omega) (by omega), ?_, ?_⟩
  · rw [BitVec.toNat_ofNat, Nat.mod_eq_of_lt (by omega)]
  · rw [le16_toNat, BitVec.toNat_ofNat, Nat.mod_eq_of_lt (by omega)]

/-- Inside a glyph's box, a pixel of its cell is one of the glyph (R152, R153). -/
theorem cellSet_of_inBox {s : State} {g : Nat} {b : Box} (hb : s.glyphBox g b) {c t : Nat} (hc : c < b.w) (ht : t < b.h) :
    cellSet s.img (glyphCell s g) (b.xMin + c) (b.yMin + t) = s.glyphSet g (b.xMin + c) (b.yMin + t) := by
  obtain ⟨hin, -, ⟨v, hright⟩, -, ⟨u, hbottom⟩⟩ := hb
  obtain ⟨hxle, -, -, -⟩ := hin _ _ hright
  obtain ⟨-, -, hyle, -⟩ := hin _ _ hbottom
  simp only [State.glyphSet, Bool.and_eq_true, decide_eq_true_eq] at hright hbottom
  obtain ⟨⟨hcw, -⟩, -⟩ := hright
  obtain ⟨⟨-, hch⟩, -⟩ := hbottom
  unfold Box.w at hc
  unfold Box.h at ht
  have hx : b.xMin + c < s.cellW.toNat := by omega
  have hy : b.yMin + t < s.cellH.toNat := by omega
  simp only [State.glyphSet, hx, hy, decide_true, Bool.true_and]
  rfl

/-- Bit `c` of row `t` of a glyph's row data is the pixel at column `c` of that row of its box (R155). -/
theorem glyphRows_bit {s : State} {g : Nat} {b : Box} (hb : s.glyphBox g b) {t c : Nat} (ht : t < b.h)
    (hc : c < 8 * boxRowSize b) :
    ∃ v, (glyphRows s.img (glyphCell s g) b)[t * boxRowSize b + c / 8]? = some v ∧
      v.getLsbD (c % 8) = (decide (c < b.w) && s.glyphSet g (b.xMin + c) (b.yMin + t)) := by
  obtain ⟨v, hv, hbit⟩ := rowBytes_getLsbD s.img (glyphCell s g) b t c hc
  refine ⟨v, ?_, ?_⟩
  · rw [← hv]
    exact flatMap_range_getElem? (fun t => rowBytes b.w (rowValue s.img (glyphCell s g) b t)) (fun t => t * boxRowSize b)
      (Nat.zero_mul _) (fun k => by rw [rowBytes_length, Nat.succ_mul]) b.h t (c / 8) ht (by rw [rowBytes_length]; omega)
  · rw [hbit]
    by_cases hcw : c < b.w
    · rw [cellSet_of_inBox hb hcw ht]
    · simp [hcw]

/-- The header of a blank glyph is 0 (R76). -/
theorem outGet_font_blank {s : State} {boxes : Nat → Option Box} (m : Memory Byte) (base : Nat) {g : Nat}
    (hg : g < s.glyphCount) (hnone : boxes g = none) {j : Nat} (hj : j < 4) :
    outGet (Memory.setBlock m base (fontBytes s boxes)) (base + 4 * g + j) = 0#8 := by
  rw [Nat.add_assoc]
  refine outGet_setBlock_of_getElem? ?_
  rw [fontBytes_header s boxes hg hj, glyphHeaderBytes_of_blank s hnone]
  match j, hj with
  | 0, _ | 1, _ | 2, _ | 3, _ => rfl

/-- The header of a glyph with a box, read back (R76, R156). -/
theorem outGet_font_header {s : State} {boxes : Nat → Option Box} (m : Memory Byte) (base : Nat) {g : Nat} {b : Box}
    (hg : g < s.glyphCount) (hsome : boxes g = some b) (hfits : s.glyphFits boxes g) :
    let out := Memory.setBlock m base (fontBytes s boxes)
    (outGet out (base + 4 * g)).toNat = b.w + 16 * b.h ∧ (outGet out (base + 4 * g + 1)).toNat = b.yMin ∧
      (outGet out (base + 4 * g + 2)).toNat + 256 * (outGet out (base + 4 * g + 3)).toNat = s.glyphOffset boxes g := by
  obtain ⟨hw, hh, hv, ho⟩ := hfits b hsome
  obtain ⟨wh, v, lo, hi, hbytes, hwh, hvoff, hoff⟩ := glyphHeader_spec hw hh hv ho
  have hread : ∀ {j : Nat} {x : Byte}, j < 4 → [wh, v, lo, hi][j]? = some x →
      outGet (Memory.setBlock m base (fontBytes s boxes)) (base + 4 * g + j) = x := fun {j x} hj hx => by
    rw [Nat.add_assoc]
    refine outGet_setBlock_of_getElem? ?_
    rw [fontBytes_header s boxes hg hj, glyphHeaderBytes_of_box s hsome, hbytes, hx]
  refine ⟨?_, ?_, ?_⟩
  · rw [← Nat.add_zero (base + 4 * g), hread (by omega) rfl, hwh]
  · rw [hread (by omega) rfl, hvoff]
  · rw [hread (by omega) rfl, hread (by omega) rfl, hoff]

/-- The row data of a glyph with a box, read back bit by bit (R77, R155). -/
theorem outGet_font_row {s : State} {boxes : Nat → Option Box} (m : Memory Byte) (base : Nat) {g : Nat} {b : Box}
    (hg : g < s.glyphCount) (hsome : boxes g = some b) (hbox : s.glyphBox g b) {t c : Nat} (ht : t < b.h)
    (hc : c < 8 * boxRowSize b) :
    (outGet (Memory.setBlock m base (fontBytes s boxes)) (base + s.glyphOffset boxes g + t * boxRowSize b + c / 8)).getLsbD
      (c % 8) = (decide (c < b.w) && s.glyphSet g (b.xMin + c) (b.yMin + t)) := by
  obtain ⟨v, hv, hbit⟩ := glyphRows_bit hbox ht hc
  have hdata := glyphRowData_of_box s hsome
  obtain ⟨hlt, -⟩ := List.getElem?_eq_some_iff.mp hv
  have hread : (fontBytes s boxes)[s.glyphOffset boxes g + (t * boxRowSize b + c / 8)]? = some v := by
    rw [fontBytes_rows s boxes hg (by rwa [hdata]), hdata, hv]
  rw [Nat.add_assoc (base + _), Nat.add_assoc base, outGet_setBlock_of_getElem? hread, hbit]

/-- Settles O58: every glyph contributes its header and its rows (`fontPlan_of_glyphsFit`), each read back where it was laid. -/
theorem fontWritesTheArtifact : Obligations.FontWritesTheArtifact := by
  intro s boxes hok hb hfits base len
  have hlen : (fontBytes s boxes).length = len := fontBytes_length s boxes
  refine ⟨fun hfull => execFont_of_no_room hok hb hfits (by rwa [hlen]), fun hroom =>
    ⟨Memory.setBlock s.out base (fontBytes s boxes), ?_, fun a ha => outGet_setBlock_outside (by rwa [hlen]), fun g hg => ?_⟩⟩
  · rw [← hlen]
    exact execFont_of_room hok hb hfits (by rwa [hlen])
  · have hbox := hb g hg
    cases hg' : boxes g with
    | none => exact fun j hj => outGet_font_blank s.out base hg hg' hj
    | some b =>
      rw [hg'] at hbox
      obtain ⟨hsize, hvoff, hoff⟩ := outGet_font_header s.out base hg hg' (hfits g hg)
      exact ⟨hsize, hvoff, hoff, fun t ht c hc => outGet_font_row s.out base hg hg' hbox ht hc⟩

end Sys2Proof.Machine
end

section
/-! SUPPORT. The quantizer as `Classify` and its three commands (R90 to R99): the nearest entry, what a call gives in each mode, and
what `QFIX`, `QINC` and `QCLS` write. -/

namespace Sys2Proof.Machine

/-! ## The nearest entry -/

/-- Settles O33: the three facts hold channel by channel. -/
theorem distanceIsSquaredEuclidean : Obligations.DistanceIsSquaredEuclidean := by
  intro p e
  refine ⟨by simp only [dist2, Nat.cast_add, channelDist2_int], ?_, by simp [dist2, channelDist2_eq_zero, and_assoc]⟩
  have hr := channelDist2_le p.r e.r
  have hg := channelDist2_le p.g e.g
  have hb := channelDist2_le p.b e.b
  simp only [dist2]
  omega

/-- The nearest entry depends on no entry outside 1 to n − 1 (R91). -/
theorem isNearest_congr {pal pal' : Memory Rgb} {p : Pixel} {n i : Nat}
    (h : ∀ j, 1 ≤ j → j < n → palGet pal' j = palGet pal j) (hi : isNearest pal p n i) : isNearest pal' p n i := by
  obtain ⟨hpos, hlt, hleast, hfirst⟩ := hi
  have hsame : ∀ j, 1 ≤ j → j < n → dist2 p (palGet pal' j) = dist2 p (palGet pal j) := fun j hj hjn => by rw [h j hj hjn]
  refine ⟨hpos, hlt, fun j hj hjn => ?_, fun j hj hji => ?_⟩
  · rw [hsame i hpos hlt, hsame j hj hjn]; exact hleast j hj hjn
  · rw [hsame i hpos hlt, hsame j hj (hji.trans hlt)]; exact hfirst j hj hji

/-- Where an entry holds the pixel's colour, so does the nearest one (R90, R91). -/
theorem palGet_of_isNearest {pal : Memory Rgb} {p : Pixel} {n i j : Nat} (hi : isNearest pal p n i) (hj : 1 ≤ j) (hjn : j < n)
    (h : palGet pal j = pixelRgb p) : palGet pal i = pixelRgb p := by
  obtain ⟨_, _, hleast, _⟩ := hi
  have hle := hleast j hj hjn
  rw [(dist2_eq_zero p _).mpr h] at hle
  exact (dist2_eq_zero p _).mp (Nat.le_zero.mp hle)

/-- The least entry that holds the pixel's colour is the nearest (R99). -/
theorem isNearest_of_exact {pal : Memory Rgb} {p : Pixel} {n i : Nat} (hpos : 1 ≤ i) (hlt : i < n)
    (h : palGet pal i = pixelRgb p) (hfirst : ∀ j, 1 ≤ j → j < i → palGet pal j ≠ pixelRgb p) : isNearest pal p n i := by
  have hzero := (dist2_eq_zero p _).mpr h
  refine ⟨hpos, hlt, fun j _ _ => hzero ▸ Nat.zero_le _, fun j hj hji => ?_⟩
  rw [hzero]
  exact Nat.pos_of_ne_zero fun hj0 => hfirst j hj hji ((dist2_eq_zero p _).mp hj0)

/-! ## What a call gives -/

/-- Fixed mode with an entry above 0 (R93). -/
theorem classify_fixed_nearest {q : Quant} {p : Pixel} (hm : q.qstate.mode = .nearestFixed) (ha : p.a = 255#8)
    (hc : 2 ≤ q.qstate.count.toNat) : ∃ i, isNearest q.pal p q.qstate.count.toNat i ∧ classify q p = (i, q) := by
  obtain ⟨i, hi, he⟩ := nearest_spec q.pal p hc
  exact ⟨i, hi, by rw [classify_fixed p hm]; simp [classifyFixed, ha, he]⟩

/-- Fixed mode with no entry above 0 (R91, R93). -/
theorem classify_fixed_of_le_one {q : Quant} (p : Pixel) (hm : q.qstate.mode = .nearestFixed)
    (hc : q.qstate.count.toNat ≤ 1) : classify q p = (0, q) := by
  rw [classify_fixed p hm]
  simp [classifyFixed, nearest_of_le_one _ _ hc]

/-- In either mode an opaque pixel gets the nearest entry above 0 in use, or is recorded because none of them holds its colour
(R93, R94). -/
theorem classify_opaque_cases {q : Quant} {p : Pixel} (ha : p.a = 255#8) (hc : 2 ≤ q.qstate.count.toNat) :
    (∃ i, isNearest q.pal p q.qstate.count.toNat i ∧ classify q p = (i, q)) ∨
      (classify q p = recordColour q p ∧ ∀ j, 1 ≤ j → j < q.qstate.count.toNat → palGet q.pal j ≠ pixelRgb p) := by
  cases hm : q.qstate.mode with
  | nearestFixed => exact .inl (classify_fixed_nearest hm ha hc)
  | incrementalNaive =>
    rw [classify_incremental p hm]
    rcases classifyInc_cases (q := q) ha with ⟨hfew, _⟩ | ⟨_, i, hi, ⟨_, he⟩ | ⟨⟨hd, _⟩, he⟩⟩
    · omega
    · exact .inl ⟨i, hi, he⟩
    · exact .inr ⟨he, fun j hj hjn h => hd ((dist2_eq_zero p _).mpr (palGet_of_isNearest hi hj hjn h))⟩

/-- Settles O34: an opaque pixel's index is a nearest entry, which is above 0 and black where an entry and the pixel are, or the
next index. -/
theorem transparencyIsByAlphaAlone : Obligations.TransparencyIsByAlphaAlone := by
  intro q p
  refine ⟨classify_transparent, fun ha hc => ?_⟩
  rcases classify_opaque_cases ha hc with ⟨i, hi, he⟩ | ⟨he, hnew⟩
  · rw [he]
    have ⟨hpos, hlt, _, _⟩ := hi
    refine ⟨by simp only; omega, fun ⟨j, hj, hjn, hblack⟩ hp => ⟨hlt, ?_⟩⟩
    rw [← hp]
    exact palGet_of_isNearest hi hj hjn (hblack.trans hp.symm)
  · rw [he]
    refine ⟨by simp only [recordColour]; omega, fun ⟨j, hj, hjn, hblack⟩ hp => ?_⟩
    exact absurd (hblack.trans hp.symm) (hnew j hj hjn)

/-- Settles O35: with an entry above 0 the index is the nearest entry, the same one for every palette that agrees on the entries
searched. -/
theorem fixedClassifyIsNearestAndStateless : Obligations.FixedClassifyIsNearestAndStateless := by
  intro q p hm
  refine ⟨by rw [classify_fixed p hm], fun ha => by rw [classify_transparent ha], fun ha hc => ?_,
    fun _ hc => by rw [classify_fixed_of_le_one p hm hc], fun pal hpal => ?_⟩
  · obtain ⟨i, hi, he⟩ := classify_fixed_nearest hm ha hc
    rwa [he]
  · by_cases ha : p.a = 255#8
    swap
    · rw [classify_transparent ha, classify_transparent ha]
    by_cases hc : 2 ≤ q.qstate.count.toNat
    · obtain ⟨i, hi, he⟩ := classify_fixed_nearest hm ha hc
      obtain ⟨j, hj, he'⟩ := classify_fixed_nearest (q := { q with pal := pal }) hm ha hc
      rw [he, he']
      exact isNearest_unique hj (isNearest_congr hpal hi)
    · rw [classify_fixed_of_le_one p hm (by omega),
        classify_fixed_of_le_one (q := { q with pal := pal }) p hm (by simp only; omega)]

/-! ## The constructors -/

/-- Both constructors refuse a number of entries in the same way (R96, R97, R172). -/
theorem endWithError_badOperand (n : BitVec 9) (s : State) :
    endWithError .badOperand (n.setWidth 32) s = s.raised 11#4 (BitVec.ofNat 32 n.toNat) := by
  rw [BitVec.ofNat_toNat]
  rfl

/-- Settles O36: `QFIX` is the test of R96 and its two outcomes. -/
theorem qfixConstructsFixedQuantizer : Obligations.QfixConstructsFixedQuantizer := by
  intro n s
  have hexec : exec (.qfix n) s = execQfix n s := rfl
  rw [hexec, execQfix, Config.palSize]
  refine ⟨fun hlo hhi => ?_, fun hbad => ?_⟩
  · rw [if_neg (by omega)]; rfl
  · rw [if_pos hbad, endWithError_badOperand]

theorem exec_qinc_of_legal {n : BitVec 9} (s : State) (hlo : 2 ≤ n.toNat) (hhi : n.toNat ≤ 256) :
    exec (.qinc n) s = .next (State.ended { s with
      pal := Memory.set s.pal 0 { r := 0#8, g := 0#8, b := 0#8 }
      qstate := { mode := .incrementalNaive, count := 1#9, cap := n } }) := by
  have hexec : exec (.qinc n) s = execQinc n s := rfl
  rw [hexec, execQinc, Config.palSize, if_neg (by omega)]
  rfl

/-- Settles O37: `QINC` is the test of R97 and its two outcomes; the one write to `PAL` is that of entry 0. -/
theorem qincConstructsIncrementalQuantizer : Obligations.QincConstructsIncrementalQuantizer := by
  intro n s
  refine ⟨fun hlo hhi => ⟨_, exec_qinc_of_legal s hlo hhi, ?_, fun i hi => ?_⟩, fun hbad => ?_⟩
  · rw [palGet_set, if_pos rfl]
  · rw [palGet_set, if_neg hi]
  · have hexec : exec (.qinc n) s = execQinc n s := rfl
    rw [hexec, execQinc, Config.palSize, if_pos hbad, endWithError_badOperand]

/-! ## `QCLS` -/

/-- `QCLS` is one call of `Classify` with the pixel in `PIXEL` (R98). -/
theorem exec_qcls {s : State} {i : Nat} {q : Quant} (h : classify s.quant (pixelOfWord s.pixel) = (i, q)) :
    exec .qcls s = .next (State.ended { s with result := BitVec.ofNat 32 i, qstate := q.qstate, pal := q.pal }) := by
  have hexec : exec .qcls s = execQcls s := rfl
  rw [hexec, execQcls, h]
  rfl

/-- A call that leaves the quantizer alone writes `RESULT` only. -/
theorem exec_qcls_of_unchanged {s : State} {i : Nat} (h : classify s.quant (pixelOfWord s.pixel) = (i, s.quant)) :
    exec .qcls s = .next (State.ended { s with result := BitVec.ofNat 32 i }) := exec_qcls h

/-- A call that records the colour writes `RESULT`, `QCOUNT` and the next entry (R94). -/
theorem exec_qcls_of_record {s : State} (h : classify s.quant (pixelOfWord s.pixel) = recordColour s.quant (pixelOfWord s.pixel)) :
    ∃ pal, exec .qcls s = .next (State.ended { s with
        result := BitVec.ofNat 32 s.qstate.count.toNat, pal := pal
        qstate := { s.qstate with count := BitVec.ofNat 9 (s.qstate.count.toNat + 1) } }) ∧
      palGet pal s.qstate.count.toNat = pixelRgb (pixelOfWord s.pixel) ∧
      ∀ j, j ≠ s.qstate.count.toNat → palGet pal j = palGet s.pal j := by
  have hcount : BitVec.ofNat 9 (s.qstate.count.toNat + 1) = s.qstate.count + 1#9 := by
    rw [BitVec.ofNat_add, BitVec.ofNat_toNat, BitVec.setWidth_eq]
  rw [hcount]
  exact ⟨_, exec_qcls h, (palGet_set _ _ _ _).trans (if_pos rfl), fun j hj => (palGet_set _ _ _ _).trans (if_neg hj)⟩

/-- Settles O38: the call gives 0 and leaves the quantizer alone (R92). -/
theorem qclsTransparentPixelIsZero : Obligations.QclsTransparentPixelIsZero :=
  fun _ ha => exec_qcls_of_unchanged (classify_transparent ha)

/-- Settles O39: the call gives the nearest entry and leaves the quantizer alone (R93). -/
theorem qclsFixedGivesNearestEntry : Obligations.QclsFixedGivesNearestEntry := by
  intro s ha hm hc
  obtain ⟨i, hi, he⟩ := classify_fixed_nearest (q := s.quant) hm ha hc
  exact ⟨i, hi, exec_qcls_of_unchanged he⟩

/-- Settles O40: the search has no candidate (R91). -/
theorem qclsOneEntryPaletteGivesZero : Obligations.QclsOneEntryPaletteGivesZero :=
  fun s _ hm hc => exec_qcls_of_unchanged (classify_fixed_of_le_one (q := s.quant) _ hm (le_of_eq hc))

/-- Settles O41: the least exact entry is the nearest entry that `QCLS` gives (O39). -/
theorem qclsExactMatchGivesLeastEntry : Obligations.QclsExactMatchGivesLeastEntry := by
  intro s i ha hm hpos hlt hexact hfirst
  obtain ⟨j, hj, he⟩ := qclsFixedGivesNearestEntry s ha hm (by omega)
  rwa [isNearest_unique (isNearest_of_exact hpos hlt hexact hfirst) hj]

/-- Settles O42: the cases of `ClassifyInc` (R94), each with what `QCLS` then writes. -/
theorem qclsIncrementalRecordsOrMatches : Obligations.QclsIncrementalRecordsOrMatches := by
  intro s ha hm n p records
  have hinc : classify s.quant p = classifyInc s.quant p := classify_incremental p hm
  have hrecord : classifyInc s.quant p = recordColour s.quant p → records := fun he => exec_qcls_of_record (hinc.trans he)
  rcases classifyInc_cases (q := s.quant) ha with ⟨hc, he⟩ | ⟨hc, i, hi, hcase⟩
  · exact ⟨fun _ => hrecord he, fun hc' => absurd hc (Nat.not_lt.mpr hc')⟩
  · refine ⟨fun hc' => absurd hc' (Nat.not_lt.mpr hc), fun _ => ⟨i, hi, fun hstay => ?_, fun hd hroom => ?_⟩⟩
    · rcases hcase with ⟨_, he⟩ | ⟨⟨hd, hroom⟩, _⟩
      · exact exec_qcls_of_unchanged (hinc.trans he)
      · exact absurd hstay (not_or.mpr ⟨hd, hroom⟩)
    · rcases hcase with ⟨hstay, _⟩ | ⟨_, he⟩
      · exact absurd hstay (not_or.mpr ⟨hd, hroom⟩)
      · exact hrecord he

end Sys2Proof.Machine
end

section
/-! SUPPORT. A stream of `QCLS` in incremental mode (R94, R100): while there is room, entries 1 to K hold the colours of the opaque
pixels seen so far in order of first occurrence, and every pixel gets its own colour's entry. -/

namespace Sys2Proof.Machine

/-! ## The colours of a stream -/

/-- The colours of the opaque pixels, each once, in order of first occurrence (R100). -/
def firstColours (ps : List Pixel) : List Rgb :=
  ((ps.filter fun p => p.a = 255#8).map pixelRgb).reverse.dedup.reverse

theorem mem_firstColours {c : Rgb} {ps : List Pixel} : c ∈ firstColours ps ↔ ∃ p ∈ ps, p.a = 255#8 ∧ pixelRgb p = c := by
  simp [firstColours, and_assoc]

/-- One more pixel adds its colour at the end when it is opaque and the colour is new, and nothing otherwise. -/
theorem firstColours_concat (ps : List Pixel) (p : Pixel) :
    firstColours (ps ++ [p]) =
      if p.a = 255#8 ∧ pixelRgb p ∉ firstColours ps then firstColours ps ++ [pixelRgb p] else firstColours ps := by
  by_cases ha : p.a = 255#8
  · by_cases hc : pixelRgb p ∈ (ps.filter fun p => p.a = 255#8).map pixelRgb <;>
      simp [firstColours, ha, hc]
  · simp [firstColours, ha]

/-- More pixels only add colours at the end. -/
theorem firstColours_isPrefix_append (ps ps' : List Pixel) : firstColours ps <+: firstColours (ps ++ ps') := by
  induction ps' using List.reverseRecOn with
  | nil => rw [List.append_nil]
  | append_singleton ps' p ih =>
    rw [← List.append_assoc, firstColours_concat]
    split
    · exact ih.trans ⟨_, rfl⟩
    · exact ih

/-- The index of a pixel in a palette that holds the colours `cs` from entry 1 on (R92, R100). -/
def colourIndex (cs : List Rgb) (p : Pixel) : Nat := if p.a = 255#8 then cs.idxOf (pixelRgb p) + 1 else 0

/-- Colours added later do not change the index of a pixel whose colour is there. -/
theorem colourIndex_of_isPrefix {cs cs' : List Rgb} {p : Pixel} (h : cs <+: cs') (hp : p.a = 255#8 → pixelRgb p ∈ cs) :
    colourIndex cs p = colourIndex cs' p := by
  unfold colourIndex
  split
  · next ha => rw [h.idxOf_eq_of_mem (hp ha)]
  · rfl

/-! ## A quantizer that has recorded some colours -/

/-- An incremental quantizer of capacity `cap` that holds exactly the colours `cs`, from entry 1 on (R94). -/
structure Quant.Recorded (q : Quant) (cap : BitVec 9) (cs : List Rgb) : Prop where
  qstate  : q.qstate = { mode := .incrementalNaive, count := BitVec.ofNat 9 (cs.length + 1), cap := cap }
  fits    : cs.length + 1 ≤ 256
  entries : ∀ k < cs.length, some (palGet q.pal (k + 1)) = cs[k]?

section Recorded
variable {q : Quant} {cap : BitVec 9} {cs : List Rgb} {p : Pixel}

theorem Quant.Recorded.mode (h : q.Recorded cap cs) : q.qstate.mode = .incrementalNaive := by rw [h.qstate]

theorem Quant.Recorded.count (h : q.Recorded cap cs) : q.qstate.count.toNat = cs.length + 1 := by
  have hfits := h.fits
  rw [h.qstate, BitVec.toNat_ofNat, Nat.mod_eq_of_lt (by omega)]

/-- A recorded colour stands at the entry after its position in the list. -/
theorem Quant.Recorded.palGet_idxOf (h : q.Recorded cap cs) {c : Rgb} (hc : c ∈ cs) : palGet q.pal (cs.idxOf c + 1) = c :=
  Option.some.inj ((h.entries _ (List.idxOf_lt_length_iff.mpr hc)).trans (List.getElem?_idxOf hc))

/-- No entry from 1 on and before that one holds it. -/
theorem Quant.Recorded.palGet_ne (h : q.Recorded cap cs) {c : Rgb} {k : Nat} (hk : k < cs.idxOf c) :
    palGet q.pal (k + 1) ≠ c := by
  intro he
  have hlt : k < cs.length := hk.trans_le List.idxOf_le_length
  have hget : cs[k] = c := by
    rw [← he, ← Option.some_inj, h.entries k hlt, List.getElem?_eq_getElem hlt]
  have hnot := List.not_of_lt_findIdx (p := (· == c)) hk
  simp [hget] at hnot

/-- The entries above 0 in use hold the recorded colours and no other. -/
theorem Quant.Recorded.palGet_mem (h : q.Recorded cap cs) {j : Nat} (hj : 1 ≤ j) (hjn : j < q.qstate.count.toNat) :
    palGet q.pal j ∈ cs := by
  obtain ⟨k, rfl⟩ := Nat.exists_eq_add_of_le' hj
  rw [h.count] at hjn
  exact List.mem_of_getElem? (h.entries k (by omega)).symm

/-- The nearest entry to a recorded colour is its own. -/
theorem Quant.Recorded.isNearest_idxOf (h : q.Recorded cap cs) (hc : pixelRgb p ∈ cs) :
    isNearest q.pal p q.qstate.count.toNat (cs.idxOf (pixelRgb p) + 1) := by
  have hlt : cs.idxOf (pixelRgb p) < cs.length := List.idxOf_lt_length_iff.mpr hc
  refine isNearest_of_exact (by omega) (by rw [h.count]; omega) (h.palGet_idxOf hc) fun j hj hji => ?_
  obtain ⟨k, rfl⟩ := Nat.exists_eq_add_of_le' hj
  exact h.palGet_ne (by omega)

/-- A transparent pixel and a recorded colour get their index and change nothing (R92, R94). -/
theorem Quant.Recorded.classify_known (h : q.Recorded cap cs) (hc : p.a = 255#8 → pixelRgb p ∈ cs) :
    classify q p = (colourIndex cs p, q) := by
  by_cases ha : p.a = 255#8
  swap
  · rw [classify_transparent ha, colourIndex, if_neg ha]
  have hi := h.isNearest_idxOf (hc ha)
  have ⟨hpos, hlt, _, _⟩ := hi
  rcases classify_opaque_cases (q := q) ha (by omega) with ⟨j, hj, he⟩ | ⟨_, hnew⟩
  · rw [he, isNearest_unique hj hi, colourIndex, if_pos ha]
  · exact absurd (h.palGet_idxOf (hc ha)) (hnew _ hpos hlt)

/-- A new colour is recorded while there is room (R94). -/
theorem Quant.Recorded.classify_new (h : q.Recorded cap cs) (ha : p.a = 255#8) (hc : pixelRgb p ∉ cs)
    (hroom : cs.length + 1 < cap.toNat) : classify q p = recordColour q p := by
  have hcount := h.count
  have hcap : q.qstate.cap = cap := by rw [h.qstate]
  rw [classify_incremental p h.mode]
  rcases classifyInc_cases (q := q) ha with ⟨_, he⟩ | ⟨_, i, ⟨hpos, hlt, _, _⟩, ⟨hd | hfull, _⟩ | ⟨_, he⟩⟩
  · exact he
  · exact absurd ((dist2_eq_zero p _).mp hd ▸ h.palGet_mem hpos hlt) hc
  · rw [hcap] at hfull
    rw [hfull] at hcount
    omega
  · exact he

/-- Recording a colour puts it at the end of the list. -/
theorem Quant.Recorded.after_record (h : q.Recorded cap cs) (p : Pixel) (hfits : cs.length + 2 ≤ 256) :
    (recordColour q p).2.Recorded cap (cs ++ [pixelRgb p]) := by
  have hq := h.qstate
  refine ⟨?_, by rw [List.length_append]; exact hfits, fun k hk => ?_⟩
  · simp [recordColour, hq, ← BitVec.ofNat_add]
  · simp only [recordColour, palGet_set, h.count]
    rw [List.length_append, List.length_singleton] at hk
    split
    · next heq =>
      obtain rfl : k = cs.length := by omega
      rw [List.getElem?_concat_length]
    · have hlt : k < cs.length := by omega
      rw [List.getElem?_append_left hlt, h.entries k hlt]

end Recorded

/-- One call on a quantizer that holds the colours of the pixels so far: the pixel gets its index among the colours with its own
added, and those are then held (R94). -/
theorem Quant.Recorded.classify_next {q : Quant} {cap : BitVec 9} {ps : List Pixel} (h : q.Recorded cap (firstColours ps))
    (p : Pixel) (hcap : cap.toNat ≤ 256) (hroom : (firstColours (ps ++ [p])).length + 1 ≤ cap.toNat) :
    ∃ q', classify q p = (colourIndex (firstColours (ps ++ [p])) p, q') ∧ q'.Recorded cap (firstColours (ps ++ [p])) := by
  rw [firstColours_concat] at hroom ⊢
  split at hroom
  · next hnew =>
    obtain ⟨ha, hc⟩ := hnew
    rw [if_pos ⟨ha, hc⟩]
    rw [List.length_append, List.length_singleton] at hroom
    refine ⟨_, ?_, h.after_record p (by omega)⟩
    have hindex : colourIndex (firstColours ps ++ [pixelRgb p]) p = q.qstate.count.toNat := by
      rw [colourIndex, if_pos ha, List.idxOf_append_of_notMem hc, List.idxOf_cons_self, h.count]
    rw [h.classify_new ha hc (by omega), hindex]
    rfl
  · next hold =>
    rw [if_neg hold]
    exact ⟨q, h.classify_known fun ha => not_not.mp fun hc => hold ⟨ha, hc⟩, h⟩

/-! ## A stream of `QCLS` -/

/-- The first command of a stream is one call of `Classify` (R98). -/
theorem qclsStream_cons {s : State} {w : Word} {i : Nat} {q : Quant} (h : classify s.quant (pixelOfWord w) = (i, q)) :
    ∃ t : State, t.quant = q ∧
      ∀ ws, qclsStream (w :: ws) s = (qclsStream ws t).map fun r => (BitVec.ofNat 32 i :: r.1, r.2) := by
  obtain ⟨t, hexec, hq, hr⟩ : ∃ t, exec .qcls { s with pixel := w } = .next t ∧ t.quant = q ∧ t.result = BitVec.ofNat 32 i :=
    ⟨_, exec_qcls h, rfl, rfl⟩
  exact ⟨t, hq, fun ws => by simp only [qclsStream, hexec, hr]⟩

/-- While there is room every pixel of the stream gets the index of its colour, and the colours are recorded in order of first
occurrence (R100). -/
theorem qclsStream_records {cap : BitVec 9} (hcap : cap.toNat ≤ 256) :
    ∀ (ws : List Word) (ps : List Pixel) (s : State), s.quant.Recorded cap (firstColours ps) →
      (firstColours (ps ++ ws.map pixelOfWord)).length + 1 ≤ cap.toNat →
      ∃ t, qclsStream ws s = some (ws.map fun w => BitVec.ofNat 32
          (colourIndex (firstColours (ps ++ ws.map pixelOfWord)) (pixelOfWord w)), t) ∧
        t.quant.Recorded cap (firstColours (ps ++ ws.map pixelOfWord))
  | [], ps, s, h, _ => ⟨s, rfl, by rwa [List.map_nil, List.append_nil]⟩
  | w :: ws, ps, s, h, hroom => by
    have hsplit : ps ++ (w :: ws).map pixelOfWord = (ps ++ [pixelOfWord w]) ++ ws.map pixelOfWord := by simp
    rw [hsplit] at hroom ⊢
    have hpre := firstColours_isPrefix_append (ps ++ [pixelOfWord w]) (ws.map pixelOfWord)
    have hlen := hpre.length_le
    obtain ⟨q, hcls, hq⟩ := h.classify_next (pixelOfWord w) hcap (by omega)
    obtain ⟨t, rfl, hstream⟩ := qclsStream_cons hcls
    obtain ⟨u, hrest, hu⟩ := qclsStream_records hcap ws _ t hq hroom
    refine ⟨u, ?_, hu⟩
    have hindex := colourIndex_of_isPrefix (p := pixelOfWord w) hpre fun ha => mem_firstColours.mpr ⟨_, by simp, ha, rfl⟩
    rw [hstream, hrest, hindex]
    rfl

/-- A stream of colours that are all recorded changes nothing (R100). -/
theorem qclsStream_known {cap : BitVec 9} {cs : List Rgb} :
    ∀ (ws : List Word) (s : State), s.quant.Recorded cap cs →
      (∀ w ∈ ws, (pixelOfWord w).a = 255#8 → pixelRgb (pixelOfWord w) ∈ cs) →
      ∃ t, qclsStream ws s = some (ws.map fun w => BitVec.ofNat 32 (colourIndex cs (pixelOfWord w)), t) ∧ t.quant = s.quant
  | [], s, _, _ => ⟨s, rfl, rfl⟩
  | w :: ws, s, h, hws => by
    obtain ⟨hw, hws⟩ := List.forall_mem_cons.mp hws
    obtain ⟨t, ht, hstream⟩ := qclsStream_cons (h.classify_known hw)
    obtain ⟨u, hrest, hu⟩ := qclsStream_known ws t (ht ▸ h) hws
    exact ⟨u, by rw [hstream, hrest]; rfl, hu.trans ht⟩

/-- After `QINC` no colour is recorded (R97). -/
theorem recorded_of_exec_qinc {n : BitVec 9} {s t : State} (hlo : 2 ≤ n.toNat) (hhi : n.toNat ≤ 256)
    (h : exec (.qinc n) s = .next t) : t.quant.Recorded n (firstColours []) := by
  rw [exec_qinc_of_legal s hlo hhi] at h
  cases h
  exact ⟨rfl, by decide, fun k hk => absurd hk (Nat.not_lt_zero k)⟩

/-- Settles O43: `QINC` records nothing yet, the first pass records every colour (`qclsStream_records`), and the second finds them all
(`qclsStream_known`). -/
theorem incrementalStreamIsBijective : Obligations.IncrementalStreamIsBijective := by
  intro n s s0 ws hlo hhi hinc colours hroom
  have hcolours : colours = firstColours (ws.map pixelOfWord) := rfl
  obtain ⟨t, hfirst, ht⟩ := qclsStream_records hhi ws [] s0 (recorded_of_exec_qinc hlo hhi hinc) hroom
  rw [List.nil_append, ← hcolours] at hfirst ht
  obtain ⟨t', hsecond, ht'⟩ := qclsStream_known ws t ht fun w hw ha =>
    mem_firstColours.mpr ⟨_, List.mem_map_of_mem hw, ha, rfl⟩
  refine ⟨_, t, hfirst, ht.qstate, ht.entries, ?_, t', hsecond, congrArg Quant.qstate ht', congrArg Quant.pal ht'⟩
  simp only [colourIndex, apply_ite (BitVec.ofNat 32)]

end Sys2Proof.Machine
end

section
/-! SUPPORT. The depth converter and the palette export (R70, R75, R110 to R112): the 15-bit colour as a result word, the palette
binary read back entry by entry, and the two outcomes of `PALX`. -/

namespace Sys2Proof.Machine

/-! ## `CVT15` -/

/-- The 15-bit colour as a result word (R70, R110). -/
theorem to15_setWidth (c : Rgb) :
    (to15 c).setWidth 32 = BitVec.ofNat 32 (c.r.toNat / 8 + 32 * (c.g.toNat / 8) + 1024 * (c.b.toNat / 8)) := by
  rw [← BitVec.ofNat_toNat, to15_toNat]

/-- Settles O44: the result is the 15-bit colour of the pixel in `PIXEL`, as a number (`to15_setWidth`). -/
theorem cvt15TruncatesChannels : Obligations.Cvt15TruncatesChannels := by
  intro s p
  have hexec : exec .cvt15 s = execCvt15 s := rfl
  rw [hexec, execCvt15, to15_setWidth]
  rfl

/-! ## `PALX` -/

/-- Entry `i` of a palette binary in `OUT` is the entry's 15-bit colour, low byte first (R41, R75). -/
theorem outGet_paletteBytes (m : Memory Byte) (base : Nat) (pal : Memory Rgb) {n i : Nat} (hi : i < n) :
    let out := Memory.setBlock m base (paletteBytes pal n)
    (outGet out (base + 2 * i)).toNat + 256 * (outGet out (base + 2 * i + 1)).toNat = (to15 (palGet pal i)).toNat := by
  intro out
  obtain ⟨hlow, hhigh⟩ := flatMap_le16_getElem? n (palGet pal) to15 i hi
  have hlow : outGet out (base + 2 * i) = (to15 (palGet pal i)).extractLsb' 0 8 := outGet_setBlock_of_getElem? hlow
  have hhigh : outGet out (base + 2 * i + 1) = (to15 (palGet pal i)).extractLsb' 8 8 := outGet_setBlock_of_getElem? hhigh
  rw [hlow, hhigh, le16_toNat]

/-- With room, the palette binary goes to `OUT` from `OUTBASE` (R112). -/
theorem exec_palx_of_room {s : State} (h : s.outbase.toNat + 2 * s.qstate.count.toNat ≤ s.outSize) :
    exec .palx s = .next (s.wroteArtifact
      (Memory.setBlock s.out s.outbase.toNat (paletteBytes s.pal s.qstate.count.toNat)) (2 * s.qstate.count.toNat)
      s.qstate.count.toNat 0) := by
  have hexec : exec .palx s = execPalx s := rfl
  rw [hexec, execPalx, palxPlan, if_neg (by simpa [overflowsOut] using h)]
  simp only [finishArtifact_eq_wroteArtifact, paletteBytes_length]

/-- Without room, nothing is written but the error (R51, R112, R172). -/
theorem exec_palx_of_no_room {s : State} (h : s.outSize < s.outbase.toNat + 2 * s.qstate.count.toNat) :
    exec .palx s = .next (s.raised 12#4 0#32) := by
  have hexec : exec .palx s = execPalx s := rfl
  rw [hexec, execPalx, palxPlan, if_pos (by simpa [overflowsOut] using h)]
  rfl

/-- Settles O45: `PALX` has the two outcomes of R112, and the palette binary reads back entry by entry (`outGet_paletteBytes`). -/
theorem palxExportsThePalette : Obligations.PalxExportsThePalette := by
  intro s n
  refine ⟨fun hroom => ⟨_, exec_palx_of_room hroom, fun i hi => ?_, fun a ha => ?_⟩, exec_palx_of_no_room⟩
  · rw [outGet_paletteBytes s.out s.outbase.toNat s.pal hi, to15_toNat]
  · exact outGet_setBlock_outside (by rwa [paletteBytes_length])

end Sys2Proof.Machine
end

section
/-! SUPPORT. The two tile commands as one (R120 to R132): what each check raises, what a scan that completes writes, what a
scan that stops leaves, and which registers take no part. -/

namespace Sys2Proof.Machine

/-! ## The two commands as one -/

/-- The tile command of each depth (R64). -/
def tileInstr : Bpp → TileFlags → Instr
  | .four => .tile4
  | .eight => .tile8

theorem exec_tileInstr (d : Bpp) (f : TileFlags) (s : State) : exec (tileInstr d f) s = .next (runTile d f s) := by
  cases d <;> rfl

/-! ## The checks -/

/-- A class (b) error in the terms claims use (R170, R172). -/
theorem endWithError_eq_raised {e : ErrName} (h : isFatalError e = false) (info : Word) (s : State) :
    endWithError e info s = s.raised (errCode e) info := by
  rw [endWithError, if_neg (by rw [h]; decide)]
  rfl

/-- A check that fails raises its error, and nothing else is written (R132). -/
theorem exec_tileInstr_of_error {d : Bpp} {f : TileFlags} {s : State} {e : ErrName} (h : tilePlan d f s = .error e) :
    exec (tileInstr d f) s = .next (s.raised (errCode e) 0#32) := by
  obtain ⟨-, hclass⟩ := tilePlan_error h
  rw [exec_tileInstr, runTile, h, ← endWithError_eq_raised hclass]

theorem imageEmpty_iff (s : State) : imageEmpty s = true ↔ s.img.width = 0#32 ∨ s.img.height = 0#32 := by
  simp [imageEmpty]

/-- An image that passes R121 and R122 leaves the checks of R123 and R124. -/
theorem tilePlan_of_imageOk (d : Bpp) {f : TileFlags} {s : State} (h : s.tileImageOk f) : tilePlan d f s =
    if 65535 < s.tilesX * s.tilesY then .error .imageTooLarge
    else if f.fitEn = true ∧ s.tilearg.fitBlk.toNat * blkTiles d < s.tilesX * s.tilesY then .error .tooManyTiles
    else if overflowsOut s (s.tileLength f (recSize d)) then .error .outputOverflow
    else .ok (tileLayout d f s) := by
  obtain ⟨hvalid, hempty, hodd⟩ := h
  rw [tilePlan_eq, if_neg (by simp [hvalid]), if_neg (by simpa [imageEmpty_iff] using hempty),
    if_neg fun ⟨hsize, hpad⟩ => by simp [hodd hsize] at hpad]

/-- Settles O46: each clause selects one branch of the chain of checks, whose error is raised (`exec_tileInstr_of_error`). -/
theorem tileChecksInOrder : Obligations.TileChecksInOrder := by
  intro f s i rec blk hi empty odd overLimit
  obtain ⟨d, rfl, rfl, rfl⟩ : ∃ d, i = tileInstr d f ∧ rec = recSize d ∧ blk = blkTiles d :=
    hi.elim (fun h => ⟨.four, h⟩) fun h => ⟨.eight, h⟩
  refine ⟨fun hvalid => ?_, fun hvalid hempty hallow => ?_, fun hvalid hempty hodd hpad => ?_, fun himg hlarge => ?_,
    fun himg hsmall hlimit => ?_, fun himg hcount hroom => ?_⟩
  · exact exec_tileInstr_of_error (e := .invalidImage) (by rw [tilePlan_eq, if_pos hvalid])
  · exact exec_tileInstr_of_error (e := .emptyImage)
      (by rw [tilePlan_eq, if_neg (by simp [hvalid]), if_pos ⟨(imageEmpty_iff s).mpr hempty, hallow⟩])
  · exact exec_tileInstr_of_error (e := .unexpectedImageSize)
      (by rw [tilePlan_eq, if_neg (by simp [hvalid]), if_neg (by simpa [imageEmpty_iff] using hempty), if_pos ⟨hodd, hpad⟩])
  · exact exec_tileInstr_of_error (e := .imageTooLarge) (by rw [tilePlan_of_imageOk d himg, if_pos hlarge])
  · exact exec_tileInstr_of_error (e := .tooManyTiles)
      (by rw [tilePlan_of_imageOk d himg, if_neg (Nat.not_lt.mpr hsmall), if_pos hlimit])
  · obtain ⟨hsmall, hfit⟩ := hcount
    exact exec_tileInstr_of_error (e := .outputOverflow)
      (by rw [tilePlan_of_imageOk d himg, if_neg (Nat.not_lt.mpr hsmall), if_neg fun ⟨hen, h⟩ => (hfit hen).not_gt h,
        if_pos (by simpa [overflowsOut] using hroom)])

/-! ## A scan that completes -/

/-- The artifact of a tile command whose scan gave every index: the records, then the filler (R73, R128). -/
def State.tileArtifact (s : State) (d : Bpp) (f : TileFlags) : List Byte :=
  tileBytes d (tileLayout d f s) s.tilearg.fill ((List.range (64 * (s.tilesX * s.tilesY))).map s.tileIdx)

section Complete
variable {d : Bpp} {f : TileFlags} {s : State}
  (hrange : ∀ k < 64 * (s.tilesX * s.tilesY), overLimit (indexLimit d) (s.tileIdx k) = false)
include hrange

theorem tileArtifact_length : (s.tileArtifact d f).length = s.tileLength f (recSize d) := by
  have h := tileScan_complete d f s hrange
  have hlen := tileBytes_length (f := f) s.tilearg.fill (congrArg Scan.bad h)
  rwa [h] at hlen

/-- Past the checks, a scan that meets no index out of range ends in the artifact (R129). -/
theorem exec_tileInstr_of_complete (himg : s.tileImageOk f) (hcount : s.tileCountOk f (blkTiles d))
    (hroom : s.outbase.toNat + s.tileLength f (recSize d) ≤ s.outSize) :
    exec (tileInstr d f) s = .next ((s.withQuant (s.tileQuant (64 * (s.tilesX * s.tilesY)))).wroteArtifact
      (Memory.setBlock s.out s.outbase.toNat (s.tileArtifact d f)) (s.tileLength f (recSize d)) (s.tilesX * s.tilesY) 0) := by
  rw [exec_tileInstr, runTile, tilePlan_of_checks d f s himg hcount hroom]
  simp only [tileScan_complete d f s hrange]
  rw [finishArtifact_eq_wroteArtifact, ← tileArtifact_length hrange]
  rfl

end Complete

/-- The records stand at the start of the artifact (R128). -/
theorem outGet_tileArtifact_record {d : Bpp} (f : TileFlags) {s : State} (m : Memory Byte) (base : Nat) {k : Nat} {v : Byte}
    (h : (packIndices d ((List.range (64 * (s.tilesX * s.tilesY))).map s.tileIdx))[k]? = some v) :
    outGet (Memory.setBlock m base (s.tileArtifact d f)) (base + k) = v := by
  obtain ⟨hk, -⟩ := List.getElem?_eq_some_iff.mp h
  exact outGet_setBlock_of_getElem? (by rw [State.tileArtifact, tileBytes, List.getElem?_append_left hk, h])

theorem packIndices_length (d : Bpp) {is : List Nat} {n : Nat} (h : is.length = 64 * n) :
    (packIndices d is).length = recSize d * n := by
  cases d with
  | four => rw [packIndices, packNibbles_length, recSize]; omega
  | eight => rw [packIndices, List.length_map, recSize, h]

/-- The filler follows the records up to the artifact's length (R128). -/
theorem outGet_tileArtifact_filler (d : Bpp) (f : TileFlags) (s : State) (m : Memory Byte) (base : Nat) {k : Nat}
    (hlo : recSize d * (s.tilesX * s.tilesY) ≤ k) (hhi : k < s.tileLength f (recSize d)) :
    outGet (Memory.setBlock m base (s.tileArtifact d f)) (base + k) = s.tilearg.fill := by
  have hrec := packIndices_length d (is := (List.range (64 * (s.tilesX * s.tilesY))).map s.tileIdx)
    (by rw [List.length_map, List.length_range])
  have hlen : (tileLayout d f s).len = s.tileLength f (recSize d) := rfl
  have hlen0 : (tileLayout d f s).len0 = recSize d * (s.tilesX * s.tilesY) := Nat.mul_comm _ _
  refine outGet_setBlock_of_getElem? ?_
  rw [State.tileArtifact, tileBytes, List.getElem?_append_right (hrec ▸ hlo), hrec, hlen, hlen0,
    List.getElem?_replicate_of_lt (by omega)]

/-- Settles O47: no index is out of range at 8 bits per pixel, and the artifact is read back byte by byte. -/
theorem tile8WritesIndices : Obligations.Tile8WritesIndices := by
  intro f s himg hcount hroom count q
  have hrange : ∀ k < 64 * count, overLimit (indexLimit .eight) (s.tileIdx k) = false := fun _ _ => rfl
  refine ⟨_, exec_tileInstr_of_complete hrange himg hcount hroom, fun k hk => ?_, fun k hlo hhi => ?_, fun a ha => ?_⟩
  · exact outGet_tileArtifact_record f _ _ (by simp [packIndices, count, hk])
  · exact outGet_tileArtifact_filler .eight f s _ _ hlo hhi
  · exact outGet_setBlock_outside (by rwa [tileArtifact_length hrange])

/-! ## `TILE4` -/

/-- The scan of `TILE4` stops at position `k`: the calls up to it keep their effect, and the window takes free values (R132, R180,
U5). -/
theorem exec_tile4_of_bad {f : TileFlags} {s : State} (himg : s.tileImageOk f) (hcount : s.tileCountOk f 512)
    (hroom : s.outbase.toNat + s.tileLength f 32 ≤ s.outSize) {k : Nat} (hk : k < 64 * (s.tilesX * s.tilesY))
    (hbad : 16 ≤ s.tileIdx k) (hfirst : ∀ j < k, s.tileIdx j < 16) :
    exec (.tile4 f) s = .next ((havocOut s.outbase.toNat (s.tileLength f 32) (s.withQuant (s.tileQuant (k + 1)))).raised 7#4
      (BitVec.ofNat 32 (s.tileIdx k))) := by
  obtain ⟨hstop, hquant⟩ := tileScan_stops f s hk hbad hfirst
  have hexec : exec (.tile4 f) s = .next (runTile .four f s) := rfl
  rw [hexec, runTile, tilePlan_of_checks .four f s himg hcount hroom]
  simp only [hstop, hquant, endWithError_eq_raised (e := .unexpectedPaletteIndex) rfl]
  rfl

/-- Settles O48: below 16 two indices share a byte (`packNibbles_getElem?`); the first that is not ends the scan
(`exec_tile4_of_bad`). -/
theorem tile4PacksNibblesOrRaises : Obligations.Tile4PacksNibblesOrRaises := by
  intro f s himg hcount hroom count outside
  refine ⟨fun hsmall => ?_, fun k hk hbad hfirst => ?_⟩
  · have hrange : ∀ k < 64 * count, overLimit (indexLimit .four) (s.tileIdx k) = false := fun k hk =>
      (overLimit_four_eq_false_iff _).mpr (hsmall k hk)
    refine ⟨_, exec_tileInstr_of_complete hrange himg hcount hroom, fun k hk => ?_, fun k hlo hhi => ?_, fun a ha => ?_⟩
    · have hidx : ∀ j < 64 * count, ((List.range (64 * count)).map s.tileIdx)[j]? = some (s.tileIdx j) := fun j hj => by
        simp [hj]
      rw [outGet_tileArtifact_record (d := .four) f _ _
        (packNibbles_getElem? _ k _ _ (hidx (2 * k) (by omega)) (hidx (2 * k + 1) (by omega)))]
      exact nibbles_toNat (hsmall _ (by omega)) (hsmall _ (by omega))
    · exact outGet_tileArtifact_filler .four f s _ _ hlo hhi
    · exact outGet_setBlock_outside (by rwa [tileArtifact_length hrange])
  · exact ⟨_, _, exec_tile4_of_bad himg hcount hroom hk hbad hfirst, fun a ha =>
      outGet_havocOut_outside (s := s.withQuant (s.tileQuant (k + 1))) ha⟩

/-! ## A fixed palette of at most 16 entries -/

/-- In fixed mode an index lies below the number of entries, or is 0 (R91 to R93). -/
theorem classify_fixed_lt {q : Quant} (p : Pixel) {n : Nat} (hm : q.qstate.mode = .nearestFixed) (hpos : 0 < n)
    (hn : q.qstate.count.toNat ≤ n) : (classify q p).1 < n := by
  by_cases ha : p.a = 255#8
  swap
  · rwa [classify_transparent ha]
  rcases Nat.lt_or_ge q.qstate.count.toNat 2 with hc | hc
  · rwa [classify_fixed_of_le_one p hm (by omega)]
  · obtain ⟨i, ⟨-, hlt, -⟩, he⟩ := classify_fixed_nearest hm ha hc
    rw [he]
    exact hlt.trans_le hn

/-- A fixed-mode quantizer is the same at every position of the scan (R93). -/
theorem tileQuant_fixed {s : State} (hm : s.qstate.mode = .nearestFixed) (k : Nat) : s.tileQuant k = s.quant := by
  induction k with
  | zero => rfl
  | succ k ih =>
    rw [State.tileQuant, ih]
    exact indexAt_fixed (img := s.img) (pad := s.tilearg.padIdx) hm _

/-- Every position of the scan lies in the grid of tiles (R125). -/
theorem tilePos_lt {tilesX tilesY k : Nat} (hk : k < 64 * (tilesX * tilesY)) :
    (tilePos tilesX k).1 < 8 * tilesX ∧ (tilePos tilesX k).2 < 8 * tilesY := by
  have hpos : 0 < tilesX := Nat.pos_of_ne_zero fun h => by simp [h] at hk
  have hcol : k / 64 % tilesX < tilesX := Nat.mod_lt _ hpos
  have hrow : k / 64 / tilesX < tilesY := Nat.div_lt_of_lt_mul (by omega)
  simp only [tilePos]
  omega

/-- The scan leaves the image only where R122 asks for `PAD_DIM` (R122, R125). -/
theorem padDim_of_tilePos_outside {f : TileFlags} {s : State} (himg : s.tileImageOk f) {k : Nat}
    (hk : k < 64 * (s.tilesX * s.tilesY))
    (hout : ¬ ((tilePos s.tilesX k).1 < s.img.width.toNat ∧ (tilePos s.tilesX k).2 < s.img.height.toNat)) : f.padDim = true := by
  obtain ⟨-, -, hodd⟩ := himg
  obtain ⟨hx, hy⟩ := tilePos_lt hk
  have hX : s.tilesX = (s.img.width.toNat + 7) / 8 := rfl
  have hY : s.tilesY = (s.img.height.toNat + 7) / 8 := rfl
  exact hodd (by omega)

/-- Settles O49: an index inside the image lies below the number of entries, one outside it is the pad index, and the quantizer
stays as it is. -/
theorem tile4CompletesWithSmallPalette : Obligations.Tile4CompletesWithSmallPalette := by
  intro f s himg hcount hroom hm hentries hpad
  have hsmall : ∀ k < 64 * (s.tilesX * s.tilesY), s.tileIdx k < 16 := fun k hk => by
    rw [State.tileIdx, tileQuant_fixed hm, State.indexAt]
    split
    · exact classify_fixed_lt _ hm (by decide) hentries
    · next hout => exact hpad (padDim_of_tilePos_outside himg hk hout)
  have h := exec_tileInstr_of_complete (d := .four) (fun k hk => (overLimit_four_eq_false_iff _).mpr (hsmall k hk)) himg hcount
    hroom
  rw [tileQuant_fixed hm] at h
  exact ⟨_, h⟩

/-! ## The operands of the other commands -/

/-- The steps the tile commands share neither read nor write `RECTX` to `RECTH`, `CELLW`, `CELLH` and `PIXEL` (R120). -/
theorem runTile_otherOperands (d : Bpp) (f : TileFlags) (s : State) (x y w h cw ch px : Word) :
    runTile d f { s with rectX := x, rectY := y, rectW := w, rectH := h, cellW := cw, cellH := ch, pixel := px } =
      { runTile d f s with rectX := x, rectY := y, rectW := w, rectH := h, cellW := cw, cellH := ch, pixel := px } := by
  generalize hs' : { s with rectX := x, rectY := y, rectW := w, rectH := h, cellW := cw, cellH := ch, pixel := px } = s'
  have hplan : tilePlan d f s' = tilePlan d f s := by subst hs'; rfl
  have hscan : ∀ p, tileScan d p s' = tileScan d p s := fun p => by subst hs'; rfl
  rw [runTile, runTile, hplan]
  cases tilePlan d f s with
  | error e => subst hs'; rfl
  | ok p =>
    simp only [hscan]
    cases (tileScan d p s).bad with
    | some i => subst hs'; rfl
    | none => subst hs'; rfl

/-- Settles O51: both commands are their shared steps, which leave those registers out (`runTile_otherOperands`). -/
theorem tileIgnoresOtherOperands : Obligations.TileIgnoresOtherOperands := by
  intro f s t x y w h cw ch px i hi he
  obtain ⟨d, rfl⟩ : ∃ d, i = tileInstr d f := hi.elim (fun h => ⟨.four, h⟩) fun h => ⟨.eight, h⟩
  rw [exec_tileInstr] at he ⊢
  obtain rfl := Host.Outcome.next.inj he
  rw [runTile_otherOperands]

end Sys2Proof.Machine
end

section
/-! SUPPORT. The bitmap commands at their checks (R140 to R142, R175): what each check raises, and which of the block's registers
`BMPC` leaves out (R140, R144, R146). -/

namespace Sys2Proof.Machine

/-! ## The checks -/

/-- A check of either bitmap command that fails raises its error, and nothing else is written. -/
theorem exec_bitmap_of_error {f : BmpFlags} {s : State} {i : Instr} {n : Nat} {e : ErrName}
    (hi : (i = .bmpi f ∧ n = 1) ∨ (i = .bmpc f ∧ n = 2)) (h : bmpPlan n f s = .error e) :
    exec i s = .next (s.raised (errCode e) 0#32) := by
  obtain ⟨-, hclass⟩ := bmpPlan_error h
  rw [← endWithError_eq_raised hclass]
  obtain ⟨rfl, rfl⟩ | ⟨rfl, rfl⟩ := hi
  · show execBmpi f s = _
    rw [execBmpi, h]
  · show execBmpc f s = _
    rw [execBmpc, h]

/-- The checks in the terms claims use: the region's one is made only of a rectangle that is read (R140 to R142). -/
theorem bmpPlan_eq (n : Nat) (f : BmpFlags) (s : State) : bmpPlan n f s =
    if s.img.valid = false then .error .invalidImage
    else if (s.img.width = 0#32 ∨ s.img.height = 0#32) ∧ f.allowEmpty = false then .error .emptyImage
    else if f.useRect = true ∧ (s.img.width.toNat < (s.bmpRect f).rx + (s.bmpRect f).rw ∨
      s.img.height.toNat < (s.bmpRect f).ry + (s.bmpRect f).rh) then .error .invalidRect
    else if s.outSize < s.outbase.toNat + (s.bmpRect f).rw * (s.bmpRect f).rh * n then .error .outputOverflow
    else .ok (s.bmpRect f) := by
  have hregion : bmpRegion f s = s.bmpRect f := rfl
  have houtside : rectInside s (s.bmpRect f) = false ↔ s.img.width.toNat < (s.bmpRect f).rx + (s.bmpRect f).rw ∨
      s.img.height.toNat < (s.bmpRect f).ry + (s.bmpRect f).rh := by
    simp only [rectInside, Bool.and_eq_false_iff, decide_eq_false_iff_not, not_le]
  simp only [bmpPlan, hregion, imageEmpty_iff, houtside, overflowsOut, decide_eq_true_eq]

/-- Settles O52: each clause selects one branch of the chain of checks (`bmpPlan_eq`), whose error is raised
(`exec_bitmap_of_error`). -/
theorem bitmapChecksInOrder : Obligations.BitmapChecksInOrder := by
  intro f s i n hi empty r
  refine ⟨fun hvalid => ?_, fun hvalid hempty hallow => ?_, fun hvalid hempty huse houtside => ?_, fun hok hroom => ?_⟩
  · exact exec_bitmap_of_error (e := .invalidImage) hi (by rw [bmpPlan_eq, if_pos hvalid])
  · exact exec_bitmap_of_error (e := .emptyImage) hi
      (by rw [bmpPlan_eq, if_neg (by simp [hvalid]), if_pos ⟨hempty, hallow⟩])
  · exact exec_bitmap_of_error (e := .invalidRect) hi
      (by rw [bmpPlan_eq, if_neg (by simp [hvalid]), if_neg fun ⟨he, hf⟩ => by simp [hempty he] at hf, if_pos ⟨huse, houtside⟩])
  · obtain ⟨hvalid, hempty, hx, hy⟩ := hok
    exact exec_bitmap_of_error (e := .outputOverflow) hi
      (by rw [bmpPlan_eq, if_neg (by simp [hvalid]), if_neg fun ⟨he, hf⟩ => by simp [hempty he] at hf,
        if_neg fun ⟨_, ho⟩ => ho.elim hx.not_gt hy.not_gt, if_pos hroom])

/-! ## The operands `BMPC` leaves out -/

/-- Settles O55: the checks and the colours come from the image, the rectangle and `OUT` alone, and neither way `BMPC` ends touches
the registers named (`endWithError`, `finishArtifact`). -/
theorem bmpcIgnoresTheQuantizer : Obligations.BmpcIgnoresTheQuantizer := by
  intro f s t q pal a cw ch px he
  generalize hs' : { s with qstate := q, pal := pal, tilearg := a, cellW := cw, cellH := ch, pixel := px } = s'
  have hplan : bmpPlan 2 f s' = bmpPlan 2 f s := by subst hs'; rfl
  have himg : s'.img = s.img := by subst hs'; rfl
  change execBmpc f s = _ at he
  show execBmpc f s' = _
  rw [execBmpc] at he ⊢
  rw [hplan, himg]
  cases h : bmpPlan 2 f s with
  | error _ | ok _ =>
    rw [h] at he
    obtain rfl := Host.Outcome.next.inj he
    subst hs'
    rfl

end Sys2Proof.Machine
end

section
/-! SUPPORT. `FONT` at its checks and at its first bad glyph (R150, R154, R157, R175), and the box found for each cell (R151 to
R153). -/

namespace Sys2Proof.Machine

/-! ## How `FONT` ends on an error -/

theorem exec_font_of_error {s : State} {e : ErrName × Word} (h : fontPlan s = .error e) :
    exec .font s = .next (endWithError e.1 e.2 s) := by
  show execFont s = _
  rw [execFont, h]

/-- An error of class (c) as the claims write it (R13, R173). -/
theorem endWithError_eq_fatally {e : ErrName} (h : isFatalError e = true) (info : Word) (s : State) :
    endWithError e info s = s.fatally (errCode e) info := by
  rw [endWithError, if_pos h]
  rfl

theorem exec_font_of_raised {s : State} {e : ErrName} (hclass : isFatalError e = false) (h : fontPlan s = .error (e, 0#32)) :
    exec .font s = .next (s.raised (errCode e) 0#32) := by
  rw [exec_font_of_error h, endWithError_eq_raised hclass]

theorem exec_font_of_fatal {s : State} {e : ErrName} {info : Word} (hclass : isFatalError e = true)
    (h : fontPlan s = .error (e, info)) : exec .font s = .next (s.fatally (errCode e) info) := by
  rw [exec_font_of_error h, endWithError_eq_fatally hclass]

/-! ## The checks -/

theorem rectInside_rectRegion_eq_false (s : State) : rectInside s (rectRegion s) = false ↔
    s.img.width.toNat < s.rectX.toNat + s.rectW.toNat ∨ s.img.height.toNat < s.rectY.toNat + s.rectH.toNat := by
  rw [← Bool.not_eq_true, rectInside_rectRegion, not_and_or, not_le, not_le]

/-- Settles O56: each clause selects one branch of the chain of checks in `fontPlan`, whose error is raised
(`exec_font_of_raised`). -/
theorem fontChecksInOrder : Obligations.FontChecksInOrder := by
  intro s outside
  refine ⟨fun hvalid => ?_, fun hvalid hzero => ?_, fun hvalid hcw hch hout => ?_⟩
  · exact exec_font_of_raised (e := .invalidImage) rfl (by rw [fontPlan, if_pos hvalid])
  · exact exec_font_of_raised (e := .badOperand) rfl (by rw [fontPlan, if_neg (by simp [hvalid]), if_pos hzero])
  · have hrect : rectInside s (rectRegion s) = false := (rectInside_rectRegion_eq_false s).mpr hout
    exact exec_font_of_raised (e := .invalidRect) rfl
      (by rw [fontPlan, if_neg (by simp [hvalid]), if_neg (by simp [hcw, hch]), if_pos hrect])

/-! ## The first bad glyph -/

/-- A box outside its limits is reported with the conditions it breaks (R154, R174). -/
theorem packGlyph_of_violates {img : Image} {cw ch base : Nat} {c : Cell} {b : Box} (hbox : boxOf (setPixels img cw ch c) = some b)
    (hbad : 12 < b.w ∨ 12 < b.h ∨ 15 < b.yMin) : packGlyph img cw ch base c = .error (.fontInvariant, fontInvariantInfo c.g b) := by
  simp only [packGlyph, hbox]
  rw [if_pos (b.violates_iff.mpr hbad)]

/-- A box within its limits whose offset needs more than 16 bits is reported by the glyph's number (R157, R174). -/
theorem packGlyph_of_offset {img : Image} {cw ch base : Nat} {c : Cell} {b : Box} (hbox : boxOf (setPixels img cw ch c) = some b)
    (hgood : ¬ (12 < b.w ∨ 12 < b.h ∨ 15 < b.yMin)) (hoff : 65535 < base) :
    packGlyph img cw ch base c = .error (.fontOffsetOverflow, BitVec.ofNat 32 (c.g % 65536)) := by
  simp only [packGlyph, hbox]
  rw [if_neg (mt b.violates_iff.mp hgood), if_pos (show Config.maxGlyphOffset < base from hoff)]

/-- Past the checks of R150 the error of the first glyph that has one is the command's. -/
theorem fontPlan_of_badGlyph {s : State} {boxes : Nat → Option Box} {g : Nat} {e : ErrName × Word} (hok : s.fontOk)
    (hb : s.glyphBoxes boxes) (hg : g < s.glyphCount) (hfits : ∀ g' < g, s.glyphFits boxes g')
    (he : packGlyph s.img s.cellW.toNat s.cellH.toNat (s.glyphOffset boxes g) (glyphCell s g) = .error e) :
    fontPlan s = .error e := by
  obtain ⟨hvalid, hcw, hch, hx, hy⟩ := hok
  have hinside : rectInside s (rectRegion s) = true := (rectInside_rectRegion s).mpr ⟨hx, hy⟩
  have hpack := packGlyphs_error_at hb s.glyphCount 0 g e (by omega) (by omega) (by omega) (fun g' _ h => hfits g' h) he
  rw [← List.range_eq_range'] at hpack
  rw [fontPlan, if_neg (by simp [hvalid]), if_neg (by simp [hcw, hch]), if_neg (by simp [hinside]), glyphOffset_zero s boxes,
    fontCells_eq, hpack]

/-- Settles O57: the glyphs before `g` fit, so the error of glyph `g` is the command's (`fontPlan_of_badGlyph`), and it is of class
(c) (`exec_font_of_fatal`). -/
theorem fontViolationIsFatal : Obligations.FontViolationIsFatal := by
  intro s boxes g b hok hb hg hfits hsome
  have hbox : boxOf (setPixels s.img s.cellW.toNat s.cellH.toNat (glyphCell s g)) = some b := (boxOf_boxes hb hg).trans hsome
  refine ⟨fun hbad => ?_, fun hw hh hv hoff => ?_⟩
  · rw [← fontInvariantInfo_eq]
    exact exec_font_of_fatal (e := .fontInvariant) rfl (fontPlan_of_badGlyph hok hb hg hfits (packGlyph_of_violates hbox hbad))
  · exact exec_font_of_fatal (e := .fontOffsetOverflow) rfl
      (fontPlan_of_badGlyph hok hb hg hfits (packGlyph_of_offset hbox (by omega) hoff))

/-! ## The box of a cell -/

theorem boxOf_eq_none_iff (l : List (Nat × Nat)) : boxOf l = none ↔ l = [] := by
  cases l with
  | nil | cons _ _ => simp [boxOf]

/-- The packer's box is the one tight box there is (R153). -/
theorem boxOf_eq_some_iff (l : List (Nat × Nat)) (b : Box) : boxOf l = some b ↔ BoxOfList l b := by
  obtain ⟨rfl, -⟩ | ⟨b', hsome, htight⟩ := boxOf_spec l
  · constructor
    · intro h
      cases h
    · rintro ⟨-, ⟨_, hmem, -⟩, -⟩
      cases hmem
  · rw [hsome, Option.some_inj]
    exact ⟨fun h => h ▸ htight, htight.unique⟩

/-- The set predicate as R152 words it: fully opaque and not black. -/
theorem pixelSet_iff (p : Pixel) : pixelSet p = true ↔ p.a = 255#8 ∧ ¬ (p.r = 0#8 ∧ p.g = 0#8 ∧ p.b = 0#8) := by
  rw [pixelSet, Bool.and_eq_true, Bool.not_eq_true', ← Bool.not_eq_true]
  simp only [Bool.and_eq_true, decide_eq_true_eq, and_assoc]

/-- The cell at position `g` is glyph `g`'s (R151). -/
theorem eq_glyphCell_of_getElem? {s : State} {g : Nat} {c : Cell} (h : (fontCells s)[g]? = some c) : c = glyphCell s g := by
  rw [fontCells_eq, List.getElem?_map, Option.map_eq_some_iff] at h
  obtain ⟨k, hk, rfl⟩ := h
  obtain ⟨hlt, rfl⟩ := List.getElem?_eq_some_iff.mp hk
  rw [List.getElem_range]

/-- Settles O59: cell `g` is `glyphCell s g` (`eq_glyphCell_of_getElem?`), whose set pixels are glyph `g`'s (`mem_setPixels`), and the
packer's box is the tight box of them (`boxOf_eq_some_iff`). -/
theorem everyGlyphHasItsBox : Obligations.EveryGlyphHasItsBox := by
  refine fun s => ⟨by simp [fontCells_eq], fun g c hc => ?_⟩
  obtain rfl := eq_glyphCell_of_getElem? hc
  refine ⟨rfl, fun u v => ?_, ?_, fun b => ?_⟩
  · simp only [mem_setPixels, State.glyphSet, Bool.and_eq_true, decide_eq_true_eq, pixelSet_iff, and_assoc]
  · rw [boxOf_eq_none_iff, glyphBlank_iff]
  · rw [boxOf_eq_some_iff, glyphBox_iff]

end Sys2Proof.Machine
end

section
/-! SUPPORT. The block's conditions idle, busy and fatal, by everything a step can do to `STATUS` (R12, R173, R182, R186, R190), and
what an error leaves alone (R172, R173, R177, R179, R180). -/

namespace Sys2Proof.Machine

/-! ## Waiting -/

/-- Held in reset the block does nothing on its turn (R190; log 4). -/
theorem takeBlockTurn_of_rst {s : State} (hr : s.rst = true) : takeBlockTurn s = .next s :=
  if_neg fun ⟨_, hreleased⟩ => absurd (hr.symm.trans hreleased) (by decide)

/-- The block's turn waits with no command in progress, and in reset (R186; log 4). -/
theorem takeBlockTurn_waits {s : State} (h : s.status.busy = false ∨ s.rst = true) : takeBlockTurn s = .next s :=
  h.elim takeBlockTurn_of_not_busy takeBlockTurn_of_rst

/-- Settles O8: both forms of the agenda give the block its turn, on which it waits (`takeBlockTurn_waits`). -/
theorem idleBlockWaits : Obligations.IdleBlockWaits := by
  intro s h
  constructor
  · intro ha
    calc step s = takeBlockTurn s := step_of_agenda_nil ha
      _ = .next s := takeBlockTurn_waits h
  · intro rest ha
    calc step s = takeEvent .blockTurn { s with agenda := rest } := step_of_agenda_cons ha
      _ = takeBlockTurn { s with agenda := rest } := takeEvent_blockTurn _
      _ = .next { s with agenda := rest } := takeBlockTurn_waits h

/-! ## Errors -/

/-- Settles O30: of the ways a command ends, an error of a check writes `STATUS` and `ERRINFO` alone, a completion without error
leaves `ERR` 0, and the error after a write is code 7. -/
theorem failedCommandsLeaveMemoriesAlone : Obligations.FailedCommandsLeaveMemoriesAlone := by
  intro i s t hs he ht hcode
  have hno : s.status.err ≠ true := by rw [hs]; decide
  cases execCases_of_exec he with
  | failed => exact ⟨rfl, rfl, rfl, rfl, rfl, rfl, rfl⟩
  | result => exact absurd ht hno
  | artifact => exact absurd ht hno
  | badIndex => exact absurd rfl hcode

/-! ## Conditions -/

/-- The block has the next turn: its own event comes first, or none is left (log 1). -/
def State.blockIsNext (s : State) : Prop := s.agenda = [] ∨ ∃ rest, s.agenda = .blockTurn :: rest

/-- Everything a step can do to `STATUS`: only the acceptance of a command, the reset input and the block's turn on a command in
progress write it (R12, R182, R190). What the turn writes is the command's (`ExecCases`). -/
inductive StatusAfter (s : State) : Status → Prop where
  | kept : StatusAfter s s.status
  | accepted (w : Word) (rest : List Event) (hi : s.idle) (hr : s.rst = false) (ha : s.agenda = .hostWrite 0 4 w :: rest) :
      StatusAfter s acceptedStatus
  | reset (level : Bool) (rest : List Event) (ha : s.agenda = .reset level :: rest) : StatusAfter s Status.reset
  | turn (st : Status) (hb : s.status.busy = true) (hr : s.rst = false) (hn : s.blockIsNext) : StatusAfter s st

/-- Either level of `RST` leaves `STATUS` as it was or as reset has it (R29, R190). -/
theorem resetEvent_status (level : Bool) (s : State) :
    (resetEvent level s).status = s.status ∨ (resetEvent level s).status = Status.reset := by
  unfold resetEvent
  split
  · exact .inr rfl
  split
  · exact .inr rfl
  · exact .inl rfl

theorem statusAfter_of_blockTurn {s u t : State} (hst : u.status = s.status) (hrst : u.rst = s.rst) (hn : s.blockIsNext)
    (h : takeBlockTurn u = .next t) : StatusAfter s t.status := by
  rcases takeBlockTurn_cases h with rfl | ⟨hb, hr, _⟩
  · exact hst ▸ .kept
  · exact .turn _ (hst ▸ hb) (hrst ▸ hr) hn

theorem statusAfter_of_hostWrite {s : State} {off : Nat} {w : Word} {rest : List Event} (hr : s.rst = false)
    (ha : s.agenda = .hostWrite off 4 w :: rest) :
    StatusAfter s (writeRegister off w { s with agenda := rest }).status := by
  rcases writeRegister_cases off w { s with agenda := rest } with
    h | ⟨hb, hf, rfl, h⟩ | ⟨_, _, _, _, _, _, _, _, _, _, h⟩ | ⟨_, _, _, h⟩
  · rw [h]; exact .kept
  · rw [h]; exact .accepted w rest ⟨hb, hf⟩ hr ha
  · rw [h]; exact .kept
  · rw [h]; exact .kept

theorem statusAfter_of_step {s t : State} (h : step s = .next t) : StatusAfter s t.status := by
  rcases step_cases h with ⟨ha, hturn⟩ | ⟨e, rest, ha, hevent⟩
  · exact statusAfter_of_blockTurn rfl rfl (.inl ha) hturn
  rcases takeEvent_cases hevent with ⟨_, _, rfl⟩ | ⟨off, w, rfl, hr, _, rfl⟩ | ⟨_, _, _, rfl⟩ | ⟨level, rfl, rfl⟩ | ⟨rfl, hturn⟩
  · exact .kept
  · exact statusAfter_of_hostWrite hr ha
  · exact .kept
  · rcases resetEvent_status level { s with agenda := rest } with hst | hst
    · rw [hst]; exact .kept
    · rw [hst]; exact .reset level rest ha
  · exact statusAfter_of_blockTurn (u := { s with agenda := rest }) rfl rfl (.inr ⟨rest, ha⟩) hturn

/-- Settles O25, by what wrote `STATUS` (`statusAfter_of_step`): a kept `STATUS` changes no condition, and each of the three writers
makes only the changes that name it. A turn cannot end a fatal state, since by the premise a fatal block has no command in progress. -/
theorem conditionsChangeOnlyByTheirEvents : Obligations.ConditionsChangeOnlyByTheirEvents := by
  intro s t hbf hs
  have hst := statusAfter_of_step hs
  generalize t.status = st at hst ⊢
  cases hst with
  | kept =>
    have no_rise : ∀ {b : Bool} {P : Prop}, b = false → b = true → P := fun h h' => absurd h' (ne_true_of_eq_false h)
    exact ⟨no_rise, flip no_rise, no_rise, flip no_rise⟩
  | accepted w rest hi hr ha =>
    obtain ⟨_, hf⟩ := hi
    exact ⟨fun _ _ => ⟨hf, hr, w, rest, ha⟩, fun _ => (absurd · Bool.false_ne_true.symm), fun _ => (absurd · Bool.false_ne_true),
      fun h _ => absurd h (ne_true_of_eq_false hf)⟩
  | reset level rest ha =>
    exact ⟨fun _ => (absurd · Bool.false_ne_true), fun _ _ => .inr ⟨level, rest, ha⟩, fun _ => (absurd · Bool.false_ne_true),
      fun _ _ => ⟨level, rest, ha⟩⟩
  | turn _ hb hr hn =>
    exact ⟨fun h _ => absurd hb (ne_true_of_eq_false h), fun _ _ => .inl ⟨hr, hn⟩, fun _ _ => ⟨hb, hr, hn⟩,
      fun h _ => absurd h (ne_true_of_eq_false (hbf hb))⟩

end Sys2Proof.Machine
end

section
/-! SUPPORT. What every command writes and leaves alone as it ends (R11, R171 to R173, R199). -/

namespace Sys2Proof.Machine

/-- `s` with everything that a command may write taken from `o`: `STATUS`, `ERRINFO`, the results, the quantizer and `OUT` (R11). -/
def State.withCommandOutputs (s o : State) : State :=
  { s with
    status := o.status, errinfo := o.errinfo, result := o.result, outlen := o.outlen, res0 := o.res0, res1 := o.res1
    qstate := o.qstate, pal := o.pal, out := o.out, freeCtr := o.freeCtr }

/-- Whichever way a command ends, the fields that are no output of it are as before (R11). -/
theorem ExecCases.eq_withCommandOutputs {i : Instr} {s t : State} (h : ExecCases i s t) : t = s.withCommandOutputs t := by
  cases h with
  | failed => rfl
  | result => rfl
  | artifact => rfl
  | badIndex => rfl

theorem endWithError_done (e : ErrName) (info : Word) (s : State) : (endWithError e info s).status.done = true := by
  rw [endWithError_status]; split <;> rfl

/-- Whichever way a command ends, it has ended (R171 to R173). -/
theorem ExecCases.completed {i : Instr} {s t : State} (h : ExecCases i s t) : t.status.busy = false ∧ t.status.done = true := by
  cases h with
  | failed e info => exact ⟨endWithError_busy e info s, endWithError_done e info s⟩
  | result => exact ⟨rfl, rfl⟩
  | artifact => exact ⟨rfl, rfl⟩
  | badIndex => exact ⟨rfl, rfl⟩

/-- Only `QCLS` and `CVT15` write `RESULT` (R98, R111). -/
theorem ExecCases.result_kept {i : Instr} {s t : State} (h : ExecCases i s t) (hqcls : i ≠ .qcls) (hcvt15 : i ≠ .cvt15) :
    t.result = s.result := by
  cases h with
  | failed => rfl
  | result q r _ _ hr => exact hr hqcls hcvt15
  | artifact => rfl
  | badIndex => rfl

/-- Settles O28: every command ends in one of four ways (`exec_cases`), each of which completes it and writes its outputs alone. -/
theorem everyCommandCompletes : Obligations.EveryCommandCompletes := by
  intro i s
  obtain ⟨t, ht, hc⟩ := exec_cases i s
  obtain ⟨hbusy, hdone⟩ := hc.completed
  have kept {α : Type} (field : State → α) : field t = field (s.withCommandOutputs t) :=
    congrArg field hc.eq_withCommandOutputs
  exact ⟨t, ht, hbusy, hdone, kept State.cmd, kept State.pixel, kept State.rectX, kept State.rectY, kept State.rectW,
    kept State.rectH, kept State.cellW, kept State.cellH, kept State.tilearg, kept State.outbase, kept State.outTop,
    kept State.img, kept State.rst, kept State.agenda, kept State.rdata, hc.result_kept⟩

end Sys2Proof.Machine
end

section
/-! SUPPORT. The two edges of `RST` (R29, R190, R191), and what an abandoned command can have changed (U6). -/

namespace Sys2Proof.Machine

/-! ## The two edges -/

/-- Asserting `RST` resets every register; the memories are what abandoning the command in progress leaves of them (R29, R190). -/
theorem resetEvent_assert (s : State) : resetEvent true s =
    { State.reset with
      pal := (abandon s).pal, out := (abandon s).out, outTop := s.outTop, img := s.img, rst := true, agenda := s.agenda
      rdata := s.rdata, freeCtr := (abandon s).freeCtr } := rfl

/-- Releasing `RST` leaves every register reset, and both memories as they are (R29, R190, R191). -/
theorem resetEvent_release {s : State} (hr : s.rst = true) : resetEvent false s =
    { State.reset with
      pal := s.pal, out := s.out, outTop := s.outTop, img := s.img, agenda := s.agenda, rdata := s.rdata
      freeCtr := s.freeCtr } := by
  rw [resetEvent, if_neg Bool.false_ne_true, if_pos hr]
  rfl

theorem step_reset {s : State} {level : Bool} {rest : List Event} (ha : s.agenda = .reset level :: rest) :
    step s = .next (resetEvent level { s with agenda := rest }) :=
  step_of_agenda_cons ha

/-- Settles O21: the edge is a release (`resetEvent_release`), since `RST` is asserted. -/
theorem resetReleaseGivesResetRegisters : Obligations.ResetReleaseGivesResetRegisters := by
  intro s rest hr ha
  calc step s = .next (resetEvent false { s with agenda := rest }) := step_reset ha
    _ = _ := congrArg Host.Outcome.next (resetEvent_release (s := { s with agenda := rest }) hr)

theorem step_reset_assert {s : State} {rest : List Event} (ha : s.agenda = .reset true :: rest) :
    step s = .next { State.reset with
      pal := (abandon { s with agenda := rest }).pal, out := (abandon { s with agenda := rest }).out
      outTop := s.outTop, img := s.img, rst := true, agenda := rest, rdata := s.rdata
      freeCtr := (abandon { s with agenda := rest }).freeCtr } :=
  (step_reset ha).trans (congrArg Host.Outcome.next (resetEvent_assert _))

/-! ## No command in progress -/

/-- With no command in progress nothing is abandoned, so no free value is drawn (R190). -/
theorem abandon_freeCtr_of_not_busy {s : State} (hb : s.status.busy = false) : (abandon s).freeCtr = s.freeCtr := by
  rw [abandon, inProgress_of_not_busy hb]
  rfl

/-- Settles O22: the footprint of a block that is not busy is empty, so all of both memories lies outside it. -/
theorem resetWhenNotBusyKeepsMemories : Obligations.ResetWhenNotBusyKeepsMemories := by
  intro s rest hb ha
  have hempty : inProgress { s with agenda := rest } = Footprint.empty := inProgress_of_not_busy hb
  have hctr : (abandon { s with agenda := rest }).freeCtr = s.freeCtr :=
    abandon_freeCtr_of_not_busy (s := { s with agenda := rest }) hb
  refine ⟨_, _, hctr ▸ step_reset_assert ha, fun k => ?_, fun a => ?_⟩
  · exact abandon_palGet _ (.inr (by rw [hempty]; exact Nat.zero_le k))
  · exact abandon_outGet _ (by rw [hempty]; exact Nat.lt_or_ge a _)

/-! ## The palette entries at risk -/

/-- Entry 0 is at risk for a legal `QINC` alone (R97, U6; log 11). -/
theorem lowestEntryAtRisk_cases (i : Instr) :
    (∃ n, i = .qinc n ∧ 2 ≤ n.toNat ∧ n.toNat ≤ 256) ∨ lowestEntryAtRisk i = 1 := by
  cases i with
  | qinc n =>
    by_cases hillegal : n.toNat < 2 ∨ Config.palSize < n.toNat
    · exact .inr (if_pos hillegal)
    · rw [Config.palSize, not_or, not_lt, not_lt] at hillegal
      obtain ⟨hlo, hhi⟩ := hillegal
      exact .inl ⟨n, rfl, hlo, hhi⟩
  | _ => exact .inr rfl

/-- An entry above 0 is at risk in incremental mode alone, whatever the command (U6; log 11). -/
theorem entry_atRisk_or_beyond (m : QMode) {base k : Nat} (hbase : base ≤ 1) (hk : 1 ≤ k) :
    (m = .incrementalNaive ∧ 1 ≤ k ∧ k < 256) ∨ base + (entriesAtRiskEnd m - base) ≤ k := by
  cases m with
  | nearestFixed => exact .inr (by simp only [entriesAtRiskEnd]; omega)
  | incrementalNaive =>
    rcases Nat.lt_or_ge k 256 with hlt | hge
    · exact .inl ⟨rfl, hk, hlt⟩
    · exact .inr (by simp only [entriesAtRiskEnd, Config.palSize]; omega)

/-- What abandoning a legal command leaves of `PAL` (R190, U6; log 11). -/
theorem abandon_palGet_of_command {s : State} {i : Instr} (hb : s.status.busy = true) (hd : decode s.cmd = .ok i) (k : Nat) :
    (∃ n, i = .qinc n ∧ 2 ≤ n.toNat ∧ n.toNat ≤ 256 ∧ k = 0) ∨
      (s.qstate.mode = .incrementalNaive ∧ 1 ≤ k ∧ k < 256) ∨ palGet (abandon s).pal k = palGet s.pal k := by
  have hfoot := inProgress_of_command hb hd
  rcases Nat.eq_zero_or_pos k with rfl | hk
  · rcases lowestEntryAtRisk_cases i with ⟨n, hi, hlo, hhi⟩ | hlow
    · exact .inl ⟨n, hi, hlo, hhi, rfl⟩
    · exact .inr (.inr (abandon_palGet s (.inl (by rw [hfoot, footprint, hlow]; exact Nat.one_pos))))
  · rcases entry_atRisk_or_beyond s.qstate.mode (lowestEntryAtRisk_le_one i) hk with hrisk | hbeyond
    · exact .inr (.inl hrisk)
    · exact .inr (.inr (abandon_palGet s (.inr (by rw [hfoot]; exact hbeyond))))

/-- What abandoning an illegal word leaves of `PAL` (R66, U6; log 11). -/
theorem abandon_palGet_of_illegal {s : State} {e : DecodeError} (hb : s.status.busy = true) (hd : decode s.cmd = .error e)
    (k : Nat) : (s.qstate.mode = .incrementalNaive ∧ 1 ≤ k ∧ k < 256) ∨ palGet (abandon s).pal k = palGet s.pal k := by
  have hfoot := inProgress_of_illegal hb hd
  rcases Nat.eq_zero_or_pos k with rfl | hk
  · exact .inr (abandon_palGet s (.inl (by rw [hfoot]; exact Nat.one_pos)))
  · exact (entry_atRisk_or_beyond s.qstate.mode le_rfl hk).imp_right fun hbeyond =>
      abandon_palGet s (.inr (by rw [hfoot]; exact hbeyond))

/-! ## A command in progress -/

/-- An illegal word in progress has no window of `OUT` (R66, R190). -/
theorem abandon_outGet_of_illegal {s : State} {e : DecodeError} (hb : s.status.busy = true) (hd : decode s.cmd = .error e)
    (a : Nat) : outGet (abandon s).out a = outGet s.out a :=
  abandon_outGet s (by rw [inProgress_of_illegal hb hd]; exact Nat.lt_or_ge a _)

/-- Settles O23: abandoning the command writes its footprint alone, which for a legal command is its window and its entries at
risk, and for an illegal word the entries that U6 frees. -/
theorem resetAbandonsTheCommandInProgress : Obligations.ResetAbandonsTheCommandInProgress := by
  intro s rest hb ha
  refine ⟨_, _, _, step_reset_assert ha, fun i hd => ⟨fun a hwindow => ?_, fun k => ?_⟩, fun e hd => ⟨fun a => ?_, fun k => ?_⟩⟩
  · exact abandon_outGet { s with agenda := rest } (by rwa [inProgress_of_command (s := { s with agenda := rest }) hb hd])
  · exact abandon_palGet_of_command (s := { s with agenda := rest }) hb hd k
  · exact abandon_outGet_of_illegal (s := { s with agenda := rest }) hb hd a
  · exact abandon_palGet_of_illegal (s := { s with agenda := rest }) hb hd k

end Sys2Proof.Machine
end
